-- ==== Sys2Proof/Syntax.lean ====
section
/-! DEFINITION. The fifteen commands of the engine, one constructor per row of `spec/opcode_table.json`
(`30_encoding.md` R82). No command carries an operand: every operand is implied by the opcode (R83). -/

namespace Sys2Proof

/-- A command. The constructors stand in the order of R82's table. -/
inductive Instr where
  | hash        -- HASH         0x01
  | hInit       -- H_INIT       0x02
  | hUpdate     -- H_UPDATE     0x03
  | hDigest     -- H_DIGEST     0x04
  | hHexdigest  -- H_HEXDIGEST  0x05
  | mgf1        -- MGF1         0x10
  | montmul     -- MONTMUL      0x20
  | modexp      -- MODEXP       0x21
  | egcd        -- EGCD         0x22
  | modinv      -- MODINV       0x23
  | isprime     -- ISPRIME      0x30
  | genprime    -- GENPRIME     0x31
  | genkey      -- GENKEY       0x32
  | oaepEnc     -- OAEP_ENC     0x40
  | oaepDec     -- OAEP_DEC     0x41
deriving DecidableEq, Repr

end Sys2Proof
end

