-- ==== Sys2Proof/Word.lean ====
section
/-! DEFINITION. The three value types of the engine: bytes, the 32-bit words of SHA-256 and of the
command interface, and byte strings (`00_scope.md` R8, R11; `30_encoding.md` R80). -/

namespace Sys2Proof

/-- A byte, an integer in 0..255 (R8). -/
abbrev Byte := BitVec 8

/-- A 32-bit word: a SHA-256 word (R11), a command word (R80) or the `STATUS` word (R24). -/
abbrev Word := BitVec 32

/-- A byte string, leftmost byte first (R8). The empty string is `[]`. -/
abbrev Bytes := List Byte

end Sys2Proof
end

