-- ==== Sys2Proof/Decode.lean ====
section
/-! DEFINITION. The command decoder and encoder (`30_encoding.md` R80 to R82). One 32-bit word is one
command: the opcode in bits 7:0, bits 31:8 zero. -/

namespace Sys2Proof

/-- Why a word is no command (R81, R86). -/
inductive IllegalWord where
  /-- A bit of 31:8 is set. -/
  | reservedBits (w : Word)
  /-- Bits 31:8 are zero and the opcode is no row of R82. -/
  | unassignedOpcode (op : BitVec 8)
deriving DecidableEq, Repr

/-- The opcode map of R82. -/
def opcodeMap : List (BitVec 8 × Instr) :=
  [(0x01, .hash), (0x02, .hInit), (0x03, .hUpdate), (0x04, .hDigest), (0x05, .hHexdigest)] ++
  [(0x10, .mgf1), (0x20, .montmul), (0x21, .modexp), (0x22, .egcd), (0x23, .modinv)] ++
  [(0x30, .isprime), (0x31, .genprime), (0x32, .genkey), (0x40, .oaepEnc), (0x41, .oaepDec)]

/-- The `opcode` field, bits 7:0 (R80). -/
def opcodeField (w : Word) : BitVec 8 := w.extractLsb' 0 8

/-- The `zero` field, bits 31:8 (R80). -/
def zeroField (w : Word) : BitVec 24 := w.extractLsb' 8 24

/-- `Decode(w)` of R81: total on 32-bit words, an illegal word rejected with its reason. -/
def decode (w : Word) : Except IllegalWord Instr :=
  if zeroField w ≠ 0 then .error (.reservedBits w)
  else
    match opcodeMap.find? (fun row => row.1 == opcodeField w) with
    | some row => .ok row.2
    | none => .error (.unassignedOpcode (opcodeField w))

/-- The `match` column of R82: the one word that selects a command. -/
def encode : Instr → Word
  | .hash => 0x00000001
  | .hInit => 0x00000002
  | .hUpdate => 0x00000003
  | .hDigest => 0x00000004
  | .hHexdigest => 0x00000005
  | .mgf1 => 0x00000010
  | .montmul => 0x00000020
  | .modexp => 0x00000021
  | .egcd => 0x00000022
  | .modinv => 0x00000023
  | .isprime => 0x00000030
  | .genprime => 0x00000031
  | .genkey => 0x00000032
  | .oaepEnc => 0x00000040
  | .oaepDec => 0x00000041

/-- The command word whose low `nbits` bits are those of `w`, the others 0. -/
def tableWord (nbits w : Nat) : Word := BitVec.ofNat 32 (w % 2 ^ nbits)

/-- The command the decoder reads from a table row's word. A word that needs more than 32 bits is none. -/
def decodeTableWord (nbits w : Nat) : Option Instr :=
  if w % 2 ^ nbits < 2 ^ 32 then (decode (tableWord nbits w)).toOption else none

end Sys2Proof
end

