-- ==== Sys2Proof/Machine/Bytes.lean ====
section
/-! DEFINITION. Integer and byte-string conversions (`00_scope.md` R8 to R10). Every conversion of the
block is big-endian (R9, R63) and goes through `be` and `intOf`. -/

namespace Sys2Proof.Machine

/-- `be(x, n)`: the `n`-byte big-endian string of `x` (R9). The spec uses it for `x < 256^n` only; for a
larger `x` it is the low `n` bytes. -/
def be (x : Nat) : Nat → Bytes
  | 0 => []
  | n + 1 => BitVec.ofNat 8 (x / 256 ^ n) :: be x n

/-- `int(s)`: the natural a byte string denotes, leftmost byte most significant; `int("") = 0` (R9). -/
def intOf (s : Bytes) : Nat := s.foldl (fun acc b => acc * 256 + b.toNat) 0

/-- `bitlen(n)`: the number of bits in the binary numeral of `n`, 0 for 0 (R10). -/
def bitlen (n : Nat) : Nat := if n = 0 then 0 else n.log2 + 1

/-- `k(n) = ceil(bitlen(n) / 8)`: the byte length of `n`, 0 for 0 (R10). -/
def byteLen (n : Nat) : Nat := (bitlen n + 7) / 8

/-- `a XOR b` on two byte strings of the same length (R8). -/
def xorBytes (a b : Bytes) : Bytes := List.zipWith (· ^^^ ·) a b

end Sys2Proof.Machine
end

