-- ==== Sys2Proof/Config.lean ====
section
/-! DEFINITION. What an implementation fixes: the constants of `00_scope.md` R6, the open parameters of
R7 (held in `State` as plain data that no step changes, so that a statement holds for every choice), and
the free values: the answers of the randomness source (`60_exceptions.md` R261), and the bytes of an OAEP
mask longer than the spec defines one. -/

namespace Sys2Proof

/-- `HLEN`, the digest length in bytes (R6). -/
def Config.hLen : Nat := 32

/-- `SEED_LEN`, the OAEP seed length in bytes (R6). -/
def Config.seedLen : Nat := 32

/-- `E_FIXED`, the public exponent key generation writes (R6). -/
def Config.eFixed : Nat := 65537

/-- `MR_ROUNDS_DEFAULT` (R6): the reset value of `ROUNDS`, and the rounds of every generated prime. -/
def Config.mrRounds : Nat := 40

/-- `MGF1_MAX` = 2^32 · 32, the largest mask length MGF1 accepts (R6, R131). -/
def Config.mgf1Max : Nat := 2 ^ 32 * 32

/-- The OAEP overhead, 2 · `HLEN` + 2 bytes (R6). -/
def Config.oaepOverhead : Nat := 66

/-- SHA-256 takes fewer than 2^61 bytes (R109). -/
def Config.hashLimit : Nat := 2 ^ 61

/-- The raw answer number `i` of the randomness source: a FREE VALUE, nothing constrains it (R261, U2).
The draw requests bring it into the range of the request (`Machine/Draws.lean`). Log entry 4. -/
opaque Config.freeDraw : Nat → Nat

/-- Byte `i` of the mask of `length` bytes that the OAEP codec takes from `seed`, for a length above
`MGF1_MAX`: a FREE VALUE. R130 defines no such mask, and R252 says that the codec raises no `MaskTooLong`.
It depends on the seed and the length alone, as every mask does (R133). Log entry 8, DESIGN CHOICE. -/
opaque Config.freeMaskByte : List (BitVec 8) → Nat → Nat → BitVec 8

/-- The parameters the spec leaves to the implementation (R7, `92_eei_decisions.md`, open parameters).
`BUS_BINDING` has no field: host accesses move whole values (R64, R66). -/
structure Params where
  /-- `SUPPORTED_BITS`, the sizes `GENKEY` accepts (R197). -/
  supportedBits : List Nat
  /-- `MAX_INT_BITS`, the largest bit length an integer register holds; `none` is unbounded (R22). -/
  maxIntBits : Option Nat
  /-- `MAX_BUF_BYTES`, the largest length of a byte buffer; `none` is unbounded (R22). -/
  maxBufBytes : Option Nat
  /-- The override of `MONT_RBITS`: pairs of a modulus and its radix exponent. A modulus without a pair has
  the decided value 8 · k(m) (R7, R143, U21). Log entry 2. -/
  montRbits : List (Nat × Nat)
deriving DecidableEq, Repr

/-- The defaults of R7. -/
def Params.default : Params :=
  { supportedBits := [1024, 2048, 3072, 4096], maxIntBits := none, maxBufBytes := none, montRbits := [] }

end Sys2Proof
end

