-- ==== Sys2Proof/Machine/Regs.lean ====
section
/-! DEFINITION. The register index space (`10_state.md` R21, `20_memory.md` R67): the names, indices,
types and host access rights of the registers, and the six host access primitives (R60). This is the
engine's only address space: it has no memory (R65, R68, R73). -/

namespace Sys2Proof.Machine

/-- The registers of R21's table, in its order. -/
inductive Reg where
  | cmd | status | errinfoExp | errinfoAct | arg | rounds
  | kn | ke | kd | kp | kq
  | opa | opb | opm
  | res0 | res1 | res2
  | msg | lbl | out | hacc
deriving DecidableEq, Repr

/-- The type column of R21. -/
inductive RegKind where
  | word | natural | signed | bytes
deriving DecidableEq, Repr

/-- Every register, in R21's order. -/
def Reg.all : List Reg :=
  [.cmd, .status, .errinfoExp, .errinfoAct, .arg, .rounds, .kn, .ke, .kd, .kp, .kq] ++
  [.opa, .opb, .opm, .res0, .res1, .res2, .msg, .lbl, .out, .hacc]

/-- The index column of R21. -/
def Reg.index : Reg → BitVec 8
  | .cmd => 0x00
  | .status => 0x01
  | .errinfoExp => 0x02
  | .errinfoAct => 0x03
  | .arg => 0x04
  | .rounds => 0x05
  | .kn => 0x10
  | .ke => 0x11
  | .kd => 0x12
  | .kp => 0x13
  | .kq => 0x14
  | .opa => 0x18
  | .opb => 0x19
  | .opm => 0x1A
  | .res0 => 0x1C
  | .res1 => 0x1D
  | .res2 => 0x1E
  | .msg => 0x20
  | .lbl => 0x21
  | .out => 0x22
  | .hacc => 0x23

/-- The register an index names; `none` for a reserved index (R67). -/
def Reg.ofIndex (i : BitVec 8) : Option Reg := Reg.all.find? (fun r => r.index == i)

/-- The type column of R21. -/
def Reg.kind : Reg → RegKind
  | .cmd | .status => .word
  | .res1 | .res2 => .signed
  | .msg | .lbl | .out | .hacc => .bytes
  | _ => .natural

/-- The "host read" column of R21. -/
def Reg.hostReads : Reg → Bool
  | .cmd | .hacc => false
  | _ => true

/-- The "host write" column of R21. -/
def Reg.hostWrites : Reg → Bool
  | .cmd | .arg | .rounds | .kn | .ke | .kd | .kp | .kq | .opa | .opb | .opm | .msg | .lbl => true
  | _ => false

/-- The register an integer write may name: `ARG ROUNDS KN KE KD KP KQ OPA OPB OPM` (R60). -/
def Reg.intWritable (r : Reg) : Bool := r.kind == .natural && r.hostWrites

/-- The register an integer read may name: the integer registers with host read "yes" (R60). -/
def Reg.intReadable (r : Reg) : Bool :=
  (r.kind == .natural || r.kind == .signed) && r.hostReads

/-- The buffers a byte-string write may name: `MSG LBL` (R60). -/
def Reg.bufWritable (r : Reg) : Bool := r.kind == .bytes && r.hostWrites

/-- The buffers a byte-string read may name: `MSG LBL OUT` (R60). -/
def Reg.bufReadable (r : Reg) : Bool := r.kind == .bytes && r.hostReads

/-- The six host access primitives of R60. Registers are named by their 8-bit index (R67). -/
inductive HostAction where
  /-- `HostWriteInt(r, v)`; a negative `v` is refused (R61). -/
  | writeInt (index : BitVec 8) (v : Int)
  /-- `HostReadInt(r)`. -/
  | readInt (index : BitVec 8)
  /-- `HostWriteBuf(b, s)`. -/
  | writeBuf (index : BitVec 8) (s : Bytes)
  /-- `HostReadBuf(b)`. -/
  | readBuf (index : BitVec 8)
  /-- `HostReadStatus()`. -/
  | readStatus
  /-- `HostWriteCmd(w)`: issues a command. -/
  | writeCmd (w : Word)
deriving DecidableEq, Repr

/-- What a host read returns, and the content of a register: an integer, a byte string or a word. -/
inductive HostValue where
  | int (v : Int)
  | bytes (s : Bytes)
  | word (w : Word)
deriving DecidableEq, Repr

end Sys2Proof.Machine
end

