-- ==== Sys2Proof/Machine/State.lean ====
section
/-! DEFINITION. The state (`10_state.md` R20): `Engine` is the spec's `EngineState`, every field of it; the
other fields of `State` are the inputs and parameters of a step that R41 keeps out of `EngineState` (what
the outside does next, the answers of the randomness source, the open parameters) and the host's view of
what its reads returned. All of it is plain data. -/

namespace Sys2Proof.Machine

/-- `LATCH` (R40): the command accepted at issue with the values of its source registers, one
constructor per command in R83's operand order, and the progress of the two commands whose issue and
completion the spec demands to be kept apart (R88): the candidate drawn and not yet tested, and the
first prime while the second is searched. The rest of R40's private progress lives inside one engine
step, as R88 allows (log entry 6). -/
inductive Latch where
  | hash (msg : Bytes)
  | hInit
  | hUpdate (msg hacc : Bytes)
  | hDigest (hacc : Bytes)
  | hHexdigest (hacc : Bytes)
  | mgf1 (seed : Bytes) (length : Nat)
  | montmul (a b m : Nat)
  | modexp (b e m : Nat)
  | egcd (a b : Nat)
  | modinv (e phi : Nat)
  | isprime (n rounds : Nat)
  | genprime (bits : Nat) (candidate : Option Nat)
  | genkey (bits : Nat) (p candidate : Option Nat)
  | oaepEnc (msg lbl : Bytes) (n e : Nat)
  | oaepDec (msg lbl : Bytes) (n d : Nat)
deriving DecidableEq, Repr

/-- `EngineState` of R20. A register of type "… or ⊥" is an `Option`, `none` being the spec's own value ⊥
(R23, R281). -/
structure Engine where
  /-- `STATUS.BUSY` (R24, R25). -/
  busy : Bool
  /-- `STATUS.PRIME` (R24, R26). -/
  prime : Bool
  /-- `STATUS.ERR`, an 8-bit code (R24, R27, R251). -/
  err : BitVec 8
  /-- `ERRINFO_EXP` (R28). -/
  errinfoExp : Nat
  /-- `ERRINFO_ACT` (R28). -/
  errinfoAct : Nat
  /-- `ARG` (R30). -/
  arg : Option Nat
  /-- `ROUNDS` (R31). -/
  rounds : Nat
  /-- `KN` (R32). -/
  kn : Option Nat
  /-- `KE` (R32). -/
  ke : Option Nat
  /-- `KD` (R32). -/
  kd : Option Nat
  /-- `KP` (R32). -/
  kp : Option Nat
  /-- `KQ` (R32). -/
  kq : Option Nat
  /-- `OPA` (R33). -/
  opa : Option Nat
  /-- `OPB` (R33). -/
  opb : Option Nat
  /-- `OPM` (R33). -/
  opm : Option Nat
  /-- `RES0` (R34). -/
  res0 : Option Nat
  /-- `RES1`, signed (R34). -/
  res1 : Option Int
  /-- `RES2`, signed (R34). -/
  res2 : Option Int
  /-- `MSG` (R35). -/
  msg : Option Bytes
  /-- `LBL` (R36). -/
  lbl : Bytes
  /-- `OUT` (R37). -/
  out : Option Bytes
  /-- `HACC` (R38). -/
  hacc : Bytes
  /-- `LATCH` (R40); `none` is "nothing latched". -/
  latch : Option Latch
deriving DecidableEq, Repr

/-- The reset values of R55. -/
def Engine.reset : Engine :=
  { busy := false, prime := false, err := 0, errinfoExp := 0, errinfoAct := 0
    arg := none, rounds := Config.mrRounds
    kn := none, ke := none, kd := none, kp := none, kq := none
    opa := none, opb := none, opm := none
    res0 := none, res1 := none, res2 := none
    msg := none, lbl := [], out := none, hacc := [], latch := none }

/-- What the outside makes happen next. The order of these events is the single total order of steps of
R69; it is an input of the machine, not engine state (R41). -/
inductive Event where
  /-- One host primitive (R60). -/
  | host (a : HostAction)
  /-- The engine takes its next step while the host does nothing (R69). -/
  | engine
  /-- The reset event (R280). -/
  | reset
  /-- The host's `WAIT`: `HostReadStatus` repeated until `BUSY` reads 0 (R90). How far the engine gets between
  two of its polls is the model's choice, log entry 16. -/
  | wait
  /-- The host's `ERR?` (R90) with the branch the sequences of R240 take on it: if the code read is not 0, the
  host leaves out its next `skip` events. Log entry 17. -/
  | errCheck (skip : Nat)
  /-- `.draws`: fixes the answers of the randomness source that the next command consumes (R89). -/
  | answers (xs : List Nat)
deriving DecidableEq, Repr

/-- The randomness source as the engine sees it (R261): the raw answers fixed for the command in progress and not
yet consumed, and after these the free values `Config.freeDraw count`, `Config.freeDraw (count + 1)`, … Log
entry 4. -/
structure Rng where
  queue : List Nat
  count : Nat
deriving DecidableEq, Repr

/-- The whole state. -/
structure State where
  /-- `EngineState` (R20). -/
  engine : Engine
  /-- The open parameters of R7; no step changes them. -/
  params : Params
  /-- What happens next, oldest first (R41, R69). The model's own field, log entry 3. -/
  agenda : List Event
  /-- The randomness source (R261). The model's own field, log entry 4. -/
  rng : Rng
  /-- The answers a `.draws` line has fixed for the next command (R89). The model's own field, log entries 4
  and 15. -/
  nextAnswers : List Nat
  /-- What the host's reads returned, newest first (R60). The model's own field, log entry 5. -/
  reads : List HostValue
deriving DecidableEq, Repr

/-- The machine right after reset (R55, R280), with the default parameters (R7), nothing yet asked of it,
no answer fixed for the randomness source and nothing read. -/
def State.reset : State :=
  { engine := Engine.reset, params := Params.default, agenda := [], rng := ⟨[], 0⟩, nextAnswers := [], reads := [] }

/-- Why the machine can be stuck. The spec's errors are no faults: they are results the engine reports
(R250, R263). -/
inductive Fault where
  /-- `BUSY` = 1 with nothing latched: a state R25 and R85 never make, so the spec gives it no next step.
  Raised by the engine's step. Safe: the machine stops. -/
  | latchLost
deriving DecidableEq, Repr

/-- The class "refuse" of R263: the spec gives the situation no meaning and the model stops. Every one is
safe: nothing can be proved about what follows. -/
inductive Refusal where
  /-- A command with no meaning yet; raised by an arm of `exec` only. -/
  | notModelled (mnemonic : String)
  /-- A register that holds ⊥ was read by the host or is a source of the command (R23, R61, R84, R281). -/
  | noValue (r : Reg)
  /-- A host access other than a `STATUS` read while `BUSY` = 1 (R62). -/
  | engineBusy
  /-- A host access to a reserved index (R21, R61, R67). -/
  | reservedIndex (index : BitVec 8)
  /-- A host write to a register R21 gives no host write (R61). -/
  | notWritable (r : Reg)
  /-- A host read of a register R21 gives no host read (R61). -/
  | notReadable (r : Reg)
  /-- An integer primitive on a byte buffer or the reverse, or either on `CMD` or `STATUS` (R61). -/
  | wrongKind (r : Reg)
  /-- `HostWriteInt` with a negative value (R61). -/
  | negativeWrite (r : Reg)
  /-- A host write that exceeds `MAX_INT_BITS` or `MAX_BUF_BYTES` (R22, U16). -/
  | writeTooLarge (r : Reg)
  /-- A command result, or an error's context, that exceeds `MAX_INT_BITS` or `MAX_BUF_BYTES` (R22, R112, R132,
  U16; log entries 9 and 11). -/
  | resultTooLarge
  /-- A command that would hash 2^61 bytes or more (R109, U5). -/
  | hashInputTooLong
  /-- `MODEXP` with `OPM = 0` (R145, U8). -/
  | modexpZeroModulus
  /-- `MODINV` with `OPM = 0` (R150, U8). -/
  | modinvZeroModulus
  /-- `MONTMUL` with `OPM` even, or `OPA ≥ OPM`, or `OPB ≥ OPM` (R146, U9). -/
  | montmulOperands
  /-- `GENPRIME` with `ARG = 0` (R174, U11). -/
  | genprimeZeroBits
  /-- `GENKEY` with `ARG` outside `SUPPORTED_BITS` (R197, U10). -/
  | unsupportedBits
  /-- `OAEP_DEC` with `k(KN) < 66` (R210, U4). -/
  | oaepSmallModulus
deriving DecidableEq, Repr

end Sys2Proof.Machine
end

