-- ==== Sys2Proof/Machine/Flags.lean ====
section
/-! DEFINITION. The `STATUS` word and the error codes (`10_state.md` R24, `60_exceptions.md` R251). The one
flag, `STATUS.PRIME`, is computed by `ISPRIME` alone (R26, `Machine/Primes.lean`). -/

namespace Sys2Proof.Machine

/-- The error names: the source's taxonomy in its order, and `IllegalCommand` (R251). -/
inductive Err where
  | maskTooLong
  | noInverse
  | invalidKeyFormat
  | messageTooLong
  | invalidCiphertextLength
  | invalidPadding
  | invalidLabelHash
  | truncatedBlock
  | generationFailure
  | ioFailure
  | illegalCommand
deriving DecidableEq, Repr

/-- The codes of R251; success is 0. -/
def Err.code : Err → BitVec 8
  | .maskTooLong => 0x01
  | .noInverse => 0x02
  | .invalidKeyFormat => 0x03
  | .messageTooLong => 0x04
  | .invalidCiphertextLength => 0x05
  | .invalidPadding => 0x06
  | .invalidLabelHash => 0x07
  | .truncatedBlock => 0x08
  | .generationFailure => 0x09
  | .ioFailure => 0x0A
  | .illegalCommand => 0x80

/-- The value of the `ERR` field after a success (R251). -/
def successCode : BitVec 8 := 0x00

/-- The `STATUS` word of R24: `BUSY` in bit 0, `PRIME` in bit 1, `ERR` in bits 15:8, the rest 0. -/
def statusWord (e : Engine) : Word :=
  (0 : BitVec 16) ++ e.err ++ (0 : BitVec 6) ++ BitVec.ofBool e.prime ++ BitVec.ofBool e.busy

/-- Bit 0 of a `STATUS` word, what `WAIT` looks at (R90). -/
def statusBusy (w : Word) : Bool := w.getLsbD 0

/-- Bits 15:8 of a `STATUS` word, what `ERR?` takes (R90). -/
def statusErr (w : Word) : BitVec 8 := w.extractLsb' 8 8

end Sys2Proof.Machine
end

