-- ==== Sys2Proof/Machine/Operands.lean ====
section
/-! DEFINITION. The operands (`30_encoding.md` R83, R84): the source and destination registers of every
command, and what the issue of each command latches or refuses (R85 with the "Refused if" of the
command's own rule). No command has an operand field. -/

namespace Sys2Proof.Machine

/-- The "sources" column of R83. -/
def sources : Instr → List Reg
  | .hash => [.msg]
  | .hInit => []
  | .hUpdate => [.msg, .hacc]
  | .hDigest => [.hacc]
  | .hHexdigest => [.hacc]
  | .mgf1 => [.msg, .arg]
  | .montmul => [.opa, .opb, .opm]
  | .modexp => [.opa, .opb, .opm]
  | .egcd => [.opa, .opb]
  | .modinv => [.opa, .opm]
  | .isprime => [.opa, .rounds]
  | .genprime => [.arg]
  | .genkey => [.arg]
  | .oaepEnc => [.msg, .lbl, .kn, .ke]
  | .oaepDec => [.msg, .lbl, .kn, .kd]

/-- The "destinations" column of R83. `STATUS.ERR` and the two `ERRINFO` registers are destinations of
every command and not repeated; `STATUS.PRIME` stands for itself as `status`. -/
def destinations : Instr → List Reg
  | .hash | .hDigest | .hHexdigest | .mgf1 | .oaepEnc | .oaepDec => [.out]
  | .hInit | .hUpdate => [.hacc]
  | .montmul | .modexp | .modinv | .genprime => [.res0]
  | .egcd => [.res0, .res1, .res2]
  | .isprime => [.status]
  | .genkey => [.kn, .ke, .kd, .kp, .kq]

/-- A source register must hold a value, else the issue is refused (R84, R85, R23; the class "refuse" of R263). ⊥ is
the reset value R55 gives the register, or what a failed command left in it (R255). -/
def need {α : Type} (r : Reg) : Option α → Except Refusal α
  | some v => .ok v
  | none => .error (.noValue r)

/-- A condition whose failure is a "refuse" case of the command's rule. -/
def require (ok : Bool) (r : Refusal) : Except Refusal Unit := if ok then .ok () else .error r

/-- Does an integer fit `MAX_INT_BITS`? (R7, R22) R10 gives a natural its bit length and the spec gives a negative
integer none: of the signed registers `RES1` and `RES2` the model measures the absolute value, with no bit
for the sign (DESIGN CHOICE, log entry 14). -/
def fitsInt (p : Params) (v : Int) : Bool := (p.maxIntBits.map (fun b => decide (bitlen v.natAbs ≤ b))).getD true

/-- Does a byte length fit `MAX_BUF_BYTES`? (R22) -/
def fitsBuf (p : Params) (n : Nat) : Bool := (p.maxBufBytes.map (fun b => decide (n ≤ b))).getD true

/-- Is a size a member of `SUPPORTED_BITS`, a set of even naturals ≥ 4? (R197) -/
def supportsBits (p : Params) (bits : Nat) : Bool :=
  p.supportedBits.contains bits && bits % 2 == 0 && decide (4 ≤ bits)

/-- `HASH` (R110). -/
def latchHash (e : Engine) : Except Refusal Latch := do
  let m ← need .msg e.msg
  require (m.length < Config.hashLimit) .hashInputTooLong
  pure (.hash m)

/-- `H_INIT` (R111): no source. -/
def latchHInit : Except Refusal Latch := pure .hInit

/-- `H_UPDATE` (R112). -/
def latchHUpdate (p : Params) (e : Engine) : Except Refusal Latch := do
  let m ← need .msg e.msg
  require (fitsBuf p (e.hacc.length + m.length)) .resultTooLarge
  pure (.hUpdate m e.hacc)

/-- `H_DIGEST` (R113, and R109 for the bound). -/
def latchHDigest (e : Engine) : Except Refusal Latch := do
  require (e.hacc.length < Config.hashLimit) .hashInputTooLong
  pure (.hDigest e.hacc)

/-- `H_HEXDIGEST` (R114, and R109 for the bound). -/
def latchHHexdigest (e : Engine) : Except Refusal Latch := do
  require (e.hacc.length < Config.hashLimit) .hashInputTooLong
  pure (.hHexdigest e.hacc)

/-- `MGF1` (R132). A length above 2^37 is no refusal: it is the error `MaskTooLong`. -/
def latchMgf1 (p : Params) (e : Engine) : Except Refusal Latch := do
  let seed ← need .msg e.msg
  let length ← need .arg e.arg
  require (Config.mgf1Max < length || fitsBuf p length) .resultTooLarge
  require (seed.length + 4 < Config.hashLimit) .hashInputTooLong
  pure (.mgf1 seed length)

/-- `MONTMUL` (R146). -/
def latchMontmul (e : Engine) : Except Refusal Latch := do
  let a ← need .opa e.opa
  let b ← need .opb e.opb
  let m ← need .opm e.opm
  require (m % 2 == 1 && decide (a < m) && decide (b < m)) .montmulOperands
  pure (.montmul a b m)

/-- `MODEXP` (R145). -/
def latchModexp (e : Engine) : Except Refusal Latch := do
  let b ← need .opa e.opa
  let x ← need .opb e.opb
  let m ← need .opm e.opm
  require (m != 0) .modexpZeroModulus
  pure (.modexp b x m)

/-- `EGCD` (R148). -/
def latchEgcd (e : Engine) : Except Refusal Latch := do
  let a ← need .opa e.opa
  let b ← need .opb e.opb
  pure (.egcd a b)

/-- `MODINV` (R150). -/
def latchModinv (e : Engine) : Except Refusal Latch := do
  let a ← need .opa e.opa
  let m ← need .opm e.opm
  require (m != 0) .modinvZeroModulus
  pure (.modinv a m)

/-- `ISPRIME` (R172). -/
def latchIsprime (e : Engine) : Except Refusal Latch := do
  let n ← need .opa e.opa
  pure (.isprime n e.rounds)

/-- `GENPRIME` (R174). -/
def latchGenprime (e : Engine) : Except Refusal Latch := do
  let bits ← need .arg e.arg
  require (bits != 0) .genprimeZeroBits
  pure (.genprime bits none)

/-- `GENKEY` (R191, R197). -/
def latchGenkey (p : Params) (e : Engine) : Except Refusal Latch := do
  let bits ← need .arg e.arg
  require (supportsBits p bits) .unsupportedBits
  pure (.genkey bits none none)

/-- `OAEP_ENC` (R202). -/
def latchOaepEnc (e : Engine) : Except Refusal Latch := do
  let m ← need .msg e.msg
  let n ← need .kn e.kn
  let x ← need .ke e.ke
  require (e.lbl.length < Config.hashLimit) .hashInputTooLong
  pure (.oaepEnc m e.lbl n x)

/-- `OAEP_DEC` (R205, R210). -/
def latchOaepDec (e : Engine) : Except Refusal Latch := do
  let c ← need .msg e.msg
  let n ← need .kn e.kn
  let d ← need .kd e.kd
  require (Config.oaepOverhead ≤ byteLen n) .oaepSmallModulus
  require (e.lbl.length < Config.hashLimit) .hashInputTooLong
  pure (.oaepDec c e.lbl n d)

end Sys2Proof.Machine
end

