-- ==== Sys2Proof/Machine/Ops.lean ====
section
/-! DEFINITION. The operations every command shares: register accessors, issue (`30_encoding.md` R85),
completion on success (R87), error entry (`60_exceptions.md` R255), an illegal command word (R86) and
the reset event (`70_reset_and_hazards.md` R280). Error entry is this engine's only "exception": nothing
is saved, no handler runs, and there is no return from it (R250, R257, R264). -/

namespace Sys2Proof.Machine

/-- What a step of the machine ends in. -/
abbrev Out := Host.Outcome State Fault Refusal

/-- The content of a register; `none` is ⊥ (R23), and `CMD`, which stores nothing (R29). -/
def Engine.content (e : Engine) : Reg → Option HostValue
  | .cmd => none
  | .status => some (.word (statusWord e))
  | .errinfoExp => some (.int e.errinfoExp)
  | .errinfoAct => some (.int e.errinfoAct)
  | .arg => e.arg.map (fun n => .int n)
  | .rounds => some (.int e.rounds)
  | .kn => e.kn.map (fun n => .int n)
  | .ke => e.ke.map (fun n => .int n)
  | .kd => e.kd.map (fun n => .int n)
  | .kp => e.kp.map (fun n => .int n)
  | .kq => e.kq.map (fun n => .int n)
  | .opa => e.opa.map (fun n => .int n)
  | .opb => e.opb.map (fun n => .int n)
  | .opm => e.opm.map (fun n => .int n)
  | .res0 => e.res0.map (fun n => .int n)
  | .res1 => e.res1.map .int
  | .res2 => e.res2.map .int
  | .msg => e.msg.map .bytes
  | .lbl => some (.bytes e.lbl)
  | .out => e.out.map .bytes
  | .hacc => some (.bytes e.hacc)

/-- `r <- n` for the registers `HostWriteInt` may name (R60); the others have no such write. -/
def Engine.setInt (e : Engine) (r : Reg) (n : Nat) : Engine :=
  match r with
  | .arg => { e with arg := some n }
  | .rounds => { e with rounds := n }
  | .kn => { e with kn := some n }
  | .ke => { e with ke := some n }
  | .kd => { e with kd := some n }
  | .kp => { e with kp := some n }
  | .kq => { e with kq := some n }
  | .opa => { e with opa := some n }
  | .opb => { e with opb := some n }
  | .opm => { e with opm := some n }
  | _ => e

/-- `b <- s` for the buffers `HostWriteBuf` may name (R60); the others have no such write. -/
def Engine.setBuf (e : Engine) (r : Reg) (s : Bytes) : Engine :=
  match r with
  | .msg => { e with msg := some s }
  | .lbl => { e with lbl := s }
  | _ => e

/-- The register becomes ⊥ (R255). The registers that are never ⊥ are destinations of no command that
can fail (R252). -/
def Engine.clear (e : Engine) (r : Reg) : Engine :=
  match r with
  | .kn => { e with kn := none }
  | .ke => { e with ke := none }
  | .kd => { e with kd := none }
  | .kp => { e with kp := none }
  | .kq => { e with kq := none }
  | .res0 => { e with res0 := none }
  | .res1 => { e with res1 := none }
  | .res2 => { e with res2 := none }
  | .out => { e with out := none }
  | _ => e

/-- The end of a command: the result code and its context are written, `LATCH` is discarded and `BUSY`
cleared (R87, R255). -/
def Engine.finish (e : Engine) (code : BitVec 8) (exp act : Nat) : Engine :=
  { e with err := code, errinfoExp := exp, errinfoAct := act, latch := none, busy := false }

/-- The values a successful command writes to its destinations (R83). -/
inductive Result where
  | out (s : Bytes)
  | hacc (s : Bytes)
  | res0 (n : Nat)
  | bezout (g : Nat) (x y : Int)
  | prime (b : Bool)
  | key (n e d p q : Nat)
deriving DecidableEq, Repr

/-- The destinations written together (R87). -/
def Result.write (r : Result) (e : Engine) : Engine :=
  match r with
  | .out s => { e with out := some s }
  | .hacc s => { e with hacc := s }
  | .res0 n => { e with res0 := some n }
  | .bezout g x y => { e with res0 := some g, res1 := some x, res2 := some y }
  | .prime b => { e with prime := b }
  | .key n x d p q => { e with kn := some n, ke := some x, kd := some d, kp := some p, kq := some q }

/-- A result that does not fit its register is refused, never truncated (R22, R140). -/
def Result.fits (p : Params) : Result → Bool
  | .out s => fitsBuf p s.length
  | .hacc s => fitsBuf p s.length
  | .res0 n => fitsInt p n
  | .bezout g x y => fitsInt p g && fitsInt p x && fitsInt p y
  | .prime _ => true
  | .key n x d q r => fitsInt p n && fitsInt p x && fitsInt p d && fitsInt p q && fitsInt p r

/-- How an operation ends without a result: `raise E(exp, act)` (R13). -/
inductive Stop where
  | raise (e : Err) (exp act : Nat)
deriving DecidableEq, Repr

/-- The state after the issue of an accepted command: `LATCH` and `BUSY` are written and nothing else (R85). -/
def State.accept (s : State) (l : Latch) : State :=
  { s with engine := { s.engine with busy := true, latch := some l } }

/-- The state after a success: the destinations, the success code and its zero context, `LATCH` and `BUSY`
(R87). -/
def State.succeed (s : State) (r : Result) : State :=
  { s with engine := (r.write s.engine).finish successCode 0 0 }

/-- Issue (R85): a refused operand stops the model. -/
def issue (l : Except Refusal Latch) (s : State) : Out :=
  match l with
  | .error r => .refused r
  | .ok l => .next (s.accept l)

/-- Completion on success (R87), in one atomic step. -/
def complete (r : Result) (s : State) : Out :=
  if r.fits s.params then .next (s.succeed r) else .refused .resultTooLarge

/-- Error entry (R255): the code and its context are written, every destination of the command becomes ⊥
and the engine is idle. Everything else keeps its content. -/
def errorEntry (i : Instr) (e : Err) (exp act : Nat) (s : State) : State :=
  { s with engine := ((destinations i).foldl Engine.clear s.engine).finish e.code exp act }

/-- Completion on failure (R255). A context that does not fit its registers is refused, never truncated (R22,
U16; log entry 9). -/
def fail (i : Instr) (e : Err) (exp act : Nat) (s : State) : Out :=
  if fitsInt s.params exp && fitsInt s.params act then .next (errorEntry i e exp act s)
  else .refused .resultTooLarge

/-- The end of command `i`'s operation (R87, R255). -/
def conclude (i : Instr) (r : Except Stop Result) (s : State) : Out :=
  match r with
  | .ok v => complete v s
  | .error (.raise e exp act) => fail i e exp act s

/-- A word that is no command (R86): `ERR <- 0x80`, the context zeroed, nothing else. -/
def illegalCommand (s : State) : State :=
  { s with engine := { s.engine with err := Err.illegalCommand.code, errinfoExp := 0, errinfoAct := 0 } }

/-- The reset event (R280, R282): every field of `EngineState` takes its value of R55. What is outside the
engine is not reset. -/
def applyReset (s : State) : State := { s with engine := Engine.reset }

/-- The frame of every command's meaning. On an idle engine the command is issued (R85); on an engine that
is busy with it, the engine takes the next step of its operation (`advance` of the latched operands);
a second command on a busy engine is refused (R62). -/
def runCommand (l : Except Refusal Latch) (advance : Latch → Option Out) (s : State) : Out :=
  if s.engine.busy then
    match s.engine.latch with
    | none => .fault .latchLost
    | some x => (advance x).getD (.refused .engineBusy)
  else issue l s

/-- The command a latch holds (R40). -/
def Latch.instr : Latch → Instr
  | .hash _ => .hash
  | .hInit => .hInit
  | .hUpdate _ _ => .hUpdate
  | .hDigest _ => .hDigest
  | .hHexdigest _ => .hHexdigest
  | .mgf1 _ _ => .mgf1
  | .montmul _ _ _ => .montmul
  | .modexp _ _ _ => .modexp
  | .egcd _ _ => .egcd
  | .modinv _ _ => .modinv
  | .isprime _ _ => .isprime
  | .genprime _ _ => .genprime
  | .genkey _ _ _ => .genkey
  | .oaepEnc _ _ _ _ => .oaepEnc
  | .oaepDec _ _ _ _ => .oaepDec

/-- Replace the latch of a running command (private progress, R40). -/
def State.progress (s : State) (l : Latch) : State := { s with engine := { s.engine with latch := some l } }

/-- The randomness source after a command's draws. -/
def State.withRng (s : State) (g : Rng) : State := { s with rng := g }

end Sys2Proof.Machine
end

