-- ==== Sys2Proof/Machine/Sha256.lean ====
section
/-! DEFINITION. SHA-256 (`40_hash.md` R100 to R109), the one hash function of the block: MGF1 and OAEP use
this definition and no other (R2, R109). -/

namespace Sys2Proof.Machine

/-- The round constants `K_0` to `K_63` of R103. -/
def kTable : List Word :=
  [0x428a2f98, 0x71374491, 0xb5c0fbcf, 0xe9b5dba5, 0x3956c25b, 0x59f111f1, 0x923f82a4, 0xab1c5ed5] ++
  [0xd807aa98, 0x12835b01, 0x243185be, 0x550c7dc3, 0x72be5d74, 0x80deb1fe, 0x9bdc06a7, 0xc19bf174] ++
  [0xe49b69c1, 0xefbe4786, 0x0fc19dc6, 0x240ca1cc, 0x2de92c6f, 0x4a7484aa, 0x5cb0a9dc, 0x76f988da] ++
  [0x983e5152, 0xa831c66d, 0xb00327c8, 0xbf597fc7, 0xc6e00bf3, 0xd5a79147, 0x06ca6351, 0x14292967] ++
  [0x27b70a85, 0x2e1b2138, 0x4d2c6dfc, 0x53380d13, 0x650a7354, 0x766a0abb, 0x81c2c92e, 0x92722c85] ++
  [0xa2bfe8a1, 0xa81a664b, 0xc24b8b70, 0xc76c51a3, 0xd192e819, 0xd6990624, 0xf40e3585, 0x106aa070] ++
  [0x19a4c116, 0x1e376c08, 0x2748774c, 0x34b0bcb5, 0x391c0cb3, 0x4ed8aa4a, 0x5b9cca4f, 0x682e6ff3] ++
  [0x748f82ee, 0x78a5636f, 0x84c87814, 0x8cc70208, 0x90befffa, 0xa4506ceb, 0xbef9a3f7, 0xc67178f2]

/-- Eight words: a chaining value `H0..H7`, or the working variables `a..h` of R106. -/
structure Chain where
  (a b c d e f g h : Word)
deriving DecidableEq, Repr

/-- The initial hash value (R102). -/
def initialHash : Chain :=
  ⟨0x6a09e667, 0xbb67ae85, 0x3c6ef372, 0xa54ff53a, 0x510e527f, 0x9b05688c, 0x1f83d9ab, 0x5be0cd19⟩

/-- `ROTR(x, n)` for 0 < n < 32 (R11). -/
def rotr (x : Word) (n : Nat) : Word := (x >>> n) ||| (x <<< (32 - n))

/-- `Ch` (R104). -/
def chooseBits (x y z : Word) : Word := (x &&& y) ^^^ (~~~x &&& z)

/-- `Maj` (R104). -/
def majority (x y z : Word) : Word := (x &&& y) ^^^ (x &&& z) ^^^ (y &&& z)

/-- `BSIG0` (R104). -/
def bsig0 (x : Word) : Word := rotr x 2 ^^^ rotr x 13 ^^^ rotr x 22

/-- `BSIG1` (R104). -/
def bsig1 (x : Word) : Word := rotr x 6 ^^^ rotr x 11 ^^^ rotr x 25

/-- `SSIG0` (R104). -/
def ssig0 (x : Word) : Word := rotr x 7 ^^^ rotr x 18 ^^^ (x >>> 3)

/-- `SSIG1` (R104). -/
def ssig1 (x : Word) : Word := rotr x 17 ^^^ rotr x 19 ^^^ (x >>> 10)

/-- The number of zero bytes `z = (55 − L) mod 64` (R100); 119 is 55 + 64, so that no difference is
negative. -/
def padZeros (len : Nat) : Nat := (119 - len % 64) % 64

/-- `Pad(M)` (R100). -/
def padMessage (m : Bytes) : Bytes :=
  m ++ [0x80] ++ List.replicate (padZeros m.length) 0x00 ++ be (8 * m.length) 8

/-- The first `n` pieces of `size` bytes of a string. -/
def pieces (size : Nat) : Nat → Bytes → List Bytes
  | 0, _ => []
  | n + 1, s => s.take size :: pieces size n (s.drop size)

/-- The blocks `B_1 … B_N` of a padded message (R101). -/
def blocks (padded : Bytes) : List Bytes := pieces 64 (padded.length / 64) padded

/-- The sixteen words `M_0 … M_15` of a block, most significant byte first (R101). -/
def blockWords (block : Bytes) : List Word := (pieces 4 16 block).map (fun w => BitVec.ofNat 32 (intOf w))

/-- `n` further words of the message schedule, the newest word at the head of the list (R105). -/
def extendSchedule : Nat → List Word → List Word
  | 0, ws => ws
  | n + 1, ws =>
    extendSchedule n
      ((ssig1 (ws.getD 1 0) + ws.getD 6 0 + ssig0 (ws.getD 14 0) + ws.getD 15 0) :: ws)

/-- The schedule `W_0 … W_63` of a block (R105). -/
def schedule (block : Bytes) : List Word := (extendSchedule 48 (blockWords block).reverse).reverse

/-- One round with its constant and schedule word: a simultaneous update of `a..h` (R106). -/
def hashRound (s : Chain) (kw : Word × Word) : Chain :=
  let t1 := s.h + bsig1 s.e + chooseBits s.e s.f s.g + kw.1 + kw.2
  let t2 := bsig0 s.a + majority s.a s.b s.c
  ⟨t1 + t2, s.a, s.b, s.c, s.d + t1, s.e, s.f, s.g⟩

/-- The sum of two chaining values, word by word modulo 2^32 (R106). -/
def Chain.add (x y : Chain) : Chain :=
  ⟨x.a + y.a, x.b + y.b, x.c + y.c, x.d + y.d, x.e + y.e, x.f + y.f, x.g + y.g, x.h + y.h⟩

/-- `Compress` of one block (R106). -/
def compress (h : Chain) (block : Bytes) : Chain :=
  h.add ((kTable.zip (schedule block)).foldl hashRound h)

/-- The digest of a final hash value (R108). -/
def Chain.digest (c : Chain) : Bytes :=
  [c.a, c.b, c.c, c.d, c.e, c.f, c.g, c.h].flatMap (fun w => be w.toNat 4)

/-- `SHA256(M)` (R107, R109). -/
def sha256 (m : Bytes) : Bytes := ((blocks (padMessage m)).foldl compress initialHash).digest

/-- The ASCII code of a hexadecimal digit, lowercase (R114). -/
def hexDigit (d : Nat) : Byte := if d < 10 then BitVec.ofNat 8 (0x30 + d) else BitVec.ofNat 8 (0x61 + (d - 10))

/-- `hex(D)`: the lowercase hexadecimal text of a byte string, high nibble first (R114). -/
def hexText (s : Bytes) : Bytes := s.flatMap (fun b => [hexDigit (b.toNat / 16), hexDigit (b.toNat % 16)])

end Sys2Proof.Machine
end

