-- ==== Sys2Proof/Machine/Hash.lean ====
section
/-! DEFINITION. The commands of the hash engine: `HASH`, `H_INIT`, `H_UPDATE`, `H_DIGEST`, `H_HEXDIGEST`
(`40_hash.md` R110 to R114). None of them can raise an error (R252). -/

namespace Sys2Proof.Machine

/-- `HASH`: `OUT <- SHA256(MSG)` (R110). -/
def execHash (s : State) : Out :=
  runCommand (latchHash s.engine) (fun l =>
    match l with
    | .hash m => some (complete (.out (sha256 m)) s)
    | _ => none) s

/-- `H_INIT`: `HACC <- ""` (R111). -/
def execHInit (s : State) : Out :=
  runCommand latchHInit (fun l =>
    match l with
    | .hInit => some (complete (.hacc []) s)
    | _ => none) s

/-- `H_UPDATE`: `HACC <- HACC || MSG` (R112). -/
def execHUpdate (s : State) : Out :=
  runCommand (latchHUpdate s.params s.engine) (fun l =>
    match l with
    | .hUpdate m h => some (complete (.hacc (h ++ m)) s)
    | _ => none) s

/-- `H_DIGEST`: `OUT <- SHA256(HACC)`, the accumulator kept (R113). -/
def execHDigest (s : State) : Out :=
  runCommand (latchHDigest s.engine) (fun l =>
    match l with
    | .hDigest h => some (complete (.out (sha256 h)) s)
    | _ => none) s

/-- `H_HEXDIGEST`: `OUT <- hex(SHA256(HACC))`, the accumulator kept (R114). -/
def execHHexdigest (s : State) : Out :=
  runCommand (latchHHexdigest s.engine) (fun l =>
    match l with
    | .hHexdigest h => some (complete (.out (hexText (sha256 h))) s)
    | _ => none) s

end Sys2Proof.Machine
end

