-- ==== Sys2Proof/Machine/Draws.lean ====
section
/-! DEFINITION. The three requests to the randomness source (`00_scope.md` R14, `60_exceptions.md` R261).
Each consumes one raw answer and brings it into the range of the request: an answer that is in range is
taken as it is, so every value of the range can be drawn, and no other. Log entry 4. -/

namespace Sys2Proof.Machine

/-- One raw answer: the next one fixed for the source, or the next free value. -/
def Rng.next (g : Rng) : Nat × Rng :=
  match g.queue with
  | x :: xs => (x, { g with queue := xs })
  | [] => (Config.freeDraw g.count, { g with count := g.count + 1 })

/-- `DrawSeed()`: a byte string of exactly 32 bytes (R261). -/
def drawSeed (g : Rng) : Bytes × Rng := (be (g.next.1 % 256 ^ Config.seedLen) Config.seedLen, g.next.2)

/-- `x` brought into 2 ≤ a ≤ n − 2, for n ≥ 5. -/
def baseInRange (n x : Nat) : Nat := if 2 ≤ x ∧ x ≤ n - 2 then x else 2 + x % (n - 3)

/-- `DrawBase(n)` for odd n ≥ 5: an integer a with 2 ≤ a ≤ n − 2 (R261). -/
def drawBase (n : Nat) (g : Rng) : Nat × Rng := (baseInRange n g.next.1, g.next.2)

/-- `x` cut to `bits` bits, top and bottom bit forced to 1 (R173). -/
def candidateInRange (bits x : Nat) : Nat := (x % 2 ^ bits) ||| 2 ^ (bits - 1) ||| 1

/-- `DrawCandidate(bits)` for bits ≥ 1: an odd integer c with bitlen(c) = bits (R173, R261). -/
def drawCandidate (bits : Nat) (g : Rng) : Nat × Rng := (candidateInRange bits g.next.1, g.next.2)

end Sys2Proof.Machine
end

