-- ==== Sys2Proof/Machine/ModArith.lean ====
section
/-! DEFINITION. The arithmetic unit (`42_modarith.md`): modular exponentiation, the Montgomery multiplier,
the extended Euclidean descent and the modular inverse, with the commands `MODEXP`, `MONTMUL`, `EGCD`,
`MODINV`. All of it is exact arithmetic on integers without a width (R140). -/

namespace Sys2Proof.Machine

/-- `b^e mod m` by halving the exponent, the fuel being a bound on its bit length. -/
def powModFuel (b m : Nat) : Nat → Nat → Nat
  | 0, _ => 1 % m
  | fuel + 1, e =>
    if e = 0 then 1 % m
    else
      let h := powModFuel b m fuel (e / 2)
      if e % 2 = 1 then h * h % m * b % m else h * h % m

/-- `ModExp(b, e, m)`, the natural `(b^e) mod m`, for m ≥ 1 (R141). How it is computed is not
architectural; `Laws/ModArith.lean` proves the value. -/
def modExp (b e m : Nat) : Nat := powModFuel b m (bitlen e) e

/-- The descent of R147; its first argument strictly decreases, and the fuel bounds it. -/
def egcdFuel : Nat → Nat → Nat → Nat × Int × Int
  | 0, _, b => (b, 0, 1)
  | fuel + 1, a, b =>
    if a = 0 then (b, 0, 1)
    else
      let r := egcdFuel fuel (b % a) a
      (r.1, r.2.2 - (b / a : Nat) * r.2.1, r.2.1)

/-- `extendedGcd(a, b) = (g, x, y)` (R147). -/
def egcd (a b : Nat) : Nat × Int × Int := egcdFuel (a + 1) a b

/-- `modInverse(e, phi)` for phi ≥ 1; `none` is `NoInverse` (R149). -/
def modInverse (e phi : Nat) : Option Nat :=
  if (egcd e phi).1 = 1 then some ((egcd e phi).2.1 % (phi : Int)).toNat else none

/-- `MONT_RBITS(m)`: 8 · k(m), or the override of m where it is a valid radix exponent, 2^r > m (R7, R143). -/
def montRBits (p : Params) (m : Nat) : Nat :=
  match p.montRbits.lookup m with
  | some r => if bitlen m ≤ r then r else 8 * byteLen m
  | none => 8 * byteLen m

/-- `Rinv`, the inverse of `R = 2^r` modulo an odd m (R143). -/
def montRInv (r m : Nat) : Nat := ((egcd (2 ^ r) m).2.1 % (m : Int)).toNat

/-- `MontMul(a, b, m) = (a · b · Rinv) mod m` with `R = 2^r` (R143). -/
def montMul (r a b m : Nat) : Nat := a * b * montRInv r m % m

/-- REDC, the division-free evaluation of the same product (R143). -/
def redc (r a b m : Nat) : Nat :=
  let bigR := 2 ^ r
  let mInv := ((egcd m bigR).2.1 % (bigR : Int)).toNat
  let mPrime := (bigR - mInv) % bigR
  let t0 := a * b
  let u := t0 % bigR * mPrime % bigR
  let t := (t0 + u * m) / bigR
  if m ≤ t then t - m else t

/-- The bits of `e`, most significant first. -/
def bitsMsb (e : Nat) : List Bool := (List.range (bitlen e)).reverse.map e.testBit

/-- One iteration of R144's loop: square, and multiply if the bit is 1. -/
def montStep (r bbar m acc : Nat) (bit : Bool) : Nat :=
  let sq := montMul r acc acc m
  if bit then montMul r sq bbar m else sq

/-- `MontExp(b, e, m)`: exponentiation through the multiplier, for odd m (R144). -/
def montExp (r b e m : Nat) : Nat :=
  let r2 := 2 ^ r * 2 ^ r % m
  let bbar := montMul r (b % m) r2 m
  montMul r ((bitsMsb e).foldl (montStep r bbar m) (2 ^ r % m)) 1 m

/-- `MONTMUL`: `RES0 <- MontMul(OPA, OPB, OPM)` (R146). -/
def execMontmul (s : State) : Out :=
  runCommand (latchMontmul s.engine) (fun l =>
    match l with
    | .montmul a b m => some (complete (.res0 (montMul (montRBits s.params m) a b m)) s)
    | _ => none) s

/-- `MODEXP`: `RES0 <- ModExp(OPA, OPB, OPM)` (R145). -/
def execModexp (s : State) : Out :=
  runCommand (latchModexp s.engine) (fun l =>
    match l with
    | .modexp b e m => some (complete (.res0 (modExp b e m)) s)
    | _ => none) s

/-- `EGCD`: `(RES0, RES1, RES2) <- egcd(OPA, OPB)` (R148). -/
def execEgcd (s : State) : Out :=
  runCommand (latchEgcd s.engine) (fun l =>
    match l with
    | .egcd a b => some (complete (.bezout (egcd a b).1 (egcd a b).2.1 (egcd a b).2.2) s)
    | _ => none) s

/-- `MODINV`: `RES0 <- modInverse(OPA, OPM)` (R150). -/
def execModinv (s : State) : Out :=
  runCommand (latchModinv s.engine) (fun l =>
    match l with
    | .modinv e phi =>
      some (match modInverse e phi with
        | some d => complete (.res0 d) s
        | none => fail .modinv .noInverse 0 0 s)
    | _ => none) s

end Sys2Proof.Machine
end

