-- ==== Sys2Proof/Machine/Primes.lean ====
section
/-! DEFINITION. The Miller–Rabin tester and the random prime generator (`43_primes.md`), with the commands
`ISPRIME` and `GENPRIME`. The answers of the randomness source are consumed in the order the pseudocode
makes the requests (R170, R173, R261). -/

namespace Sys2Proof.Machine

/-- `r` and the odd `d` with `x = 2^r · d`, for x ≥ 1; the fuel bounds `r`. -/
def splitPow2 : Nat → Nat → Nat × Nat
  | 0, x => (0, x)
  | fuel + 1, x =>
    if x % 2 = 0 then ((splitPow2 fuel (x / 2)).1 + 1, (splitPow2 fuel (x / 2)).2) else (0, x)

/-- `find r ≥ 1 and odd d with n − 1 = 2^r · d` (R170). -/
def decompose (n : Nat) : Nat × Nat := splitPow2 (bitlen (n - 1)) (n - 1)

/-- The squaring loop of a round: does one of `j` successive squarings give n − 1? (R170) -/
def squaresReach (n : Nat) : Nat → Nat → Bool
  | 0, _ => false
  | j + 1, x => modExp x 2 n == n - 1 || squaresReach n j (modExp x 2 n)

/-- One round with base `a`: does it pass? (R170) -/
def roundPasses (n a : Nat) : Bool :=
  let x := modExp a (decompose n).2 n
  x == 1 || x == n - 1 || squaresReach n ((decompose n).1 - 1) x

/-- `rounds` rounds, one draw each, none after the round that fails (R170). -/
def mrRounds (n : Nat) : Nat → Rng → Bool × Rng
  | 0, g => (true, g)
  | k + 1, g =>
    if roundPasses n (drawBase n g).1 then mrRounds n k (drawBase n g).2 else (false, (drawBase n g).2)

/-- `isPrime(n, rounds)` (R170). -/
def isPrime (n rounds : Nat) (g : Rng) : Bool × Rng :=
  if n ≤ 1 then (false, g)
  else if n = 2 ∨ n = 3 then (true, g)
  else if n % 2 = 0 then (false, g)
  else mrRounds n rounds g

/-- `ISPRIME`: `STATUS.PRIME <- isPrime(OPA, ROUNDS)` (R172). -/
def execIsprime (s : State) : Out :=
  runCommand (latchIsprime s.engine) (fun l =>
    match l with
    | .isprime n rounds =>
      some (complete (.prime (isPrime n rounds s.rng).1) (s.withRng (isPrime n rounds s.rng).2))
    | _ => none) s

/-- `GENPRIME`: `RES0 <- generatePrime(ARG)` (R173, R174). Each iteration of the loop takes two steps of
the engine: the draw of a candidate, and its test with 40 rounds. The loop has no bound (R177). -/
def execGenprime (s : State) : Out :=
  runCommand (latchGenprime s.engine) (fun l =>
    match l with
    | .genprime bits none =>
      some (.next ((s.withRng (drawCandidate bits s.rng).2).progress
        (.genprime bits (some (drawCandidate bits s.rng).1))))
    | .genprime bits (some c) =>
      let t := s.withRng (isPrime c Config.mrRounds s.rng).2
      some (if (isPrime c Config.mrRounds s.rng).1 then complete (.res0 c) t
        else .next (t.progress (.genprime bits none)))
    | _ => none) s

end Sys2Proof.Machine
end

