-- ==== Sys2Proof/Machine/KeyGen.lean ====
section
/-! DEFINITION. The key-pair derivation engine and its command `GENKEY` (`44_keygen.md` R190 to R197). -/

namespace Sys2Proof.Machine

/-- The part of `generateKeyPair` after both primes are found (R190); `NoInverse` carries no context (R253). -/
def deriveKey (p q : Nat) : Except Stop Result :=
  match modInverse Config.eFixed ((p - 1) * (q - 1)) with
  | some d => .ok (.key (p * q) Config.eFixed d p q)
  | none => .error (.raise .noInverse 0 0)

/-- `GENKEY`: `{KN, KE, KD, KP, KQ} <- generateKeyPair(ARG)` (R191). The search for p, then the search for
q, each as in `GENPRIME` with `ARG / 2` bits; no check that p ≠ q and no retry (R190, R194). -/
def execGenkey (s : State) : Out :=
  runCommand (latchGenkey s.params s.engine) (fun l =>
    match l with
    | .genkey bits p none =>
      some (.next ((s.withRng (drawCandidate (bits / 2) s.rng).2).progress
        (.genkey bits p (some (drawCandidate (bits / 2) s.rng).1))))
    | .genkey bits p (some c) =>
      let t := s.withRng (isPrime c Config.mrRounds s.rng).2
      some (if (isPrime c Config.mrRounds s.rng).1 then
          (match p with
          | none => .next (t.progress (.genkey bits (some c) none))
          | some p => conclude .genkey (deriveKey p c) t)
        else .next (t.progress (.genkey bits p none)))
    | _ => none) s

end Sys2Proof.Machine
end

