-- ==== Sys2Proof/Machine/Mgf1.lean ====
section
/-! DEFINITION. The mask generator and its command `MGF1` (`41_mgf1.md` R130 to R132). -/

namespace Sys2Proof.Machine

/-- The mask of R130 without its length check: the digests of `seed || be(counter, 4)`, concatenated and
cut to `length`. -/
def maskBytes (seed : Bytes) (length : Nat) : Bytes :=
  ((List.range ((length + 31) / 32)).flatMap (fun counter => sha256 (seed ++ be counter 4))).take length

/-- `MGF1(seed, length)` (R130, R131). -/
def mgf1 (seed : Bytes) (length : Nat) : Except Stop Bytes :=
  if Config.mgf1Max < length then .error (.raise .maskTooLong Config.mgf1Max length)
  else .ok (maskBytes seed length)

/-- `MGF1`: `OUT <- MGF1(MSG, ARG)` (R132). -/
def execMgf1 (s : State) : Out :=
  runCommand (latchMgf1 s.params s.engine) (fun l =>
    match l with
    | .mgf1 seed length => some (conclude .mgf1 ((mgf1 seed length).map .out) s)
    | _ => none) s

end Sys2Proof.Machine
end

