-- ==== Sys2Proof/Machine/Oaep.lean ====
section
/-! DEFINITION. The OAEP codec and its commands `OAEP_ENC` and `OAEP_DEC` (`45_oaep.md` R200 to R210). -/

namespace Sys2Proof.Machine

/-- The internal use of MGF1 (R201, R204), which never raises `MaskTooLong` (R252). Up to `MGF1_MAX` it is the
mask of R130; beyond, R130 defines none, and the mask is a free value of `length` bytes (DESIGN CHOICE, log
entry 8). -/
def innerMask (seed : Bytes) (length : Nat) : Bytes :=
  if length ≤ Config.mgf1Max then maskBytes seed length
  else (List.range length).map (Config.freeMaskByte seed length)

/-- `DB = lHash || PS || 0x01 || M`, k − 33 bytes (R201). -/
def dataBlock (k : Nat) (m label : Bytes) : Bytes :=
  sha256 label ++ List.replicate (k - Config.oaepOverhead - m.length) 0x00 ++ [0x01] ++ m

/-- `maskedDB = DB XOR MGF1(seed, k − 33)` (R201). -/
def maskedDataBlock (k : Nat) (m label seed : Bytes) : Bytes :=
  xorBytes (dataBlock k m label) (innerMask seed (k - 33))

/-- `EM = 0x00 || maskedSeed || maskedDB` (R201). -/
def encodedMessage (k : Nat) (m label seed : Bytes) : Bytes :=
  [0x00] ++ xorBytes seed (innerMask (maskedDataBlock k m label seed) Config.seedLen) ++ maskedDataBlock k m label seed

/-- Is the message too long for the modulus, `len(M) > k − 66` over the integers? (R201) -/
def messageTooLong (m : Bytes) (n : Nat) : Bool := decide (byteLen n < m.length + Config.oaepOverhead)

/-- `OaepEncode(M, n, e, label, seed)` (R201). -/
def oaepEncode (m : Bytes) (n e : Nat) (label seed : Bytes) : Except Stop Bytes :=
  if messageTooLong m n then
    .error (.raise .messageTooLong (byteLen n - Config.oaepOverhead) m.length)
  else .ok (be (modExp (intOf (encodedMessage (byteLen n) m label seed)) e n) (byteLen n))

/-- The scan of R204: a run of 0x00 ended by 0x01, the message after it; `none` is `InvalidPadding`. -/
def paddingScan : Bytes → Option Bytes
  | [] => none
  | b :: rest => if b = 0x01 then some rest else if b = 0x00 then paddingScan rest else none

/-- The seed recovered from EM (R204). -/
def recoveredSeed (em : Bytes) : Bytes :=
  xorBytes ((em.drop 1).take Config.seedLen) (innerMask (em.drop 33) Config.seedLen)

/-- DB recovered from EM (R204). -/
def recoveredDB (k : Nat) (em : Bytes) : Bytes := xorBytes (em.drop 33) (innerMask (recoveredSeed em) (k - 33))

/-- The checks of R204 after the exponentiation, on an EM of k bytes. -/
def unpadMessage (k : Nat) (em label : Bytes) : Except Stop Bytes :=
  if em.head? ≠ some 0x00 then .error (.raise .invalidPadding 0 0)
  else if (recoveredDB k em).take Config.hLen ≠ sha256 label then .error (.raise .invalidLabelHash 0 0)
  else
    match paddingScan ((recoveredDB k em).drop Config.hLen) with
    | some m => .ok m
    | none => .error (.raise .invalidPadding 0 0)

/-- `OaepDecode(C, n, d, label)` for k(n) ≥ 66 (R204): the first failing check determines the error. -/
def oaepDecode (c : Bytes) (n d : Nat) (label : Bytes) : Except Stop Bytes :=
  if c.length ≠ byteLen n then .error (.raise .invalidCiphertextLength (byteLen n) c.length)
  else unpadMessage (byteLen n) (be (modExp (intOf c) d n) (byteLen n)) label

/-- Has the hash input of `MGF1(maskedDB, 32)`, k − 33 bytes and a counter of 4, 2^61 bytes or more? (R109) -/
def maskedBlockTooLong (n : Nat) : Bool := decide (Config.hashLimit ≤ byteLen n - 33 + 4)

/-- Does the decoder get past its first two checks, so that it evaluates the masks? (R204) -/
def reachesMasks (c : Bytes) (n d : Nat) : Bool :=
  c.length == byteLen n && (be (modExp (intOf c) d n) (byteLen n)).head? == some 0x00

/-- `OAEP_ENC` (R202). The seed is drawn only after the length check. A modulus so long that `SHA256` would be
evaluated on 2^61 bytes or more is refused (R109), when the operation gets there (log entry 11). -/
def execOaepEnc (s : State) : Out :=
  runCommand (latchOaepEnc s.engine) (fun l =>
    match l with
    | .oaepEnc m label n e =>
      some (if messageTooLong m n then
          fail .oaepEnc .messageTooLong (byteLen n - Config.oaepOverhead) m.length s
        else if maskedBlockTooLong n then .refused .hashInputTooLong
        else
          conclude .oaepEnc ((oaepEncode m n e label (drawSeed s.rng).1).map .out)
            (s.withRng (drawSeed s.rng).2))
    | _ => none) s

/-- `OAEP_DEC` (R205), with the refusal of R109 as in `OAEP_ENC`. -/
def execOaepDec (s : State) : Out :=
  runCommand (latchOaepDec s.engine) (fun l =>
    match l with
    | .oaepDec c label n d =>
      some (if reachesMasks c n d && maskedBlockTooLong n then .refused .hashInputTooLong
        else conclude .oaepDec ((oaepDecode c n d label).map .out) s)
    | _ => none) s

end Sys2Proof.Machine
end

