-- ==== Sys2Proof/Machine/Dispatch.lean ====
section
/-! DEFINITION. One arm per command, in the order of `30_encoding.md` R82. -/

namespace Sys2Proof.Machine

-- The meaning of a command: its issue on an idle engine, the next step of its operation on an engine busy with it.
def exec (i : Instr) (s : State) : Host.Outcome State Fault Refusal :=
  match i with
  | .hash => Sys2Proof.Machine.execHash s
  | .hInit => Sys2Proof.Machine.execHInit s
  | .hUpdate => Sys2Proof.Machine.execHUpdate s
  | .hDigest => Sys2Proof.Machine.execHDigest s
  | .hHexdigest => Sys2Proof.Machine.execHHexdigest s
  | .mgf1 => Sys2Proof.Machine.execMgf1 s
  | .montmul => Sys2Proof.Machine.execMontmul s
  | .modexp => Sys2Proof.Machine.execModexp s
  | .egcd => Sys2Proof.Machine.execEgcd s
  | .modinv => Sys2Proof.Machine.execModinv s
  | .isprime => Sys2Proof.Machine.execIsprime s
  | .genprime => Sys2Proof.Machine.execGenprime s
  | .genkey => Sys2Proof.Machine.execGenkey s
  | .oaepEnc => Sys2Proof.Machine.execOaepEnc s
  | .oaepDec => Sys2Proof.Machine.execOaepDec s

end Sys2Proof.Machine
end

