-- ==== Sys2Proof/Machine/HostPort.lean ====
section
/-! DEFINITION. The host's side of the register file: the six access primitives (`20_memory.md` R60 to R62),
what a write to `CMD` does (`30_encoding.md` R85, R86), and the next event of the total order of steps
(R69). -/

namespace Sys2Proof.Machine

/-- What a read returns is the host's; the engine is unchanged (R66). -/
def State.record (s : State) (v : HostValue) : State := { s with reads := v :: s.reads }

/-- The register an index names, which must be assigned (R61, R67). -/
def lookupReg (index : BitVec 8) : Except Refusal Reg :=
  match Reg.ofIndex index with
  | some r => .ok r
  | none => .error (.reservedIndex index)

/-- `HostReadInt(r)` (R60, R61). -/
def hostReadInt (index : BitVec 8) (e : Engine) : Except Refusal HostValue := do
  let r ← lookupReg index
  require (r.kind == .natural || r.kind == .signed) (.wrongKind r)
  require r.intReadable (.notReadable r)
  need r (e.content r)

/-- `HostReadBuf(b)` (R60, R61). -/
def hostReadBuf (index : BitVec 8) (e : Engine) : Except Refusal HostValue := do
  let r ← lookupReg index
  require (r.kind == .bytes) (.wrongKind r)
  require r.bufReadable (.notReadable r)
  need r (e.content r)

/-- `HostWriteInt(r, v)` (R60, R61, R22). -/
def hostWriteInt (p : Params) (index : BitVec 8) (v : Int) (e : Engine) : Except Refusal Engine := do
  let r ← lookupReg index
  require (r.kind == .natural || r.kind == .signed) (.wrongKind r)
  require r.intWritable (.notWritable r)
  require (decide (0 ≤ v)) (.negativeWrite r)
  require (fitsInt p v) (.writeTooLarge r)
  pure (e.setInt r v.toNat)

/-- `HostWriteBuf(b, s)` (R60, R61, R22). -/
def hostWriteBuf (p : Params) (index : BitVec 8) (x : Bytes) (e : Engine) : Except Refusal Engine := do
  let r ← lookupReg index
  require (r.kind == .bytes) (.wrongKind r)
  require r.bufWritable (.notWritable r)
  require (fitsBuf p x.length) (.writeTooLarge r)
  pure (e.setBuf r x)

/-- A read's value to the host, or the refusal. -/
def readOutcome (s : State) (v : Except Refusal HostValue) : Out :=
  match v with
  | .ok v => .next (s.record v)
  | .error r => .refused r

/-- A written engine, or the refusal. -/
def writeOutcome (s : State) (e : Except Refusal Engine) : Out :=
  match e with
  | .ok e => .next { s with engine := e }
  | .error r => .refused r

/-- The next command has come: the answers fixed for it become those the source gives, in order. What an earlier
command left of its own was fixed for that command only (R89) and is discarded. -/
def State.takeAnswers (s : State) : State := { s with rng := { s.rng with queue := s.nextAnswers }, nextAnswers := [] }

/-- `HostWriteCmd(w)` on an idle engine: the command's issue, or an illegal word, which is no command (R85, R86,
R89). -/
def writeCommand (w : Word) (s : State) : Out :=
  match decode w with
  | .ok i => exec i s.takeAnswers
  | .error _ => .next (illegalCommand s)

/-- One host primitive (R60). While `BUSY` = 1 only the `STATUS` read has a meaning (R62). -/
def hostAccess (a : HostAction) (s : State) : Out :=
  match a with
  | .readStatus => .next (s.record (.word (statusWord s.engine)))
  | .writeInt index v => if s.engine.busy then .refused .engineBusy else writeOutcome s (hostWriteInt s.params index v s.engine)
  | .readInt index => if s.engine.busy then .refused .engineBusy else readOutcome s (hostReadInt index s.engine)
  | .writeBuf index x => if s.engine.busy then .refused .engineBusy else writeOutcome s (hostWriteBuf s.params index x s.engine)
  | .readBuf index => if s.engine.busy then .refused .engineBusy else readOutcome s (hostReadBuf index s.engine)
  | .writeCmd w => if s.engine.busy then .refused .engineBusy else writeCommand w s

/-- The engine's next step: it acts only while `BUSY` = 1, on the latched command (R69, R40). -/
def engineStep (s : State) : Out :=
  if s.engine.busy then
    match s.engine.latch with
    | some l => exec l.instr s
    | none => .fault .latchLost
  else .next s

/-- `WAIT` (R90): a `STATUS` read; while it shows `BUSY` = 1 the engine goes on and the wait is repeated. R287 lets
the engine take any finite time between two polls: here it takes exactly one step (DESIGN CHOICE, log entry
16), and another pace is written with `engine` and `STATUS` reads as events before the `WAIT`. -/
def hostWait (s : State) : State :=
  let t := s.record (.word (statusWord s.engine))
  if statusBusy (statusWord s.engine) then { t with agenda := .engine :: .wait :: t.agenda } else t

/-- `ERR?` (R90): a `STATUS` read, of which the host takes bits 15:8. If they are not 0, the host leaves out its
next `skip` events (R240). Log entry 17. -/
def hostErrCheck (skip : Nat) (s : State) : State :=
  let t := s.record (.word (statusWord s.engine))
  if statusErr (statusWord s.engine) = successCode then t else { t with agenda := t.agenda.drop skip }

/-- One event, already taken off the agenda. A `.draws` line is no host action (R89): it fixes the answers of the
next command and changes nothing else. If two such lines come before one command, the later one stands (DESIGN
CHOICE, log entry 15). -/
def handleEvent (ev : Event) (s : State) : Out :=
  match ev with
  | .host a => hostAccess a s
  | .engine => engineStep s
  | .reset => .next (applyReset s)
  | .wait => .next (hostWait s)
  | .errCheck skip => .next (hostErrCheck skip s)
  | .answers xs => .next { s with nextAnswers := xs }

/-- The next step: the next event of the agenda; with nothing on it, the engine's own next step. -/
def nextStep (s : State) : Out :=
  match s.agenda with
  | [] => engineStep s
  | ev :: rest => handleEvent ev { s with agenda := rest }

end Sys2Proof.Machine
end

