-- ==== Sys2Proof/Machine/Step.lean ====
section
/-! DEFINITION. One step of the machine, and how the host places a command word where the next step takes
it: the engine fetches nothing (`10_state.md` R50), a command arrives by a host write to `CMD`. -/

namespace Sys2Proof.Machine

/-- One step in the single total order of R69. -/
def step (s : State) : Host.Outcome State Fault Refusal := nextStep s

/-- `s` with a write of the word to `CMD` as the next event (log entry 3). -/
def State.withFetchWord (s : State) (nbits w : Nat) : State :=
  { s with agenda := .host (.writeCmd (tableWord nbits w)) :: s.agenda }

end Sys2Proof.Machine
end

