-- ==== Sys2Proof/Machine/Script.lean ====
section
/-! DEFINITION. The host-script notation as events (`30_encoding.md` R89, R90) and the command sequences
by which a host realises the source's operations (`46_host_software.md` R240). -/

namespace Sys2Proof.Machine.Script

/-- `WINT reg, value` (R89). -/
def wint (r : Reg) (v : Int) : Event := .host (.writeInt r.index v)

/-- `WBUF buf, bytes` (R89). -/
def wbuf (r : Reg) (s : Bytes) : Event := .host (.writeBuf r.index s)

/-- `CMD MNEMONIC` (R89). -/
def cmd (i : Instr) : Event := .host (.writeCmd (encode i))

/-- `CMDW 0xhhhhhhhh` (R89). -/
def cmdw (w : Word) : Event := .host (.writeCmd w)

/-- `RSTAT` (R89). -/
def rstat : Event := .host .readStatus

/-- `RINT reg` (R89). -/
def rint (r : Reg) : Event := .host (.readInt r.index)

/-- `RBUF buf` (R89). -/
def rbuf (r : Reg) : Event := .host (.readBuf r.index)

/-- `RESET` (R89). -/
def reset : Event := .reset

/-- `.draws a, b, …` (R89); a seed is given as the number its bytes stand for, the first one highest. -/
def draws (xs : List Nat) : Event := .answers xs

/-- `ERR?` with no branch on it: `RSTAT`, of whose word the host takes bits 15:8 (R90, `statusErr`). -/
def err : Event := .errCheck 0

/-- `RUN MNEMONIC`: `CMD MNEMONIC` then `WAIT` (R90). -/
def run (i : Instr) : List Event := [cmd i, .wait]

/-- `LOADPUB n, e` (R90). -/
def loadPub (n e : Nat) : List Event := [wint .kn n, wint .ke e]

/-- `LOADPRIV n, d` (R90). -/
def loadPriv (n d : Nat) : List Event := [wint .kn n, wint .kd d]

/-- `generateKeyPair(bits)` (R240): with the code 0 the five key registers are read; with 2 (NoInverse) the host
reports `GenerationFailure` and reads none. R240's other choice, to run `GENKEY` again, is this sequence
again. -/
def generateKeyPair (bits : Nat) : List Event :=
  [wint .arg bits] ++ run .genkey ++ [.errCheck 5, rint .kn, rint .ke, rint .kd, rint .kp, rint .kq]

/-- A codec command over each of the strings in turn, its result read; after the first error the host fails and
does nothing more (R240). -/
def forEach (i : Instr) : List Bytes → List Event
  | [] => []
  | x :: rest => [wbuf .msg x] ++ run i ++ [.errCheck (1 + (forEach i rest).length), rbuf .out] ++ forEach i rest

/-- `encryptFile` after the key is loaded from its file, over the chunks of the input (R240). -/
def encryptFile (n e : Nat) (chunks : List Bytes) : List Event :=
  loadPub n e ++ [wbuf .lbl []] ++ forEach .oaepEnc chunks

/-- `decryptFile` after the key is loaded from its file, over the blocks of the records (R240). -/
def decryptFile (n d : Nat) (blocks : List Bytes) : List Event :=
  loadPriv n d ++ [wbuf .lbl []] ++ forEach .oaepDec blocks

end Sys2Proof.Machine.Script
end

