-- ==== Sys2Proof/Safety.lean ====
section
/-! DEFINITION. What claims about runs are stated in: a run of several steps, a command in flight, and the
invariant every step keeps. -/

namespace Sys2Proof.Machine

/-- `k` steps, stopping at the first fault or refusal. -/
def steps : Nat → State → Out
  | 0, s => .next s
  | k + 1, s =>
    match step s with
    | .next t => steps k t
    | .fault r => .fault r
    | .refused r => .refused r

/-- The model stops: the class "refuse" of R263. -/
def Refuses (o : Out) : Prop := ∃ r, o = .refused r

/-- The engine is executing the command that `l` latches (R25, R40). -/
def State.Running (s : State) (l : Latch) : Prop := s.engine.busy = true ∧ s.engine.latch = some l

/-- The codes `STATUS.ERR` can hold (R251). -/
def legalErr : List (BitVec 8) := [0x00, 0x01, 0x02, 0x04, 0x05, 0x06, 0x07, 0x80]

/-- The context registers agree with the error code (R253): a pair for the three length errors, zeros in
every other case. -/
def Engine.contextAgrees (e : Engine) : Prop :=
  (e.err = Err.maskTooLong.code → e.errinfoExp = 2 ^ 37 ∧ 2 ^ 37 < e.errinfoAct) ∧
  (e.err = Err.messageTooLong.code → e.errinfoExp ≤ e.errinfoAct) ∧
  (e.err = Err.invalidCiphertextLength.code → e.errinfoExp ≠ e.errinfoAct) ∧
  (e.err ≠ Err.maskTooLong.code → e.err ≠ Err.messageTooLong.code → e.err ≠ Err.invalidCiphertextLength.code →
    e.errinfoExp = 0 ∧ e.errinfoAct = 0)

/-- The latched operands are still the contents of the source registers: no one can write them while the
command runs (R62, R72). -/
def Latch.sourcesHeld (e : Engine) : Latch → Prop
  | .hash m => e.msg = some m
  | .hInit => True
  | .hUpdate m h => e.msg = some m ∧ e.hacc = h
  | .hDigest h => e.hacc = h
  | .hHexdigest h => e.hacc = h
  | .mgf1 seed n => e.msg = some seed ∧ e.arg = some n
  | .montmul a b m => e.opa = some a ∧ e.opb = some b ∧ e.opm = some m
  | .modexp b x m => e.opa = some b ∧ e.opb = some x ∧ e.opm = some m
  | .egcd a b => e.opa = some a ∧ e.opb = some b
  | .modinv x phi => e.opa = some x ∧ e.opm = some phi
  | .isprime n rounds => e.opa = some n ∧ e.rounds = rounds
  | .genprime bits _ => e.arg = some bits
  | .genkey bits _ _ => e.arg = some bits
  | .oaepEnc m lbl n x => e.msg = some m ∧ e.lbl = lbl ∧ e.kn = some n ∧ e.ke = some x
  | .oaepDec c lbl n d => e.msg = some c ∧ e.lbl = lbl ∧ e.kn = some n ∧ e.kd = some d

/-- A value `DrawCandidate(bits)` can give: odd, with exactly `bits` bits (R14, R173). -/
def IsCandidate (bits c : Nat) : Prop := c % 2 = 1 ∧ bitlen c = bits

/-- Some forty draws make the test accept the number (R170, R173). -/
def Accepted (c : Nat) : Prop := ∃ g, (isPrime c Config.mrRounds g).1 = true

/-- The latched operands are in no "refuse" case of the command's rule (R84, R85), the primes and candidates
found so far have the size asked for, and the first prime was accepted by forty rounds (R173, R193). -/
def Latch.legal (p : Params) : Latch → Prop
  | .hash m => m.length < 2 ^ 61
  | .hInit => True
  | .hUpdate m h => fitsBuf p (h.length + m.length) = true
  | .hDigest h => h.length < 2 ^ 61
  | .hHexdigest h => h.length < 2 ^ 61
  | .mgf1 seed n => (2 ^ 37 < n ∨ fitsBuf p n = true) ∧ seed.length + 4 < 2 ^ 61
  | .montmul a b m => m % 2 = 1 ∧ a < m ∧ b < m
  | .modexp _ _ m => m ≠ 0
  | .egcd _ _ => True
  | .modinv _ phi => phi ≠ 0
  | .isprime _ _ => True
  | .genprime bits c => bits ≠ 0 ∧ ∀ x, c = some x → IsCandidate bits x
  | .genkey bits q c =>
    supportsBits p bits = true ∧ (∀ x, q = some x → IsCandidate (bits / 2) x ∧ Accepted x) ∧
      ∀ x, c = some x → IsCandidate (bits / 2) x
  | .oaepEnc _ lbl _ _ => lbl.length < 2 ^ 61
  | .oaepDec _ lbl n _ => 66 ≤ byteLen n ∧ lbl.length < 2 ^ 61

/-- Every register fits the bounds of R22. -/
def Engine.fits (p : Params) (e : Engine) : Prop :=
  (∀ r v, e.content r = some (.int v) → fitsInt p v = true) ∧
  ∀ r x, e.content r = some (.bytes x) → fitsBuf p x.length = true

/-- The invariant of the machine. -/
structure State.Inv (s : State) : Prop where
  /-- The parameters meet the constraints of R7. -/
  params_fit_rounds : fitsInt s.params 40 = true
  /-- `BUSY` is 1 exactly while a command is latched (R25). -/
  busy_iff_latched : s.engine.busy = s.engine.latch.isSome
  /-- The code is one of R251's set. -/
  err_legal : s.engine.err ∈ legalErr
  /-- The context registers agree with the code (R253). -/
  context : s.engine.contextAgrees
  /-- The latched operands are the sources' contents (R72). -/
  held : ∀ l, s.engine.latch = some l → l.sourcesHeld s.engine
  /-- The latched operands are legal (R84, R85). -/
  legal : ∀ l, s.engine.latch = some l → l.legal s.params
  /-- Every register fits its bound (R22). -/
  fits : s.engine.fits s.params

/-- The events by which the host feeds one byte string to the accumulator: the write of `MSG`, the word of
`H_UPDATE`, and the engine's turn. -/
def feedEvents (part : Bytes) : List Event :=
  [.host (.writeBuf 0x20 part), .host (.writeCmd 0x00000003), .engine]

/-- Does base `a` pass a Miller–Rabin round for n? With n − 1 = 2^r · d, d odd: a^d is 1, or one of
a^d, a^(2d), …, a^(2^(r−1) d) is n − 1, modulo n (R170). -/
def PassesRound (n a : Nat) : Prop :=
  ∃ r d, n - 1 = 2 ^ r * d ∧ d % 2 = 1 ∧ (a ^ d % n = 1 ∨ ∃ j, j < r ∧ a ^ (2 ^ j * d) % n = n - 1)

/-- The randomness source after `j` base draws for n. -/
def afterBases (n j : Nat) (g : Rng) : Rng := (fun h => (drawBase n h).2)^[j] g

/-- A safe step: the machine is not stuck. -/
def State.Safe (s : State) : Prop := ∀ f, step s ≠ .fault f

end Sys2Proof.Machine
end

