-- ==== Sys2Proof/WellFormed.lean ====
section
/-! DEFINITION. Which terms the spec gives a form to: the commands (every one: R83 gives them no operand
field that could be ill-formed), the host primitives against the lists of R60 and R61, and the
parameters against the constraints of R7. -/

namespace Sys2Proof

/-- No command has an operand field (R80, R83), so every command is well formed. -/
def Instr.wf (_ : Instr) : Bool := true

/-- A host primitive applied to a register of its own list, with a natural where R60 asks for one. -/
def Machine.HostAction.wf : Machine.HostAction → Bool
  | .writeInt i v => ((Machine.Reg.ofIndex i).map Machine.Reg.intWritable).getD false && decide (0 ≤ v)
  | .readInt i => ((Machine.Reg.ofIndex i).map Machine.Reg.intReadable).getD false
  | .writeBuf i _ => ((Machine.Reg.ofIndex i).map Machine.Reg.bufWritable).getD false
  | .readBuf i => ((Machine.Reg.ofIndex i).map Machine.Reg.bufReadable).getD false
  | .readStatus => true
  | .writeCmd _ => true

/-- The constraints of R7 on the open parameters: the supported sizes are even naturals ≥ 4, and
`MAX_BUF_BYTES`, if set, is below 2^61 − 4; an overriding radix exponent r is valid for its modulus,
2^r > m (R143). `MAX_INT_BITS`, if set, must hold the reset value 40 of
`ROUNDS` (DEDUCED from R22 and R55, log entry 9). -/
def Params.wf (p : Params) : Bool :=
  p.supportedBits.all (fun b => b % 2 == 0 && decide (4 ≤ b)) &&
  (p.maxBufBytes.map (fun n => decide (n + 4 < 2 ^ 61))).getD true &&
  (p.maxIntBits.map (fun n => decide (6 ≤ n))).getD true &&
  p.montRbits.all (fun x => decide (Machine.bitlen x.1 ≤ x.2))

end Sys2Proof
end

