-- ==== Sys2Proof/Certificates/Slice0/Obligations.lean ====
section
/-! DEFINITION. The statements for the provers. A statement about a command has two parts: what its issue
does on an idle engine (R85), and what the engine's step does while the command is latched (R87, R255). -/

open Sys2Proof Sys2Proof.Machine

/-! ## Encoding -/

/-- R81, R82: the `match` column of the opcode map: each word selects its command, no other word selects one,
and every other word is illegal. `encode` gives that word back for every command. -/
def Obligations.OnlyTheMatchWordSelectsTheCommand : Prop :=
  (∀ (w : Word) (i : Instr), decode w = .ok i ↔ (w, i) ∈
    ([(0x00000001, .hash), (0x00000002, .hInit), (0x00000003, .hUpdate), (0x00000004, .hDigest), (0x00000005, .hHexdigest),
      (0x00000010, .mgf1), (0x00000020, .montmul), (0x00000021, .modexp), (0x00000022, .egcd), (0x00000023, .modinv),
      (0x00000030, .isprime), (0x00000031, .genprime), (0x00000032, .genkey), (0x00000040, .oaepEnc),
      (0x00000041, .oaepDec)] : List (Word × Instr))) ∧
  (∀ i : Instr, i.wf = true → decode (encode i) = .ok i)

/-- Words of the table of `95_test_vectors.md` V29, one of each family and three illegal ones. -/
def Obligations.WrittenOutWordsDecode : Prop :=
  decode 0x00000001 = .ok .hash ∧ decode 0x00000005 = .ok .hHexdigest ∧ decode 0x00000010 = .ok .mgf1 ∧
  decode 0x00000020 = .ok .montmul ∧ decode 0x00000023 = .ok .modinv ∧ decode 0x00000030 = .ok .isprime ∧
  decode 0x00000032 = .ok .genkey ∧ decode 0x00000040 = .ok .oaepEnc ∧ decode 0x00000041 = .ok .oaepDec ∧
  (∃ r, decode 0x00000000 = .error r) ∧ (∃ r, decode 0x00000101 = .error r) ∧ (∃ r, decode 0x80000001 = .error r)

/-! ## The step -/

/-- R85, R89: a host write of a command's word to `CMD` on an idle engine runs that command. The machine has no
program counter (R50): the step only takes the event off the agenda, and gives the randomness source the answers
fixed for this command, in place of what an earlier command left of its own. `withFetchWord` places the word so
that the very next step runs it. A `.draws` line fixes the answers of the next command and changes nothing else.
The agenda, the source and the fixed answers as fields of the state are the model's form (log entries 3, 4, 15). -/
def Obligations.CommandWriteRunsTheDecodedCommand : Prop :=
  (∀ (s : State) (w : Word) (i : Instr) (rest : List Event), s.engine.busy = false →
    s.agenda = .host (.writeCmd w) :: rest → decode w = .ok i →
    step s = exec i { s with agenda := rest, rng := ⟨s.nextAnswers, s.rng.count⟩, nextAnswers := [] }) ∧
  (∀ (s : State) (nbits w : Nat) (i : Instr), s.engine.busy = false → decodeTableWord nbits w = some i →
    step (s.withFetchWord nbits w) = exec i { s with rng := ⟨s.nextAnswers, s.rng.count⟩, nextAnswers := [] }) ∧
  (∀ (s : State) (xs : List Nat) (rest : List Event), s.agenda = .answers xs :: rest →
    step s = .next { s with agenda := rest, nextAnswers := xs })

/-- R69, R40: while `BUSY` = 1 the engine's step is the next step of the latched command, both when the
agenda gives the engine its turn and when nothing is on the agenda; an idle engine does nothing. -/
def Obligations.EngineTurnAdvancesTheLatchedCommand : Prop :=
  (∀ (s : State) (l : Latch), s.Running l →
    (s.agenda = [] → step s = exec l.instr s) ∧
    (∀ rest, s.agenda = .engine :: rest → step s = exec l.instr { s with agenda := rest })) ∧
  (∀ s : State, s.engine.busy = false →
    (s.agenda = [] → step s = .next s) ∧
    (∀ rest, s.agenda = .engine :: rest → step s = .next { s with agenda := rest }))

/-- R86: the illegal words are those with a bit of 31:8 set and those whose opcode is in the list of unassigned
ones. Written to `CMD` of an idle engine, each sets `ERR` to 0x80 and the context to zeros, and does nothing
else. -/
def Obligations.IllegalWordsOnlyReportIllegalCommand : Prop :=
  ∀ w : Word,
    let listed := w.toNat / 256 ≠ 0 ∨ w.toNat % 256 = 0x00 ∨ (0x06 ≤ w.toNat % 256 ∧ w.toNat % 256 ≤ 0x0F) ∨
      (0x11 ≤ w.toNat % 256 ∧ w.toNat % 256 ≤ 0x1F) ∨ (0x24 ≤ w.toNat % 256 ∧ w.toNat % 256 ≤ 0x2F) ∨
      (0x33 ≤ w.toNat % 256 ∧ w.toNat % 256 ≤ 0x3F) ∨ (0x42 ≤ w.toNat % 256 ∧ w.toNat % 256 ≤ 0xFF)
    ((∃ r, decode w = .error r) ↔ listed) ∧
    ∀ s : State, s.engine.busy = false → listed →
      hostAccess (.writeCmd w) s = .next { s with engine := { s.engine with err := 0x80, errinfoExp := 0, errinfoAct := 0 } }

/-- R55, R280, R282: the reset state's engine holds the values of R55, and the reset event, in any state, idle or
busy, gives every field of the engine the same value. What lies outside the engine is kept: the draws a
command had consumed stay consumed (R282). That the agenda, the source and the host's transcript are fields the
reset event keeps is the model's choice (log entries 3, 4 and 5). -/
def Obligations.ResetGivesEveryFieldItsResetValue : Prop :=
  let e : Engine :=
    { busy := false, prime := false, err := 0, errinfoExp := 0, errinfoAct := 0, arg := none, rounds := 40
      kn := none, ke := none, kd := none, kp := none, kq := none, opa := none, opb := none, opm := none
      res0 := none, res1 := none, res2 := none, msg := none, lbl := [], out := none, hacc := [], latch := none }
  State.reset.engine = e ∧ ∀ s : State, handleEvent .reset s = .next { s with engine := e }

/-- R62: while `BUSY` = 1 every host primitive but `HostReadStatus` is refused, and that one returns the
`STATUS` word and changes nothing of the engine (R60, R66). The transcript in which the model keeps what a read
returned is the model's own (log entry 5). -/
def Obligations.BusyEngineAnswersOnlyTheStatusRead : Prop :=
  ∀ (s : State) (a : HostAction), s.engine.busy = true →
    (a ≠ .readStatus → Refuses (hostAccess a s)) ∧
    (a = .readStatus → hostAccess a s = .next { s with reads := .word (statusWord s.engine) :: s.reads })

/-- R60, R66: on an idle engine a read of a register of its list that holds a value returns the content, and
neither it nor a `STATUS` read changes anything of the engine. -/
def Obligations.HostReadsReturnTheContent : Prop :=
  ∀ s : State, s.engine.busy = false →
    (∀ r ∈ [Reg.errinfoExp, .errinfoAct, .arg, .rounds, .kn, .ke, .kd, .kp, .kq, .opa, .opb, .opm, .res0, .res1, .res2],
      ∀ v, s.engine.content r = some v → hostAccess (.readInt r.index) s = .next { s with reads := v :: s.reads }) ∧
    (∀ r ∈ [Reg.msg, .lbl, .out],
      ∀ v, s.engine.content r = some v → hostAccess (.readBuf r.index) s = .next { s with reads := v :: s.reads }) ∧
    hostAccess .readStatus s = .next { s with reads := .word (statusWord s.engine) :: s.reads }

/-- R60, R22: on an idle engine a write of a fitting value to a register of its list sets that register, and
every other register keeps its content. A value that does not fit is refused. -/
def Obligations.HostWritesSetOneRegister : Prop :=
  ∀ s : State, s.engine.busy = false →
    (∀ r ∈ [Reg.arg, .rounds, .kn, .ke, .kd, .kp, .kq, .opa, .opb, .opm], ∀ n : Nat,
      (fitsInt s.params n = true → ∃ e, hostAccess (.writeInt r.index n) s = .next { s with engine := e } ∧
        e.content r = some (.int n) ∧ e.latch = s.engine.latch ∧ ∀ q, q ≠ r → e.content q = s.engine.content q) ∧
      (fitsInt s.params n = false → Refuses (hostAccess (.writeInt r.index n) s))) ∧
    (∀ r ∈ [Reg.msg, .lbl], ∀ x : Bytes,
      (fitsBuf s.params x.length = true → ∃ e, hostAccess (.writeBuf r.index x) s = .next { s with engine := e } ∧
        e.content r = some (.bytes x) ∧ e.latch = s.engine.latch ∧ ∀ q, q ≠ r → e.content q = s.engine.content q) ∧
      (fitsBuf s.params x.length = false → Refuses (hostAccess (.writeBuf r.index x) s)))

/-- R61: on an idle engine these are refused: a write to a read-only register, a read of `CMD`, any direct
access to `HACC`, an access to a reserved index, an integer primitive on a byte buffer or the reverse, an
integer write to `CMD` or of a negative value, and a read of a register that holds ⊥ (R23). That
`HostReadInt` of `STATUS` is outside its list too is the model's reading (log entry 7, DEDUCED). -/
def Obligations.HostAccessOutsideItsListIsRefused : Prop :=
  ∀ s : State, s.engine.busy = false → ∀ (v : Int) (x : Bytes),
    (∀ r ∈ [Reg.status, .errinfoExp, .errinfoAct, .res0, .res1, .res2, .out],
      Refuses (hostAccess (.writeInt r.index v) s) ∧ Refuses (hostAccess (.writeBuf r.index x) s)) ∧
    (Refuses (hostAccess (.readInt 0x00) s) ∧ Refuses (hostAccess (.readBuf 0x00) s)) ∧
    Refuses (hostAccess (.writeInt 0x00 v) s) ∧ Refuses (hostAccess (.readInt 0x01) s) ∧
    (∀ i : BitVec 8, i = 0x23 ∨ Reg.ofIndex i = none →
      Refuses (hostAccess (.writeInt i v) s) ∧ Refuses (hostAccess (.readInt i) s) ∧
      Refuses (hostAccess (.writeBuf i x) s) ∧ Refuses (hostAccess (.readBuf i) s)) ∧
    (∀ r ∈ [Reg.msg, .lbl, .out], Refuses (hostAccess (.writeInt r.index v) s) ∧ Refuses (hostAccess (.readInt r.index) s)) ∧
    (∀ r : Reg, r ∉ [Reg.msg, .lbl, .out] →
      Refuses (hostAccess (.writeBuf r.index x) s) ∧ Refuses (hostAccess (.readBuf r.index) s)) ∧
    (v < 0 → ∀ i, Refuses (hostAccess (.writeInt i v) s)) ∧
    (∀ r : Reg, s.engine.content r = none →
      Refuses (hostAccess (.readInt r.index) s) ∧ Refuses (hostAccess (.readBuf r.index) s))

/-- R21, R67: the index space: the index column of the register table, and the 235 indices that name nothing. -/
def Obligations.AssignedIndicesNameOneRegister : Prop :=
  (∀ (i : BitVec 8) (r : Reg), Reg.ofIndex i = some r ↔ (i, r) ∈
    ([(0x00, .cmd), (0x01, .status), (0x02, .errinfoExp), (0x03, .errinfoAct), (0x04, .arg), (0x05, .rounds), (0x10, .kn),
      (0x11, .ke), (0x12, .kd), (0x13, .kp), (0x14, .kq), (0x18, .opa), (0x19, .opb), (0x1A, .opm), (0x1C, .res0),
      (0x1D, .res1), (0x1E, .res2), (0x20, .msg), (0x21, .lbl), (0x22, .out), (0x23, .hacc)] : List (BitVec 8 × Reg))) ∧
  (∀ i : BitVec 8, Reg.ofIndex i = none ↔
    ¬ (i.toNat ≤ 0x05 ∨ (0x10 ≤ i.toNat ∧ i.toNat ≤ 0x14) ∨ (0x18 ≤ i.toNat ∧ i.toNat ≤ 0x1A) ∨
      (0x1C ≤ i.toNat ∧ i.toNat ≤ 0x1E) ∨ (0x20 ≤ i.toNat ∧ i.toNat ≤ 0x23)))

/-- R24: the layout of the `STATUS` word, and its value after reset. -/
def Obligations.StatusWordHoldsItsFields : Prop :=
  statusWord State.reset.engine = 0 ∧
  ∀ e : Engine, (statusWord e).getLsbD 0 = e.busy ∧ (statusWord e).getLsbD 1 = e.prime ∧
    (∀ j, j < 8 → (statusWord e).getLsbD (8 + j) = e.err.getLsbD j) ∧
    (∀ j, 2 ≤ j ∧ j ≤ 7 ∨ 16 ≤ j → (statusWord e).getLsbD j = false)

/-! ## Issue -/

/-- R85: an accepted issue writes `LATCH` and `BUSY`, and nothing else changes. -/
def Obligations.IssueChangesOnlyLatchAndBusy : Prop :=
  ∀ (i : Instr) (s t : State), s.engine.busy = false → exec i s = .next t →
    ∃ l, l.instr = i ∧ t = { s with engine := { s.engine with busy := true, latch := some l } }

/-- R84, R23: a command one of whose source registers holds ⊥ is refused. -/
def Obligations.SourceWithoutValueIsRefused : Prop :=
  ∀ (i : Instr) (s : State) (r : Reg), s.engine.busy = false → r ∈ sources i → s.engine.content r = none →
    ∃ q, exec i s = .refused q

/-! ## The hash engine -/

/-- R110, R108: `HASH` writes `SHA256(MSG)` to `OUT`, always 32 bytes. -/
def Obligations.HashWritesTheDigestOfMsg : Prop :=
  decode 0x00000001 = .ok .hash ∧ ∀ s : State,
    (s.engine.busy = false →
      (s.engine.msg = none → Refuses (exec .hash s)) ∧
      ∀ m, s.engine.msg = some m →
        (2 ^ 61 ≤ m.length → Refuses (exec .hash s)) ∧
        (m.length < 2 ^ 61 →
          exec .hash s = .next { s with engine := { s.engine with busy := true, latch := some (.hash m) } })) ∧
    (∀ m, s.Running (.hash m) → (sha256 m).length = 32 ∧ (fitsBuf s.params 32 = true →
      exec .hash s = .next { s with engine := { s.engine with
        out := some (sha256 m), err := 0, errinfoExp := 0, errinfoAct := 0, latch := none, busy := false } }))

/-- R111: `H_INIT` empties the accumulator. It has no source, so its issue is never refused. -/
def Obligations.HInitEmptiesTheAccumulator : Prop :=
  decode 0x00000002 = .ok .hInit ∧ ∀ s : State,
    (s.engine.busy = false →
      exec .hInit s = .next { s with engine := { s.engine with busy := true, latch := some .hInit } }) ∧
    (s.Running .hInit →
      exec .hInit s = .next { s with engine := { s.engine with
        hacc := [], err := 0, errinfoExp := 0, errinfoAct := 0, latch := none, busy := false } })

/-- R112: `H_UPDATE` appends `MSG` to the accumulator. It is refused when the result exceeds
`MAX_BUF_BYTES`. -/
def Obligations.HUpdateAppendsMsg : Prop :=
  decode 0x00000003 = .ok .hUpdate ∧ ∀ s : State,
    (s.engine.busy = false →
      (s.engine.msg = none → Refuses (exec .hUpdate s)) ∧
      ∀ m, s.engine.msg = some m →
        (fitsBuf s.params (s.engine.hacc.length + m.length) = false → Refuses (exec .hUpdate s)) ∧
        (fitsBuf s.params (s.engine.hacc.length + m.length) = true →
          exec .hUpdate s = .next { s with engine := { s.engine with
            busy := true, latch := some (.hUpdate m s.engine.hacc) } })) ∧
    (∀ m h, s.Running (.hUpdate m h) → fitsBuf s.params (h.length + m.length) = true →
      exec .hUpdate s = .next { s with engine := { s.engine with
        hacc := h ++ m, err := 0, errinfoExp := 0, errinfoAct := 0, latch := none, busy := false } })

/-- R113, R109: `H_DIGEST` writes the digest of the accumulator to `OUT` and keeps the accumulator. -/
def Obligations.HDigestWritesTheDigestOfTheAccumulator : Prop :=
  decode 0x00000004 = .ok .hDigest ∧ ∀ s : State,
    (s.engine.busy = false →
      (2 ^ 61 ≤ s.engine.hacc.length → Refuses (exec .hDigest s)) ∧
      (s.engine.hacc.length < 2 ^ 61 →
        exec .hDigest s = .next { s with engine := { s.engine with
          busy := true, latch := some (.hDigest s.engine.hacc) } })) ∧
    (∀ h, s.Running (.hDigest h) → fitsBuf s.params 32 = true →
      exec .hDigest s = .next { s with engine := { s.engine with
        out := some (sha256 h), err := 0, errinfoExp := 0, errinfoAct := 0, latch := none, busy := false } })

/-- R114, R109: `H_HEXDIGEST` writes 64 lowercase ASCII digits: bytes 2i and 2i+1 are the characters of the high
and the low nibble of byte i of the digest, 0..9 as 0x30..0x39 and 10..15 as 0x61..0x66. -/
def Obligations.HHexdigestWritesTheHexText : Prop :=
  decode 0x00000005 = .ok .hHexdigest ∧ ∀ s : State,
    (s.engine.busy = false →
      (2 ^ 61 ≤ s.engine.hacc.length → Refuses (exec .hHexdigest s)) ∧
      (s.engine.hacc.length < 2 ^ 61 →
        exec .hHexdigest s = .next { s with engine := { s.engine with
          busy := true, latch := some (.hHexdigest s.engine.hacc) } })) ∧
    (∀ h, s.Running (.hHexdigest h) → fitsBuf s.params 64 = true →
      ∃ x : Bytes, x.length = 64 ∧
        (∀ i, i < 32 →
          (x.getD (2 * i) 0).toNat = (if ((sha256 h).getD i 0).toNat / 16 < 10 then 0x30 + ((sha256 h).getD i 0).toNat / 16
            else 0x61 + (((sha256 h).getD i 0).toNat / 16 - 10)) ∧
          (x.getD (2 * i + 1) 0).toNat = (if ((sha256 h).getD i 0).toNat % 16 < 10 then 0x30 + ((sha256 h).getD i 0).toNat % 16
            else 0x61 + (((sha256 h).getD i 0).toNat % 16 - 10))) ∧
        exec .hHexdigest s = .next { s with engine := { s.engine with
          out := some x, err := 0, errinfoExp := 0, errinfoAct := 0, latch := none, busy := false } })

/-- R100: the padded message is the message, 0x80, the least number of zero bytes that makes the length 56
modulo 64, and the bit length in 8 bytes; its length is 64 · ((L + 8) div 64 + 1). -/
def Obligations.PaddingFillsWholeBlocks : Prop :=
  ∀ m : Bytes, ∃ z, z < 64 ∧ (m.length + 1 + z) % 64 = 56 ∧
    padMessage m = m ++ [0x80] ++ List.replicate z 0x00 ++ be (8 * m.length) 8 ∧
    (padMessage m).length = 64 * ((m.length + 8) / 64 + 1)

/-- R102, R103: `K_t` is the first 32 bits of the fractional part of the cube root of the (t+1)-th prime
(`c` is floor(cbrt(p) · 2^32)), and the initial hash words are those of the square roots of the first
eight primes. -/
def Obligations.HashConstantsAreRootsOfPrimes : Prop :=
  kTable.length = 64 ∧ ((List.range 312).filter (fun p => decide p.Prime)).length = 64 ∧
  (∀ pk ∈ ((List.range 312).filter (fun p => decide p.Prime)).zip kTable,
    ∃ c, c ^ 3 ≤ pk.1 * 2 ^ 96 ∧ pk.1 * 2 ^ 96 < (c + 1) ^ 3 ∧ c % 2 ^ 32 = pk.2.toNat) ∧
  ∀ pk ∈ [2, 3, 5, 7, 11, 13, 17, 19].zip [initialHash.a, initialHash.b, initialHash.c, initialHash.d,
      initialHash.e, initialHash.f, initialHash.g, initialHash.h],
    ∃ c, c ^ 2 ≤ pk.1 * 2 ^ 64 ∧ pk.1 * 2 ^ 64 < (c + 1) ^ 2 ∧ c % 2 ^ 32 = pk.2.toNat

/-- R105, R104: the message schedule: its first sixteen words are those of the block, each later word is given by
the recurrence. -/
def Obligations.ScheduleFollowsTheRecurrence : Prop :=
  let sigma0 := fun x : Word => x.rotateRight 7 ^^^ x.rotateRight 18 ^^^ (x >>> 3)
  let sigma1 := fun x : Word => x.rotateRight 17 ^^^ x.rotateRight 19 ^^^ (x >>> 10)
  ∀ block : Bytes, block.length = 64 → (schedule block).length = 64 ∧
    (∀ t, t < 16 → (schedule block).getD t 0 = BitVec.ofNat 32 (intOf ((block.drop (4 * t)).take 4))) ∧
    (∀ t, 16 ≤ t → t < 64 → (schedule block).getD t 0 =
      sigma1 ((schedule block).getD (t - 2) 0) + (schedule block).getD (t - 7) 0 +
        sigma0 ((schedule block).getD (t - 15) 0) + (schedule block).getD (t - 16) 0)

/-- R106, R104: the compression of a block: sixty-four simultaneous updates of the eight working variables, added to
the chaining value. -/
def Obligations.CompressionRunsSixtyFourRounds : Prop :=
  ∀ (h : Chain) (block : Bytes), block.length = 64 → ∃ v : Nat → Chain, v 0 = h ∧
    (∀ t, t < 64 →
      let s := v t
      let t1 := s.h + (s.e.rotateRight 6 ^^^ s.e.rotateRight 11 ^^^ s.e.rotateRight 25) +
        ((s.e &&& s.f) ^^^ (~~~s.e &&& s.g)) + kTable.getD t 0 + (schedule block).getD t 0
      let t2 := (s.a.rotateRight 2 ^^^ s.a.rotateRight 13 ^^^ s.a.rotateRight 22) +
        ((s.a &&& s.b) ^^^ (s.a &&& s.c) ^^^ (s.b &&& s.c))
      v (t + 1) = ⟨t1 + t2, s.a, s.b, s.c, s.d + t1, s.e, s.f, s.g⟩) ∧
    compress h block = ⟨h.a + (v 64).a, h.b + (v 64).b, h.c + (v 64).c, h.d + (v 64).d, h.e + (v 64).e, h.f + (v 64).f,
      h.g + (v 64).g, h.h + (v 64).h⟩

/-- R101, R107, R108: the digest: the blocks of the padded message are compressed in order from the initial hash
value, and the eight words of the last chaining value are written most significant byte first. -/
def Obligations.DigestChainsTheBlocksInOrder : Prop :=
  ∀ m : Bytes, ∃ v : Nat → Chain, v 0 = initialHash ∧
    (∀ i, i < (padMessage m).length / 64 → v (i + 1) = compress (v i) (((padMessage m).drop (64 * i)).take 64)) ∧
    let w := v ((padMessage m).length / 64)
    sha256 m = be w.a.toNat 4 ++ be w.b.toNat 4 ++ be w.c.toNat 4 ++ be w.d.toNat 4 ++ be w.e.toNat 4 ++ be w.f.toNat 4 ++
      be w.g.toNat 4 ++ be w.h.toNat 4

/-- R118: the worked trace for "abc": the padded block, the schedule words and the digest. -/
def Obligations.WorkedTraceOfAbc : Prop :=
  let m : Bytes := [0x61, 0x62, 0x63]
  (padMessage m).take 4 = [0x61, 0x62, 0x63, 0x80] ∧
  [0, 15, 16, 17, 18, 19, 63].map (fun t => (schedule (padMessage m)).getD t 0) =
    [0x61626380, 0x00000018, 0x61626380, 0x000f0000, 0x7da86405, 0x600003c6, 0x12b1edeb] ∧
  intOf (sha256 m) = 0xba7816bf8f01cfea414140de5dae2223b00361a396177a9cb410ff61f20015ad

/-- R115: fed piece by piece into an empty accumulator and digested, a message gives what `HASH` gives for
the whole of it, however it was cut. Stated of runs of the machine. -/
def Obligations.IncrementalHashEqualsOneShot : Prop :=
  ∀ (s : State) (parts : List Bytes), s.engine.busy = false → s.engine.hacc = [] →
    parts.flatten.length < 2 ^ 61 → fitsBuf s.params parts.flatten.length = true → fitsBuf s.params 32 = true →
    s.agenda = parts.flatMap feedEvents ++ [.host (.writeCmd 0x00000004), .engine] →
    ∃ t, steps (3 * parts.length + 2) s = .next t ∧ t.agenda = [] ∧ t.engine.busy = false ∧ t.engine.err = 0 ∧
      t.engine.out = some (sha256 parts.flatten) ∧ t.engine.hacc = parts.flatten

/-! ## The mask generator -/

/-- R130, R131, R132, R253: `MGF1` writes the first `ARG` bytes of the concatenated digests of the seed and a
4-byte big-endian counter. A length above 2^37 is accepted at issue and completes with `MaskTooLong`, the
pair (2^37, `ARG`), and `OUT` = ⊥ (for an `ARG` within `MAX_INT_BITS`, as R22 has it in its register). -/
def Obligations.Mgf1WritesTheMaskOrReportsItsLength : Prop :=
  decode 0x00000010 = .ok .mgf1 ∧ ∀ s : State,
    (s.engine.busy = false →
      (s.engine.msg = none ∨ s.engine.arg = none → Refuses (exec .mgf1 s)) ∧
      ∀ seed n, s.engine.msg = some seed → s.engine.arg = some n →
        ((n ≤ 2 ^ 37 ∧ fitsBuf s.params n = false) ∨ 2 ^ 61 ≤ seed.length + 4 → Refuses (exec .mgf1 s)) ∧
        (2 ^ 37 < n ∨ fitsBuf s.params n = true → seed.length + 4 < 2 ^ 61 →
          exec .mgf1 s = .next { s with engine := { s.engine with busy := true, latch := some (.mgf1 seed n) } })) ∧
    (∀ seed n, s.Running (.mgf1 seed n) → n ≤ 2 ^ 37 → fitsBuf s.params n = true →
      ∃ mask : Bytes, mask.length = n ∧
        mask = ((List.range ((n + 31) / 32)).flatMap (fun c => sha256 (seed ++ be c 4))).take n ∧
        exec .mgf1 s = .next { s with engine := { s.engine with
          out := some mask, err := 0, errinfoExp := 0, errinfoAct := 0, latch := none, busy := false } }) ∧
    (∀ seed n, s.Running (.mgf1 seed n) → 2 ^ 37 < n → fitsInt s.params (n : Nat) = true →
      exec .mgf1 s = .next { s with engine := { s.engine with
        out := none, err := 0x01, errinfoExp := 137438953472, errinfoAct := n, latch := none, busy := false } })

/-- R133 (b), (c): a shorter mask is a prefix of a longer one of the same seed; the mask of length 0 is
empty. -/
def Obligations.ShorterMaskIsAPrefix : Prop :=
  ∀ (seed : Bytes) (n j : Nat), n + j ≤ 2 ^ 37 →
    ∃ x y : Bytes, mgf1 seed n = .ok x ∧ mgf1 seed (n + j) = .ok y ∧ x = y.take n ∧ x.length = n ∧ (n = 0 → x = [])

/-! ## The arithmetic unit -/

/-- R141, R145: `MODEXP` writes (OPA^OPB) mod OPM, for every modulus ≥ 1, even or odd. -/
def Obligations.ModexpWritesThePower : Prop :=
  decode 0x00000021 = .ok .modexp ∧ ∀ s : State,
    (s.engine.busy = false →
      (s.engine.opa = none ∨ s.engine.opb = none ∨ s.engine.opm = none ∨ s.engine.opm = some 0 → Refuses (exec .modexp s)) ∧
      ∀ b x m, s.engine.opa = some b → s.engine.opb = some x → s.engine.opm = some m → m ≠ 0 →
        exec .modexp s = .next { s with engine := { s.engine with busy := true, latch := some (.modexp b x m) } }) ∧
    (∀ b x m, s.Running (.modexp b x m) → m ≠ 0 → fitsInt s.params (b ^ x % m : Nat) = true →
      exec .modexp s = .next { s with engine := { s.engine with
        res0 := some (b ^ x % m), err := 0, errinfoExp := 0, errinfoAct := 0, latch := none, busy := false } })

/-- R143, R146: `MONTMUL` writes the residue t < OPM with t · R ≡ OPA · OPB modulo OPM, where R = 2^r > OPM and
r is `MONT_RBITS(OPM)`: 8 · k(OPM), or a valid override of it, the form of which is the model's (log entry 2). -/
def Obligations.MontmulWritesTheMontgomeryProduct : Prop :=
  decode 0x00000020 = .ok .montmul ∧ ∀ s : State,
    (s.engine.busy = false →
      (s.engine.opa = none ∨ s.engine.opb = none ∨ s.engine.opm = none → Refuses (exec .montmul s)) ∧
      ∀ a b m, s.engine.opa = some a → s.engine.opb = some b → s.engine.opm = some m →
        (m % 2 = 0 ∨ m ≤ a ∨ m ≤ b → Refuses (exec .montmul s)) ∧
        (m % 2 = 1 → a < m → b < m →
          exec .montmul s = .next { s with engine := { s.engine with busy := true, latch := some (.montmul a b m) } })) ∧
    (∀ a b m, s.Running (.montmul a b m) → m % 2 = 1 → a < m → b < m → fitsInt s.params (m : Nat) = true →
      let r := montRBits s.params m
      (s.params.montRbits.lookup m = none → r = 8 * ((bitlen m + 7) / 8)) ∧
      (∀ x, s.params.montRbits.lookup m = some x → m < 2 ^ x → r = x) ∧ m < 2 ^ r ∧
      ∃ t, t < m ∧ t * 2 ^ r % m = a * b % m ∧
        exec .montmul s = .next { s with engine := { s.engine with
          res0 := some t, err := 0, errinfoExp := 0, errinfoAct := 0, latch := none, busy := false } })

/-- R143: the division-free evaluation REDC yields the same natural as the Montgomery product, for every
valid radix exponent. -/
def Obligations.RedcYieldsTheMontgomeryProduct : Prop :=
  ∀ r a b m : Nat, m % 2 = 1 → m < 2 ^ r → a < m → b < m → redc r a b m = montMul r a b m

/-- R144: exponentiation through the Montgomery multiplier equals modular exponentiation, for every odd
modulus, every base and exponent, and every valid radix exponent. -/
def Obligations.MontgomeryExponentiationIsModExp : Prop :=
  ∀ r b x m : Nat, m % 2 = 1 → m < 2 ^ r → montExp r b x m = modExp b x m ∧ modExp b x m = b ^ x % m

/-- R147, R148: `EGCD` writes the gcd and two integers x, y, which meet OPA · x + OPB · y = gcd over the integers.
That contract is all R147 wants a proof to use. Under a bound (R22) the completion takes `fitsInt` of the signed
coefficients: that it measures their absolute values, with no sign bit, is the model's choice (log entry 14). -/
def Obligations.EgcdWritesAGcdAndItsCoefficients : Prop :=
  decode 0x00000022 = .ok .egcd ∧ ∀ s : State,
    (s.engine.busy = false →
      (s.engine.opa = none ∨ s.engine.opb = none → Refuses (exec .egcd s)) ∧
      ∀ a b, s.engine.opa = some a → s.engine.opb = some b →
        exec .egcd s = .next { s with engine := { s.engine with busy := true, latch := some (.egcd a b) } }) ∧
    (∀ a b, s.Running (.egcd a b) →
      ∃ x y : Int, egcd a b = (Nat.gcd a b, x, y) ∧ (a : Int) * x + (b : Int) * y = (Nat.gcd a b : Nat) ∧
        (fitsInt s.params (Nat.gcd a b : Nat) = true → fitsInt s.params x = true → fitsInt s.params y = true →
          exec .egcd s = .next { s with engine := { s.engine with
            res0 := some (Nat.gcd a b), res1 := some x, res2 := some y,
            err := 0, errinfoExp := 0, errinfoAct := 0, latch := none, busy := false } }))

/-- R149, R150, R253, R255: for coprime operands `MODINV` writes the least non-negative d with
(OPA · d) mod OPM = 1 mod OPM. Others give `NoInverse` with a zero context, and `RES0` = ⊥. -/
def Obligations.ModinvWritesTheInverseOrReportsNone : Prop :=
  decode 0x00000023 = .ok .modinv ∧ ∀ s : State,
    (s.engine.busy = false →
      (s.engine.opa = none ∨ s.engine.opm = none ∨ s.engine.opm = some 0 → Refuses (exec .modinv s)) ∧
      ∀ x phi, s.engine.opa = some x → s.engine.opm = some phi → phi ≠ 0 →
        exec .modinv s = .next { s with engine := { s.engine with busy := true, latch := some (.modinv x phi) } }) ∧
    (∀ x phi, s.Running (.modinv x phi) → phi ≠ 0 → Nat.gcd x phi = 1 → fitsInt s.params (phi : Nat) = true →
      ∃ d, d < phi ∧ x * d % phi = 1 % phi ∧
        exec .modinv s = .next { s with engine := { s.engine with
          res0 := some d, err := 0, errinfoExp := 0, errinfoAct := 0, latch := none, busy := false } }) ∧
    (∀ x phi, s.Running (.modinv x phi) → phi ≠ 0 → Nat.gcd x phi ≠ 1 →
      exec .modinv s = .next { s with engine := { s.engine with
        res0 := none, err := 0x02, errinfoExp := 0, errinfoAct := 0, latch := none, busy := false } })

/-! ## Primes and keys -/

/-- R170: the answer of `isPrime` and the draws it consumes: none for n ≤ 4 or even n; otherwise one base a
round, all rounds pass and the answer is true, or the first round that fails ends the test. -/
def Obligations.IsPrimeRunsMillerRabinRounds : Prop :=
  ∀ (n rounds : Nat) (g : Rng),
    (n ≤ 1 → isPrime n rounds g = (false, g)) ∧ (n = 2 ∨ n = 3 → isPrime n rounds g = (true, g)) ∧
    (3 < n → n % 2 = 0 → isPrime n rounds g = (false, g)) ∧
    (3 < n → n % 2 = 1 →
      ((∀ j, j < rounds → PassesRound n (drawBase n (afterBases n j g)).1) →
        isPrime n rounds g = (true, afterBases n rounds g)) ∧
      (∀ j, j < rounds → ¬ PassesRound n (drawBase n (afterBases n j g)).1 →
        (∀ k, k < j → PassesRound n (drawBase n (afterBases n k g)).1) →
        isPrime n rounds g = (false, afterBases n (j + 1) g)))

/-- R171 (a): a prime is accepted for every number of rounds and every draw. -/
def Obligations.EveryPrimeIsAccepted : Prop :=
  ∀ (n rounds : Nat) (g : Rng), n.Prime → (isPrime n rounds g).1 = true

/-- R261, R14: the range of each draw, and every value of a range can be drawn: an answer in range is taken
as it is: every string of 32 bytes is the seed drawn from its value. The statement is about every answer of the
source, the free values included. The form of the source is the model's (log entry 4). -/
def Obligations.DrawsCoverExactlyTheirRanges : Prop :=
  (∀ g : Rng, (drawSeed g).1.length = 32) ∧
  (∀ (n : Nat) (g : Rng), 5 ≤ n → 2 ≤ (drawBase n g).1 ∧ (drawBase n g).1 ≤ n - 2) ∧
  (∀ (bits : Nat) (g : Rng), 1 ≤ bits → (drawCandidate bits g).1 % 2 = 1 ∧ bitlen (drawCandidate bits g).1 = bits) ∧
  (∀ (z : Bytes) (rest : List Nat) (count : Nat), z.length = 32 →
    drawSeed ⟨intOf z :: rest, count⟩ = (z, ⟨rest, count⟩)) ∧
  (∀ (x : Nat) (rest : List Nat) (count : Nat),
    (∀ n, 2 ≤ x → x ≤ n - 2 → drawBase n ⟨x :: rest, count⟩ = (x, ⟨rest, count⟩)) ∧
    (x % 2 = 1 → drawCandidate (bitlen x) ⟨x :: rest, count⟩ = (x, ⟨rest, count⟩)))

/-- R172: `ISPRIME` writes the answer of the test to `STATUS.PRIME`, with `ERR` = 0 for a composite too. It takes
its draws from the source, and always completes. -/
def Obligations.IsprimeWritesThePrimeFlag : Prop :=
  decode 0x00000030 = .ok .isprime ∧ ∀ s : State,
    (s.engine.busy = false →
      (s.engine.opa = none → Refuses (exec .isprime s)) ∧
      ∀ n, s.engine.opa = some n →
        exec .isprime s = .next { s with engine := { s.engine with
          busy := true, latch := some (.isprime n s.engine.rounds) } }) ∧
    (∀ n rounds, s.Running (.isprime n rounds) →
      exec .isprime s = .next { s with
        rng := (isPrime n rounds s.rng).2
        engine := { s.engine with
          prime := (isPrime n rounds s.rng).1, err := 0, errinfoExp := 0, errinfoAct := 0, latch := none, busy := false } })

/-- R173, R174: `GENPRIME` draws an odd candidate of exactly `ARG` bits, tests it with 40 rounds whatever `ROUNDS`
holds, completes with the candidate in `RES0` if it is accepted, and discards it and goes on if not. That an
attempt takes two steps of the engine, with the candidate kept in `LATCH` between them, is the model's choice
(log entry 6). -/
def Obligations.GenprimeDrawsUntilACandidateIsAccepted : Prop :=
  decode 0x00000031 = .ok .genprime ∧ ∀ s : State,
    (s.engine.busy = false →
      (s.engine.arg = none ∨ s.engine.arg = some 0 → Refuses (exec .genprime s)) ∧
      ∀ bits, s.engine.arg = some bits → bits ≠ 0 →
        exec .genprime s = .next { s with engine := { s.engine with busy := true, latch := some (.genprime bits none) } }) ∧
    (∀ bits, s.Running (.genprime bits none) → bits ≠ 0 →
      ∃ c, (c, (drawCandidate bits s.rng).2) = drawCandidate bits s.rng ∧ c % 2 = 1 ∧ 2 ^ (bits - 1) ≤ c ∧ c < 2 ^ bits ∧
        exec .genprime s = .next { s with
          rng := (drawCandidate bits s.rng).2
          engine := { s.engine with latch := some (.genprime bits (some c)) } }) ∧
    (∀ bits c, s.Running (.genprime bits (some c)) →
      ((isPrime c 40 s.rng).1 = true → fitsInt s.params (c : Nat) = true →
        exec .genprime s = .next { s with
          rng := (isPrime c 40 s.rng).2
          engine := { s.engine with
            res0 := some c, err := 0, errinfoExp := 0, errinfoAct := 0, latch := none, busy := false } }) ∧
      ((isPrime c 40 s.rng).1 = false →
        exec .genprime s = .next { s with
          rng := (isPrime c 40 s.rng).2
          engine := { s.engine with latch := some (.genprime bits none) } }))

/-- R177 (a): `GENPRIME` with `ARG` = 1 never completes: `BUSY` is 1 after any number of steps the engine
takes. -/
def Obligations.GenprimeOfOneBitNeverCompletes : Prop :=
  ∀ (s : State) (k : Nat), s.engine.busy = false → s.engine.arg = some 1 →
    s.agenda = .host (.writeCmd 0x00000031) :: List.replicate k .engine →
    ∃ t, steps (k + 1) s = .next t ∧ t.agenda = [] ∧ t.engine.busy = true

/-- R190, R191, R197, R255: `GENKEY` of a supported size finds p completely and then q, each as `GENPRIME` with half
the bits. A success writes n = p · q, e = 65537, the reduced d with e · d ≡ 1 modulo (p − 1)(q − 1), p and q
together. When e has no inverse it completes with `NoInverse`, a zero context and all five key registers ⊥. -/
def Obligations.GenkeyWritesTheKeyPairOrReportsNone : Prop :=
  decode 0x00000032 = .ok .genkey ∧ ∀ s : State,
    (s.engine.busy = false →
      (s.engine.arg = none → Refuses (exec .genkey s)) ∧
      ∀ bits, s.engine.arg = some bits →
        (bits ∉ s.params.supportedBits → Refuses (exec .genkey s)) ∧
        (bits ∈ s.params.supportedBits → bits % 2 = 0 → 4 ≤ bits →
          exec .genkey s = .next { s with engine := { s.engine with
            busy := true, latch := some (.genkey bits none none) } })) ∧
    (∀ bits p, s.Running (.genkey bits p none) →
      exec .genkey s = .next { s with
        rng := (drawCandidate (bits / 2) s.rng).2
        engine := { s.engine with latch := some (.genkey bits p (some (drawCandidate (bits / 2) s.rng).1)) } }) ∧
    (∀ bits p c, s.Running (.genkey bits p (some c)) → (isPrime c 40 s.rng).1 = false →
      exec .genkey s = .next { s with
        rng := (isPrime c 40 s.rng).2, engine := { s.engine with latch := some (.genkey bits p none) } }) ∧
    (∀ bits c, s.Running (.genkey bits none (some c)) → (isPrime c 40 s.rng).1 = true →
      exec .genkey s = .next { s with
        rng := (isPrime c 40 s.rng).2, engine := { s.engine with latch := some (.genkey bits (some c) none) } }) ∧
    (∀ bits p q, s.Running (.genkey bits (some p) (some q)) → (isPrime q 40 s.rng).1 = true → 1 < p → 1 < q →
      (Nat.gcd 65537 ((p - 1) * (q - 1)) = 1 →
        fitsInt s.params (p * q : Nat) = true → fitsInt s.params (65537 : Nat) = true →
        ∃ d, d < (p - 1) * (q - 1) ∧ 65537 * d % ((p - 1) * (q - 1)) = 1 % ((p - 1) * (q - 1)) ∧
          exec .genkey s = .next { s with
            rng := (isPrime q 40 s.rng).2
            engine := { s.engine with
              kn := some (p * q), ke := some 65537, kd := some d, kp := some p, kq := some q,
              err := 0, errinfoExp := 0, errinfoAct := 0, latch := none, busy := false } }) ∧
      (Nat.gcd 65537 ((p - 1) * (q - 1)) ≠ 1 →
        exec .genkey s = .next { s with
          rng := (isPrime q 40 s.rng).2
          engine := { s.engine with
            kn := none, ke := none, kd := none, kp := none, kq := none,
            err := 0x02, errinfoExp := 0, errinfoAct := 0, latch := none, busy := false } }))

/-- R192: key derivation finds no inverse of 65537 exactly when 65537 divides p − 1 or q − 1; the gcd the descent
gives is then a power of 65537. The smallest odd prime of that form is 917519, of 20 bits, and a pair with it
has no inverse. So `GENKEY` of a size below 40 succeeds when the numbers it accepted are prime. Their
primality is a premise: forty rounds can accept a composite (R193). The latched p and q are log entry 6's. -/
def Obligations.NoInverseNeedsAPrimeOfItsForm : Prop :=
  (∀ p q : Nat, 1 < p → 1 < q →
    (modInverse Config.eFixed ((p - 1) * (q - 1)) = none ↔ 65537 ∣ p - 1 ∨ 65537 ∣ q - 1)) ∧
  (∀ p q : Nat, ∃ j, (egcd Config.eFixed ((p - 1) * (q - 1))).1 = 65537 ^ j) ∧
  (∀ p : Nat, p.Prime → p % 2 = 1 → 65537 ∣ p - 1 → 917519 ≤ p) ∧ Nat.Prime 917519 ∧ bitlen 917519 = 20 ∧
  modInverse Config.eFixed ((917519 - 1) * (524309 - 1)) = none ∧
  (∀ (s : State) (bits p q : Nat), s.Inv → s.Running (.genkey bits (some p) (some q)) → p.Prime → q.Prime →
    bits < 40 → fitsInt s.params (p * q : Nat) = true → fitsInt s.params (65537 : Nat) = true →
    ∃ t, exec .genkey s = .next t ∧ t.engine.busy = false ∧ t.engine.err = 0 ∧ t.engine.kn = some (p * q))

/-- R193, R195: the invariants of the key pair after a successful `GENKEY`, and the size of its modulus. That `LATCH`
keeps p and the candidate q is the model's choice (log entry 6). -/
def Obligations.GeneratedKeyPairMeetsItsInvariants : Prop :=
  ∀ (s t : State) (bits p q : Nat), s.Inv → s.Running (.genkey bits (some p) (some q)) →
    exec .genkey s = .next t → t.engine.busy = false → t.engine.err = 0 →
    ∃ d, t.engine.kn = some (p * q) ∧ t.engine.ke = some 65537 ∧ t.engine.kd = some d ∧ t.engine.kp = some p ∧
      t.engine.kq = some q ∧ t.engine.arg = some bits ∧
      65537 * d % ((p - 1) * (q - 1)) = 1 ∧ Nat.Coprime ((p - 1) * (q - 1)) 65537 ∧
      0 < d ∧ d < (p - 1) * (q - 1) ∧ bitlen p = bits / 2 ∧ bitlen q = bits / 2 ∧ p % 2 = 1 ∧ q % 2 = 1 ∧
      Accepted p ∧ Accepted q ∧ 2 ^ (bits - 2) ≤ p * q ∧ p * q < 2 ^ bits ∧
      (bitlen (p * q) = bits ∨ bitlen (p * q) = bits - 1) ∧ (bits % 8 = 0 → byteLen (p * q) = bits / 8)

/-! ## The OAEP codec -/

/-- R130, R201, R252: the codec's masks have the length asked for, and up to 2^37 bytes they are those of MGF1. Beyond,
R130 gives no mask and the codec raises no error, so the bytes are a free value (log entry 8, DESIGN CHOICE). -/
def Obligations.CodecMasksAreThoseOfMgf1 : Prop :=
  ∀ (seed : Bytes) (n : Nat), (innerMask seed n).length = n ∧
    (n ≤ 2 ^ 37 → mgf1 seed n = .ok (innerMask seed n) ∧
      innerMask seed n = ((List.range ((n + 31) / 32)).flatMap (fun c => sha256 (seed ++ be c 4))).take n)

/-- R201, R202, R253: a message that fits is encoded with one seed drawn at completion: the ciphertext block is the
k-byte string of EM^e mod n, with EM built from the label's digest, the padding and the two masks. A message
longer than k − 66 gives `MessageTooLong` with the pair (max(k − 66, 0), len), `OUT` = ⊥, and no seed is drawn.
A modulus so long that 2^61 bytes would be hashed is refused (R109), at completion (log entry 11). The masks
beyond 2^37 bytes are log entry 8's, the bound on the context log entry 9's. -/
def Obligations.OaepEncWritesTheBlockOrReportsTheLength : Prop :=
  decode 0x00000040 = .ok .oaepEnc ∧ ∀ s : State,
    (s.engine.busy = false →
      (s.engine.msg = none ∨ s.engine.kn = none ∨ s.engine.ke = none ∨ 2 ^ 61 ≤ s.engine.lbl.length →
        Refuses (exec .oaepEnc s)) ∧
      ∀ m n x, s.engine.msg = some m → s.engine.kn = some n → s.engine.ke = some x → s.engine.lbl.length < 2 ^ 61 →
        exec .oaepEnc s = .next { s with engine := { s.engine with
          busy := true, latch := some (.oaepEnc m s.engine.lbl n x) } }) ∧
    (∀ m lbl n x, s.Running (.oaepEnc m lbl n x) → m.length + 66 ≤ byteLen n → byteLen n < 2 ^ 61 + 29 →
      fitsBuf s.params (byteLen n) = true →
      let seed := (drawSeed s.rng).1
      let db := sha256 lbl ++ List.replicate (byteLen n - 66 - m.length) 0x00 ++ [0x01] ++ m
      let maskedDB := xorBytes db (innerMask seed (byteLen n - 33))
      let maskedSeed := xorBytes seed (innerMask maskedDB 32)
      let em := [0x00] ++ maskedSeed ++ maskedDB
      em.length = byteLen n ∧
      exec .oaepEnc s = .next { s with
        rng := (drawSeed s.rng).2
        engine := { s.engine with
          out := some (be (intOf em ^ x % n) (byteLen n)),
          err := 0, errinfoExp := 0, errinfoAct := 0, latch := none, busy := false } }) ∧
    (∀ m lbl n x, s.Running (.oaepEnc m lbl n x) → m.length + 66 ≤ byteLen n → 2 ^ 61 + 29 ≤ byteLen n →
      Refuses (exec .oaepEnc s)) ∧
    (∀ m lbl n x, s.Running (.oaepEnc m lbl n x) → byteLen n < m.length + 66 →
      fitsInt s.params (m.length : Nat) = true →
      exec .oaepEnc s = .next { s with engine := { s.engine with
        out := none, err := 0x04, errinfoExp := (max ((byteLen n : Int) - 66) 0).toNat, errinfoAct := m.length,
        latch := none, busy := false } })

/-- R203: EM is always smaller than the modulus, and the ciphertext integer is below 256^k, whatever bytes the free
masks of log entry 8 have. -/
def Obligations.EncodedMessageIsBelowTheModulus : Prop :=
  ∀ (n x : Nat) (m lbl seed : Bytes), m.length + 66 ≤ byteLen n → seed.length = 32 →
    let em := encodedMessage (byteLen n) m lbl seed
    em.length = byteLen n ∧ intOf em < n ∧ modExp (intOf em) x n < 256 ^ byteLen n

/-- R204, R205, R210, R253, R254: `OAEP_DEC`, its refusals, its four checks in order and its result. A modulus so long
that 2^61 bytes would be hashed is refused when the masks are reached (R109), at completion (log entry 11). The
masks beyond 2^37 bytes are log entry 8's, the bound on the context log entry 9's. -/
def Obligations.OaepDecMakesItsChecksInOrder : Prop :=
  decode 0x00000041 = .ok .oaepDec ∧ ∀ s : State,
    (s.engine.busy = false →
      (s.engine.msg = none ∨ s.engine.kn = none ∨ s.engine.kd = none ∨ 2 ^ 61 ≤ s.engine.lbl.length →
        Refuses (exec .oaepDec s)) ∧
      ∀ c n d, s.engine.msg = some c → s.engine.kn = some n → s.engine.kd = some d →
        (byteLen n < 66 → Refuses (exec .oaepDec s)) ∧
        (66 ≤ byteLen n → s.engine.lbl.length < 2 ^ 61 →
          exec .oaepDec s = .next { s with engine := { s.engine with
            busy := true, latch := some (.oaepDec c s.engine.lbl n d) } })) ∧
    (∀ c lbl n d, s.Running (.oaepDec c lbl n d) → 66 ≤ byteLen n →
      let fails := fun (code : BitVec 8) (exp act : Nat) => exec .oaepDec s = .next { s with engine := { s.engine with
        out := none, err := code, errinfoExp := exp, errinfoAct := act, latch := none, busy := false } }
      let em := be (intOf c ^ d % n) (byteLen n)
      let maskedDB := em.drop 33
      let seed := xorBytes ((em.drop 1).take 32) (innerMask maskedDB 32)
      let db := xorBytes maskedDB (innerMask seed (byteLen n - 33))
      (c.length ≠ byteLen n → fitsInt s.params (byteLen n : Nat) = true → fitsInt s.params (c.length : Nat) = true →
        fails 0x05 (byteLen n) c.length) ∧
      (c.length = byteLen n → em.head? ≠ some 0x00 → fails 0x06 0 0) ∧
      (c.length = byteLen n → em.head? = some 0x00 → 2 ^ 61 + 29 ≤ byteLen n → Refuses (exec .oaepDec s)) ∧
      (c.length = byteLen n → em.head? = some 0x00 → byteLen n < 2 ^ 61 + 29 → db.take 32 ≠ sha256 lbl →
        fails 0x07 0 0) ∧
      (c.length = byteLen n → em.head? = some 0x00 → byteLen n < 2 ^ 61 + 29 → db.take 32 = sha256 lbl →
        (¬ ∃ z msg, db.drop 32 = List.replicate z 0x00 ++ [0x01] ++ msg) → fails 0x06 0 0) ∧
      (∀ z msg, c.length = byteLen n → em.head? = some 0x00 → byteLen n < 2 ^ 61 + 29 → db.take 32 = sha256 lbl →
        db.drop 32 = List.replicate z 0x00 ++ [0x01] ++ msg → fitsBuf s.params msg.length = true →
        exec .oaepDec s = .next { s with engine := { s.engine with
          out := some msg, err := 0, errinfoExp := 0, errinfoAct := 0, latch := none, busy := false } }))

/-- U20 of `93_implementation_defined.md`, R204: a block is not compared with the modulus; it decodes like
its residue. -/
def Obligations.BlocksDecodeLikeTheirResidues : Prop :=
  ∀ (c lbl : Bytes) (n d : Nat), c.length = byteLen n →
    oaepDecode c n d lbl = oaepDecode (be (intOf c % n) (byteLen n)) n d lbl

/-- R207: for a modulus that is a product of two distinct primes and exponents inverse modulo
(p − 1)(q − 1), decoding undoes encoding, for every message that fits, every label and every seed. It holds
whatever the free masks beyond 2^37 bytes are (log entry 8). -/
def Obligations.OaepDecodeUndoesEncode : Prop :=
  ∀ (p q x d : Nat) (m lbl seed : Bytes), p.Prime → q.Prime → p ≠ q →
    x * d % ((p - 1) * (q - 1)) = 1 → 66 ≤ byteLen (p * q) →
    m.length ≤ byteLen (p * q) - 66 → seed.length = 32 →
    ∃ c, oaepEncode m (p * q) x lbl seed = .ok c ∧ c.length = byteLen (p * q) ∧ oaepDecode c (p * q) d lbl = .ok m

/-- R208: under the premises of R207, decoding with another label fails with `InvalidLabelHash` exactly when
the two labels' digests differ. -/
def Obligations.WrongLabelFailsOnTheLabelHash : Prop :=
  ∀ (p q x d : Nat) (m lbl lbl' seed c : Bytes), p.Prime → q.Prime → p ≠ q →
    x * d % ((p - 1) * (q - 1)) = 1 → seed.length = 32 → oaepEncode m (p * q) x lbl seed = .ok c →
    (oaepDecode c (p * q) d lbl' = .error (.raise .invalidLabelHash 0 0) ↔ sha256 lbl' ≠ sha256 lbl)

/-! ## The whole machine -/

/-- R87, R255, R83: a step of a command leaves every register alone that is neither a destination of the
command nor `STATUS`, `ERRINFO_EXP` or `ERRINFO_ACT`; `STATUS.PRIME` belongs to `ISPRIME` alone; the
parameters, the agenda, the host's reads and the answers fixed for the next command are untouched; only the four
commands that draw consume draws. -/
def Obligations.CommandsWriteOnlyTheirDestinations : Prop :=
  ∀ (i : Instr) (s t : State), exec i s = .next t →
    (∀ r, r ∉ destinations i → r ≠ .status → r ≠ .errinfoExp → r ≠ .errinfoAct →
      t.engine.content r = s.engine.content r) ∧
    (i ≠ .isprime → t.engine.prime = s.engine.prime) ∧
    t.params = s.params ∧ t.agenda = s.agenda ∧ t.reads = s.reads ∧ t.nextAnswers = s.nextAnswers ∧
    (i ∉ [.isprime, .genprime, .genkey, .oaepEnc] → t.rng = s.rng)

/-- R252, R255: the errors each command can complete with, and that every destination of a command that
completes with an error is ⊥. -/
def Obligations.FailedCommandsRaiseTheirErrorAndInvalidate : Prop :=
  ∀ (i : Instr) (s t : State), s.engine.busy = true → exec i s = .next t → t.engine.busy = false →
    (t.engine.err ≠ 0 → ∀ r ∈ destinations i, t.engine.content r = none) ∧
    (t.engine.err = 0 ∨ (i = .mgf1 ∧ t.engine.err = 0x01) ∨ ((i = .modinv ∨ i = .genkey) ∧ t.engine.err = 0x02) ∨
    (i = .oaepEnc ∧ t.engine.err = 0x04) ∨
    (i = .oaepDec ∧ (t.engine.err = 0x05 ∨ t.engine.err = 0x06 ∨ t.engine.err = 0x07)))

/-- R26, R38: over a step of the machine, `STATUS.PRIME` changes only by `ISPRIME` or reset, and `HACC` only
by `H_INIT`, `H_UPDATE` or reset. -/
def Obligations.PrimeAndAccumulatorHaveOneWriter : Prop :=
  ∀ s t : State, step s = .next t → s.agenda.head? ≠ some .reset →
    (t.engine.prime ≠ s.engine.prime → ∃ n rounds, s.Running (.isprime n rounds)) ∧
    (t.engine.hacc ≠ s.engine.hacc → s.Running .hInit ∨ ∃ m h, s.Running (.hUpdate m h))

/-- R22: a command's result, or the context of its error, that exceeds `MAX_BUF_BYTES` or `MAX_INT_BITS` is refused,
never truncated. `H_UPDATE` and `MGF1` are refused at their issue already (R112, R132). That the others are
refused at completion is the model's reading (log entry 11, DEDUCED), as is the bound on the context (log entry
9), and the measure of `EGCD`'s signed coefficients, their absolute values with no sign bit, is the model's choice
(log entry 14). The flag of `ISPRIME`, the empty accumulator and the zero context of the other errors fit every bound. -/
def Obligations.ResultsBeyondTheBoundsAreRefused : Prop :=
  ∀ s : State,
    (∀ m, s.Running (.hash m) → fitsBuf s.params 32 = false → Refuses (exec .hash s)) ∧
    (∀ h, s.Running (.hDigest h) → fitsBuf s.params 32 = false → Refuses (exec .hDigest s)) ∧
    (∀ h, s.Running (.hHexdigest h) → fitsBuf s.params 64 = false → Refuses (exec .hHexdigest s)) ∧
    (s.engine.busy = false → ∀ m, s.engine.msg = some m →
      fitsBuf s.params (s.engine.hacc.length + m.length) = false → Refuses (exec .hUpdate s)) ∧
    (s.engine.busy = false → ∀ m n, s.engine.msg = some m → s.engine.arg = some n → n ≤ 2 ^ 37 →
      fitsBuf s.params n = false → Refuses (exec .mgf1 s)) ∧
    (∀ seed n, s.Running (.mgf1 seed n) → 2 ^ 37 < n → fitsInt s.params (n : Nat) = false → Refuses (exec .mgf1 s)) ∧
    (∀ a b m, s.Running (.montmul a b m) → fitsInt s.params (montMul (montRBits s.params m) a b m : Nat) = false →
      Refuses (exec .montmul s)) ∧
    (∀ b x m, s.Running (.modexp b x m) → fitsInt s.params (b ^ x % m : Nat) = false → Refuses (exec .modexp s)) ∧
    (∀ a b, s.Running (.egcd a b) → fitsInt s.params (Nat.gcd a b : Nat) = false ∨
      fitsInt s.params (egcd a b).2.1 = false ∨ fitsInt s.params (egcd a b).2.2 = false → Refuses (exec .egcd s)) ∧
    (∀ x phi d, s.Running (.modinv x phi) → modInverse x phi = some d → fitsInt s.params (d : Nat) = false →
      Refuses (exec .modinv s)) ∧
    (∀ bits c, s.Running (.genprime bits (some c)) → (isPrime c 40 s.rng).1 = true →
      fitsInt s.params (c : Nat) = false → Refuses (exec .genprime s)) ∧
    (∀ bits p q, s.Running (.genkey bits (some p) (some q)) → (isPrime q 40 s.rng).1 = true →
      Nat.gcd 65537 ((p - 1) * (q - 1)) = 1 →
      fitsInt s.params (p * q : Nat) = false ∨ fitsInt s.params (65537 : Nat) = false → Refuses (exec .genkey s)) ∧
    (∀ m lbl n x, s.Running (.oaepEnc m lbl n x) → m.length + 66 ≤ byteLen n →
      fitsBuf s.params (byteLen n) = false → Refuses (exec .oaepEnc s)) ∧
    (∀ m lbl n x, s.Running (.oaepEnc m lbl n x) → byteLen n < m.length + 66 →
      fitsInt s.params (m.length : Nat) = false → Refuses (exec .oaepEnc s)) ∧
    (∀ c lbl n d msg, s.Running (.oaepDec c lbl n d) → oaepDecode c n d lbl = .ok msg →
      fitsBuf s.params msg.length = false → Refuses (exec .oaepDec s)) ∧
    (∀ c lbl n d, s.Running (.oaepDec c lbl n d) → c.length ≠ byteLen n →
      fitsInt s.params (byteLen n : Nat) = false ∨ fitsInt s.params (c.length : Nat) = false → Refuses (exec .oaepDec s))

/-- R32: no command reads `KP` or `KQ`: with other contents there, the outcome differs in nothing but these
two registers. -/
def Obligations.NoCommandReadsTheStoredPrimes : Prop :=
  ∀ (i : Instr) (s : State) (x y : Option Nat),
    let changed := fun (u : State) (a b : Option Nat) => { u with engine := { u.engine with kp := a, kq := b } }
    (∀ t, exec i s = .next t → ∃ t', exec i (changed s x y) = .next t' ∧ changed t' none none = changed t none none) ∧
    (∀ r, exec i s = .refused r → exec i (changed s x y) = .refused r)

/-- R289 (d), R177: every command but `GENPRIME` and `GENKEY` completes in one step of the engine, in every
state that meets the invariant, when the bounds of R22 are unset and, for the OAEP commands, the modulus is
not so long that 2^61 bytes would be hashed (R109). One step of the engine is log entry 6's choice. -/
def Obligations.OtherCommandsAlwaysComplete : Prop :=
  ∀ (s : State) (l : Latch), s.Inv → s.Running l → s.params.maxIntBits = none → s.params.maxBufBytes = none →
    l.instr ≠ .genprime → l.instr ≠ .genkey →
    (∀ m lbl n x, l = .oaepEnc m lbl n x ∨ l = .oaepDec m lbl n x → byteLen n < 2 ^ 61 + 29) →
    ∃ t, exec l.instr s = .next t ∧ t.engine.busy = false ∧ t.engine.latch = none

/-- R25, R69, R87, R90: `RUN` of an accepted command other than `GENPRIME` and `GENKEY` takes four steps: the
write of its word, a `STATUS` read that shows `BUSY` = 1, the engine's completion, and a `STATUS` read that
shows `BUSY` = 0. The host is then at its next action, and the engine is idle. The order of steps is the
agenda's (log entry 3), the transcript is the model's own (log entry 5), and that `WAIT` gives the engine one
step a poll is the model's choice (log entry 16). The premise on the modulus is R109's. -/
def Obligations.RunOfATerminatingCommandEndsIdle : Prop :=
  ∀ (i : Instr) (s u : State) (rest : List Event), s.Inv → s.engine.busy = false → i ≠ .genprime → i ≠ .genkey →
    s.params.maxIntBits = none → s.params.maxBufBytes = none →
    (∀ n, s.engine.kn = some n → byteLen n < 2 ^ 61 + 29) →
    s.agenda = Script.run i ++ rest → exec i s = .next u →
    ∃ (t : State) (w : Word), steps 4 s = .next t ∧ t.agenda = rest ∧ t.engine.busy = false ∧ t.engine.latch = none ∧
      t.reads = .word (statusWord t.engine) :: .word w :: s.reads ∧
      statusBusy w = true ∧ statusBusy (statusWord t.engine) = false

/-- R240, R235, R236, R90: the host's codec sequences: each string is written, the command is run and `ERR?` read.
After an error `OUT` holds ⊥, and the host leaves out its read and every later string. After a success `OUT` is
read and the sequence goes on. The host's branch as skipped events is the model's form (log entry 17), and so
are the agenda, the transcript and the pace of `WAIT` (log entries 3, 5 and 16). -/
def Obligations.CodecSequencesStopAtTheFirstError : Prop :=
  ∀ (s : State) (i : Instr) (n : Nat) (x : Bytes) (more : List Bytes) (later : List Event),
    s.Inv → s.engine.busy = false → s.params.maxIntBits = none → s.params.maxBufBytes = none →
    s.engine.kn = some n → 66 ≤ byteLen n → byteLen n < 2 ^ 61 + 29 → s.engine.lbl.length < 2 ^ 61 →
    (i = .oaepEnc ∧ s.engine.ke ≠ none ∨ i = .oaepDec ∧ s.engine.kd ≠ none) →
    s.agenda = Script.forEach i (x :: more) ++ later →
    ∃ t, steps 6 s = .next t ∧ t.engine.busy = false ∧ t.engine.msg = some x ∧
      (t.engine.err ≠ 0 → t.agenda = later ∧ t.engine.out = none) ∧
      (t.engine.err = 0 → ∃ out, t.engine.out = some out ∧
        steps 7 s = .next { t with agenda := Script.forEach i more ++ later, reads := .bytes out :: t.reads })

/-- The reset state meets the invariant. -/
def Obligations.ResetStateMeetsTheInvariant : Prop := State.reset.Inv

/-- R22, R25, R72, R84, R251, R253: every step keeps the invariant: `BUSY` agrees with `LATCH`, `ERR` holds one
of the eight codes and the context agrees with it, the latched operands are legal and still the contents
of their registers, and every register fits its bound (of a signed register the absolute value is measured, the
model's choice: log entry 14). A state that meets it is never stuck. -/
def Obligations.EveryStepKeepsTheInvariant : Prop :=
  ∀ s : State, s.Inv → s.Safe ∧ ∀ t, step s = .next t → t.Inv
end

