-- ==== Sys2Proof/Laws/State.lean ====
section
/-! SUPPORT. One lemma per field per update of the state, each true by computation, so that no later proof
unfolds a record update. -/

namespace Sys2Proof.Machine

variable (s : State) (e : Engine) (l : Latch) (r : Result) (g : Rng) (v : HostValue)
  (i : Instr) (x : Err) (code : BitVec 8) (exp act : Nat)

/-! ### accept -/

@[simp] theorem accept_params : (s.accept l).params = s.params := rfl
@[simp] theorem accept_agenda : (s.accept l).agenda = s.agenda := rfl
@[simp] theorem accept_rng : (s.accept l).rng = s.rng := rfl
@[simp] theorem accept_reads : (s.accept l).reads = s.reads := rfl
@[simp] theorem accept_nextAnswers : (s.accept l).nextAnswers = s.nextAnswers := rfl
@[simp] theorem accept_engine_busy : (s.accept l).engine.busy = true := rfl
@[simp] theorem accept_engine_prime : (s.accept l).engine.prime = s.engine.prime := rfl
@[simp] theorem accept_engine_err : (s.accept l).engine.err = s.engine.err := rfl
@[simp] theorem accept_engine_errinfoExp : (s.accept l).engine.errinfoExp = s.engine.errinfoExp := rfl
@[simp] theorem accept_engine_errinfoAct : (s.accept l).engine.errinfoAct = s.engine.errinfoAct := rfl
@[simp] theorem accept_engine_arg : (s.accept l).engine.arg = s.engine.arg := rfl
@[simp] theorem accept_engine_rounds : (s.accept l).engine.rounds = s.engine.rounds := rfl
@[simp] theorem accept_engine_kn : (s.accept l).engine.kn = s.engine.kn := rfl
@[simp] theorem accept_engine_ke : (s.accept l).engine.ke = s.engine.ke := rfl
@[simp] theorem accept_engine_kd : (s.accept l).engine.kd = s.engine.kd := rfl
@[simp] theorem accept_engine_kp : (s.accept l).engine.kp = s.engine.kp := rfl
@[simp] theorem accept_engine_kq : (s.accept l).engine.kq = s.engine.kq := rfl
@[simp] theorem accept_engine_opa : (s.accept l).engine.opa = s.engine.opa := rfl
@[simp] theorem accept_engine_opb : (s.accept l).engine.opb = s.engine.opb := rfl
@[simp] theorem accept_engine_opm : (s.accept l).engine.opm = s.engine.opm := rfl
@[simp] theorem accept_engine_res0 : (s.accept l).engine.res0 = s.engine.res0 := rfl
@[simp] theorem accept_engine_res1 : (s.accept l).engine.res1 = s.engine.res1 := rfl
@[simp] theorem accept_engine_res2 : (s.accept l).engine.res2 = s.engine.res2 := rfl
@[simp] theorem accept_engine_msg : (s.accept l).engine.msg = s.engine.msg := rfl
@[simp] theorem accept_engine_lbl : (s.accept l).engine.lbl = s.engine.lbl := rfl
@[simp] theorem accept_engine_out : (s.accept l).engine.out = s.engine.out := rfl
@[simp] theorem accept_engine_hacc : (s.accept l).engine.hacc = s.engine.hacc := rfl
@[simp] theorem accept_engine_latch : (s.accept l).engine.latch = some l := rfl

/-! ### progress -/

@[simp] theorem progress_params : (s.progress l).params = s.params := rfl
@[simp] theorem progress_agenda : (s.progress l).agenda = s.agenda := rfl
@[simp] theorem progress_rng : (s.progress l).rng = s.rng := rfl
@[simp] theorem progress_reads : (s.progress l).reads = s.reads := rfl
@[simp] theorem progress_nextAnswers : (s.progress l).nextAnswers = s.nextAnswers := rfl
@[simp] theorem progress_engine_busy : (s.progress l).engine.busy = s.engine.busy := rfl
@[simp] theorem progress_engine_prime : (s.progress l).engine.prime = s.engine.prime := rfl
@[simp] theorem progress_engine_err : (s.progress l).engine.err = s.engine.err := rfl
@[simp] theorem progress_engine_errinfoExp : (s.progress l).engine.errinfoExp = s.engine.errinfoExp := rfl
@[simp] theorem progress_engine_errinfoAct : (s.progress l).engine.errinfoAct = s.engine.errinfoAct := rfl
@[simp] theorem progress_engine_arg : (s.progress l).engine.arg = s.engine.arg := rfl
@[simp] theorem progress_engine_rounds : (s.progress l).engine.rounds = s.engine.rounds := rfl
@[simp] theorem progress_engine_kn : (s.progress l).engine.kn = s.engine.kn := rfl
@[simp] theorem progress_engine_ke : (s.progress l).engine.ke = s.engine.ke := rfl
@[simp] theorem progress_engine_kd : (s.progress l).engine.kd = s.engine.kd := rfl
@[simp] theorem progress_engine_kp : (s.progress l).engine.kp = s.engine.kp := rfl
@[simp] theorem progress_engine_kq : (s.progress l).engine.kq = s.engine.kq := rfl
@[simp] theorem progress_engine_opa : (s.progress l).engine.opa = s.engine.opa := rfl
@[simp] theorem progress_engine_opb : (s.progress l).engine.opb = s.engine.opb := rfl
@[simp] theorem progress_engine_opm : (s.progress l).engine.opm = s.engine.opm := rfl
@[simp] theorem progress_engine_res0 : (s.progress l).engine.res0 = s.engine.res0 := rfl
@[simp] theorem progress_engine_res1 : (s.progress l).engine.res1 = s.engine.res1 := rfl
@[simp] theorem progress_engine_res2 : (s.progress l).engine.res2 = s.engine.res2 := rfl
@[simp] theorem progress_engine_msg : (s.progress l).engine.msg = s.engine.msg := rfl
@[simp] theorem progress_engine_lbl : (s.progress l).engine.lbl = s.engine.lbl := rfl
@[simp] theorem progress_engine_out : (s.progress l).engine.out = s.engine.out := rfl
@[simp] theorem progress_engine_hacc : (s.progress l).engine.hacc = s.engine.hacc := rfl
@[simp] theorem progress_engine_latch : (s.progress l).engine.latch = some l := rfl

/-! ### succeed -/

@[simp] theorem succeed_params : (s.succeed r).params = s.params := rfl
@[simp] theorem succeed_agenda : (s.succeed r).agenda = s.agenda := rfl
@[simp] theorem succeed_rng : (s.succeed r).rng = s.rng := rfl
@[simp] theorem succeed_reads : (s.succeed r).reads = s.reads := rfl
@[simp] theorem succeed_nextAnswers : (s.succeed r).nextAnswers = s.nextAnswers := rfl
@[simp] theorem succeed_engine : (s.succeed r).engine = (r.write s.engine).finish successCode 0 0 := rfl

/-! ### withRng -/

@[simp] theorem withRng_params : (s.withRng g).params = s.params := rfl
@[simp] theorem withRng_agenda : (s.withRng g).agenda = s.agenda := rfl
@[simp] theorem withRng_reads : (s.withRng g).reads = s.reads := rfl
@[simp] theorem withRng_nextAnswers : (s.withRng g).nextAnswers = s.nextAnswers := rfl
@[simp] theorem withRng_rng : (s.withRng g).rng = g := rfl
@[simp] theorem withRng_engine : (s.withRng g).engine = s.engine := rfl

/-! ### takeAnswers: the source gives the answers fixed for the next command (R89) -/

@[simp] theorem takeAnswers_params : s.takeAnswers.params = s.params := rfl
@[simp] theorem takeAnswers_agenda : s.takeAnswers.agenda = s.agenda := rfl
@[simp] theorem takeAnswers_reads : s.takeAnswers.reads = s.reads := rfl
@[simp] theorem takeAnswers_rng : s.takeAnswers.rng = ⟨s.nextAnswers, s.rng.count⟩ := rfl
@[simp] theorem takeAnswers_nextAnswers : s.takeAnswers.nextAnswers = [] := rfl
@[simp] theorem takeAnswers_engine : s.takeAnswers.engine = s.engine := rfl

/-! ### record -/

@[simp] theorem record_params : (s.record v).params = s.params := rfl
@[simp] theorem record_agenda : (s.record v).agenda = s.agenda := rfl
@[simp] theorem record_rng : (s.record v).rng = s.rng := rfl
@[simp] theorem record_reads : (s.record v).reads = v :: s.reads := rfl
@[simp] theorem record_nextAnswers : (s.record v).nextAnswers = s.nextAnswers := rfl
@[simp] theorem record_engine : (s.record v).engine = s.engine := rfl

/-! ### hostErrCheck: with the code 0 a read, otherwise also fewer events (R90, R240) -/

@[simp] theorem hostErrCheck_params (k : Nat) : (hostErrCheck k s).params = s.params := by
  unfold hostErrCheck; split <;> rfl
@[simp] theorem hostErrCheck_rng (k : Nat) : (hostErrCheck k s).rng = s.rng := by unfold hostErrCheck; split <;> rfl
@[simp] theorem hostErrCheck_nextAnswers (k : Nat) : (hostErrCheck k s).nextAnswers = s.nextAnswers := by
  unfold hostErrCheck; split <;> rfl
@[simp] theorem hostErrCheck_engine (k : Nat) : (hostErrCheck k s).engine = s.engine := by
  unfold hostErrCheck; split <;> rfl
@[simp] theorem hostErrCheck_reads (k : Nat) :
    (hostErrCheck k s).reads = .word (statusWord s.engine) :: s.reads := by unfold hostErrCheck; split <;> rfl

/-! ### applyReset -/

@[simp] theorem applyReset_params : (applyReset s).params = s.params := rfl
@[simp] theorem applyReset_agenda : (applyReset s).agenda = s.agenda := rfl
@[simp] theorem applyReset_rng : (applyReset s).rng = s.rng := rfl
@[simp] theorem applyReset_reads : (applyReset s).reads = s.reads := rfl
@[simp] theorem applyReset_nextAnswers : (applyReset s).nextAnswers = s.nextAnswers := rfl
@[simp] theorem applyReset_engine : (applyReset s).engine = Engine.reset := rfl

/-! ### illegalCommand -/

@[simp] theorem illegalCommand_params : (illegalCommand s).params = s.params := rfl
@[simp] theorem illegalCommand_agenda : (illegalCommand s).agenda = s.agenda := rfl
@[simp] theorem illegalCommand_rng : (illegalCommand s).rng = s.rng := rfl
@[simp] theorem illegalCommand_reads : (illegalCommand s).reads = s.reads := rfl
@[simp] theorem illegalCommand_nextAnswers : (illegalCommand s).nextAnswers = s.nextAnswers := rfl
@[simp] theorem illegalCommand_engine_busy : (illegalCommand s).engine.busy = s.engine.busy := rfl
@[simp] theorem illegalCommand_engine_prime : (illegalCommand s).engine.prime = s.engine.prime := rfl
@[simp] theorem illegalCommand_engine_err : (illegalCommand s).engine.err = 0x80 := rfl
@[simp] theorem illegalCommand_engine_errinfoExp : (illegalCommand s).engine.errinfoExp = 0 := rfl
@[simp] theorem illegalCommand_engine_errinfoAct : (illegalCommand s).engine.errinfoAct = 0 := rfl
@[simp] theorem illegalCommand_engine_arg : (illegalCommand s).engine.arg = s.engine.arg := rfl
@[simp] theorem illegalCommand_engine_rounds : (illegalCommand s).engine.rounds = s.engine.rounds := rfl
@[simp] theorem illegalCommand_engine_kn : (illegalCommand s).engine.kn = s.engine.kn := rfl
@[simp] theorem illegalCommand_engine_ke : (illegalCommand s).engine.ke = s.engine.ke := rfl
@[simp] theorem illegalCommand_engine_kd : (illegalCommand s).engine.kd = s.engine.kd := rfl
@[simp] theorem illegalCommand_engine_kp : (illegalCommand s).engine.kp = s.engine.kp := rfl
@[simp] theorem illegalCommand_engine_kq : (illegalCommand s).engine.kq = s.engine.kq := rfl
@[simp] theorem illegalCommand_engine_opa : (illegalCommand s).engine.opa = s.engine.opa := rfl
@[simp] theorem illegalCommand_engine_opb : (illegalCommand s).engine.opb = s.engine.opb := rfl
@[simp] theorem illegalCommand_engine_opm : (illegalCommand s).engine.opm = s.engine.opm := rfl
@[simp] theorem illegalCommand_engine_res0 : (illegalCommand s).engine.res0 = s.engine.res0 := rfl
@[simp] theorem illegalCommand_engine_res1 : (illegalCommand s).engine.res1 = s.engine.res1 := rfl
@[simp] theorem illegalCommand_engine_res2 : (illegalCommand s).engine.res2 = s.engine.res2 := rfl
@[simp] theorem illegalCommand_engine_msg : (illegalCommand s).engine.msg = s.engine.msg := rfl
@[simp] theorem illegalCommand_engine_lbl : (illegalCommand s).engine.lbl = s.engine.lbl := rfl
@[simp] theorem illegalCommand_engine_out : (illegalCommand s).engine.out = s.engine.out := rfl
@[simp] theorem illegalCommand_engine_hacc : (illegalCommand s).engine.hacc = s.engine.hacc := rfl
@[simp] theorem illegalCommand_engine_latch : (illegalCommand s).engine.latch = s.engine.latch := rfl

/-! ### errorEntry -/

@[simp] theorem errorEntry_params : (errorEntry i x exp act s).params = s.params := rfl
@[simp] theorem errorEntry_agenda : (errorEntry i x exp act s).agenda = s.agenda := rfl
@[simp] theorem errorEntry_rng : (errorEntry i x exp act s).rng = s.rng := rfl
@[simp] theorem errorEntry_reads : (errorEntry i x exp act s).reads = s.reads := rfl
@[simp] theorem errorEntry_nextAnswers : (errorEntry i x exp act s).nextAnswers = s.nextAnswers := rfl
@[simp] theorem errorEntry_engine :
    (errorEntry i x exp act s).engine = ((destinations i).foldl Engine.clear s.engine).finish x.code exp act := rfl

/-! ### finish -/

@[simp] theorem finish_busy : (e.finish code exp act).busy = false := rfl
@[simp] theorem finish_prime : (e.finish code exp act).prime = e.prime := rfl
@[simp] theorem finish_err : (e.finish code exp act).err = code := rfl
@[simp] theorem finish_errinfoExp : (e.finish code exp act).errinfoExp = exp := rfl
@[simp] theorem finish_errinfoAct : (e.finish code exp act).errinfoAct = act := rfl
@[simp] theorem finish_arg : (e.finish code exp act).arg = e.arg := rfl
@[simp] theorem finish_rounds : (e.finish code exp act).rounds = e.rounds := rfl
@[simp] theorem finish_kn : (e.finish code exp act).kn = e.kn := rfl
@[simp] theorem finish_ke : (e.finish code exp act).ke = e.ke := rfl
@[simp] theorem finish_kd : (e.finish code exp act).kd = e.kd := rfl
@[simp] theorem finish_kp : (e.finish code exp act).kp = e.kp := rfl
@[simp] theorem finish_kq : (e.finish code exp act).kq = e.kq := rfl
@[simp] theorem finish_opa : (e.finish code exp act).opa = e.opa := rfl
@[simp] theorem finish_opb : (e.finish code exp act).opb = e.opb := rfl
@[simp] theorem finish_opm : (e.finish code exp act).opm = e.opm := rfl
@[simp] theorem finish_res0 : (e.finish code exp act).res0 = e.res0 := rfl
@[simp] theorem finish_res1 : (e.finish code exp act).res1 = e.res1 := rfl
@[simp] theorem finish_res2 : (e.finish code exp act).res2 = e.res2 := rfl
@[simp] theorem finish_msg : (e.finish code exp act).msg = e.msg := rfl
@[simp] theorem finish_lbl : (e.finish code exp act).lbl = e.lbl := rfl
@[simp] theorem finish_out : (e.finish code exp act).out = e.out := rfl
@[simp] theorem finish_hacc : (e.finish code exp act).hacc = e.hacc := rfl
@[simp] theorem finish_latch : (e.finish code exp act).latch = none := rfl

/-! ### Result.write: the fields no result writes -/

@[simp] theorem write_busy : (r.write e).busy = e.busy := by cases r <;> rfl
@[simp] theorem write_err : (r.write e).err = e.err := by cases r <;> rfl
@[simp] theorem write_errinfoExp : (r.write e).errinfoExp = e.errinfoExp := by cases r <;> rfl
@[simp] theorem write_errinfoAct : (r.write e).errinfoAct = e.errinfoAct := by cases r <;> rfl
@[simp] theorem write_arg : (r.write e).arg = e.arg := by cases r <;> rfl
@[simp] theorem write_rounds : (r.write e).rounds = e.rounds := by cases r <;> rfl
@[simp] theorem write_opa : (r.write e).opa = e.opa := by cases r <;> rfl
@[simp] theorem write_opb : (r.write e).opb = e.opb := by cases r <;> rfl
@[simp] theorem write_opm : (r.write e).opm = e.opm := by cases r <;> rfl
@[simp] theorem write_msg : (r.write e).msg = e.msg := by cases r <;> rfl
@[simp] theorem write_lbl : (r.write e).lbl = e.lbl := by cases r <;> rfl
@[simp] theorem write_latch : (r.write e).latch = e.latch := by cases r <;> rfl

/-! ### Engine.clear: the fields error entry never invalidates -/

@[simp] theorem clear_busy (q : Reg) : (e.clear q).busy = e.busy := by cases q <;> rfl
@[simp] theorem clear_prime (q : Reg) : (e.clear q).prime = e.prime := by cases q <;> rfl
@[simp] theorem clear_err (q : Reg) : (e.clear q).err = e.err := by cases q <;> rfl
@[simp] theorem clear_errinfoExp (q : Reg) : (e.clear q).errinfoExp = e.errinfoExp := by cases q <;> rfl
@[simp] theorem clear_errinfoAct (q : Reg) : (e.clear q).errinfoAct = e.errinfoAct := by cases q <;> rfl
@[simp] theorem clear_arg (q : Reg) : (e.clear q).arg = e.arg := by cases q <;> rfl
@[simp] theorem clear_rounds (q : Reg) : (e.clear q).rounds = e.rounds := by cases q <;> rfl
@[simp] theorem clear_opa (q : Reg) : (e.clear q).opa = e.opa := by cases q <;> rfl
@[simp] theorem clear_opb (q : Reg) : (e.clear q).opb = e.opb := by cases q <;> rfl
@[simp] theorem clear_opm (q : Reg) : (e.clear q).opm = e.opm := by cases q <;> rfl
@[simp] theorem clear_msg (q : Reg) : (e.clear q).msg = e.msg := by cases q <;> rfl
@[simp] theorem clear_lbl (q : Reg) : (e.clear q).lbl = e.lbl := by cases q <;> rfl
@[simp] theorem clear_hacc (q : Reg) : (e.clear q).hacc = e.hacc := by cases q <;> rfl
@[simp] theorem clear_latch (q : Reg) : (e.clear q).latch = e.latch := by cases q <;> rfl
@[simp] theorem clearAll_busy (qs : List Reg) : (qs.foldl Engine.clear e).busy = e.busy := by
  induction qs generalizing e <;> simp_all
@[simp] theorem clearAll_prime (qs : List Reg) : (qs.foldl Engine.clear e).prime = e.prime := by
  induction qs generalizing e <;> simp_all
@[simp] theorem clearAll_err (qs : List Reg) : (qs.foldl Engine.clear e).err = e.err := by
  induction qs generalizing e <;> simp_all
@[simp] theorem clearAll_errinfoExp (qs : List Reg) : (qs.foldl Engine.clear e).errinfoExp = e.errinfoExp := by
  induction qs generalizing e <;> simp_all
@[simp] theorem clearAll_errinfoAct (qs : List Reg) : (qs.foldl Engine.clear e).errinfoAct = e.errinfoAct := by
  induction qs generalizing e <;> simp_all
@[simp] theorem clearAll_arg (qs : List Reg) : (qs.foldl Engine.clear e).arg = e.arg := by
  induction qs generalizing e <;> simp_all
@[simp] theorem clearAll_rounds (qs : List Reg) : (qs.foldl Engine.clear e).rounds = e.rounds := by
  induction qs generalizing e <;> simp_all
@[simp] theorem clearAll_opa (qs : List Reg) : (qs.foldl Engine.clear e).opa = e.opa := by
  induction qs generalizing e <;> simp_all
@[simp] theorem clearAll_opb (qs : List Reg) : (qs.foldl Engine.clear e).opb = e.opb := by
  induction qs generalizing e <;> simp_all
@[simp] theorem clearAll_opm (qs : List Reg) : (qs.foldl Engine.clear e).opm = e.opm := by
  induction qs generalizing e <;> simp_all
@[simp] theorem clearAll_msg (qs : List Reg) : (qs.foldl Engine.clear e).msg = e.msg := by
  induction qs generalizing e <;> simp_all
@[simp] theorem clearAll_lbl (qs : List Reg) : (qs.foldl Engine.clear e).lbl = e.lbl := by
  induction qs generalizing e <;> simp_all
@[simp] theorem clearAll_hacc (qs : List Reg) : (qs.foldl Engine.clear e).hacc = e.hacc := by
  induction qs generalizing e <;> simp_all
@[simp] theorem clearAll_latch (qs : List Reg) : (qs.foldl Engine.clear e).latch = e.latch := by
  induction qs generalizing e <;> simp_all

end Sys2Proof.Machine
end

