-- ==== Sys2Proof/Laws/Ops.lean ====
section
/-! SUPPORT. What each shared operation can do, said once: issue, completion, error entry, and the frame
of every meaning. -/

namespace Sys2Proof.Machine

theorem successCode_eq : successCode = 0 := rfl

/-- Completion either fits and succeeds, or refuses. -/
theorem complete_of_fits {r : Result} {s : State} (h : r.fits s.params = true) :
    complete r s = .next (s.succeed r) := by simp [complete, h]

theorem complete_of_not_fits {r : Result} {s : State} (h : r.fits s.params = false) :
    complete r s = .refused .resultTooLarge := by simp [complete, h]

theorem complete_next_iff {r : Result} {s t : State} :
    complete r s = .next t ↔ r.fits s.params = true ∧ t = s.succeed r := by
  unfold complete
  split
  · simpa [*] using eq_comm
  · simp [*]

theorem complete_ne_fault {r : Result} {s : State} {f : Fault} : complete r s ≠ .fault f := by
  unfold complete; split <;> simp

theorem fail_of_fits {i : Instr} {e : Err} {exp act : Nat} {s : State} (h1 : fitsInt s.params exp = true)
    (h2 : fitsInt s.params act = true) : fail i e exp act s = .next (errorEntry i e exp act s) := by
  simp [fail, h1, h2]

theorem fail_next_iff {i : Instr} {e : Err} {exp act : Nat} {s t : State} :
    fail i e exp act s = .next t ↔
      (fitsInt s.params exp = true ∧ fitsInt s.params act = true) ∧ t = errorEntry i e exp act s := by
  unfold fail
  rw [← Bool.and_eq_true]
  split
  · simpa only [*, true_and, Host.Outcome.next.injEq] using eq_comm
  · simp [*]

theorem fail_ne_fault {i : Instr} {e : Err} {exp act : Nat} {s : State} {f : Fault} :
    fail i e exp act s ≠ .fault f := by
  unfold fail; split <;> simp

/-- 0 fits every bound: its bit length is 0 (R10). -/
theorem fitsInt_zero (p : Params) : fitsInt p (0 : Nat) = true := by
  unfold fitsInt; cases p.maxIntBits <;> simp [bitlen]

/-- An error without context always completes. -/
theorem fail_zero {i : Instr} {e : Err} {s : State} : fail i e 0 0 s = .next (errorEntry i e 0 0 s) :=
  fail_of_fits (fitsInt_zero _) (fitsInt_zero _)

/-- Everything the end of an operation can do. -/
theorem conclude_next_iff {i : Instr} {v : Except Stop Result} {s t : State} :
    conclude i v s = .next t ↔
      (∃ r, v = .ok r ∧ r.fits s.params = true ∧ t = s.succeed r) ∨
      (∃ e exp act, v = .error (.raise e exp act) ∧
        (fitsInt s.params exp = true ∧ fitsInt s.params act = true) ∧ t = errorEntry i e exp act s) := by
  match v with
  | .ok r => simp [conclude, complete_next_iff]
  | .error (.raise e exp act) => simp [conclude, fail_next_iff, -Bool.and_eq_true]

theorem conclude_ne_fault {i : Instr} {v : Except Stop Result} {s : State} {f : Fault} :
    conclude i v s ≠ .fault f := by
  match v with
  | .ok r => simpa [conclude] using complete_ne_fault
  | .error (.raise e exp act) => simpa [conclude] using fail_ne_fault

theorem issue_next_iff {l : Except Refusal Latch} {s t : State} :
    issue l s = .next t ↔ ∃ x, l = .ok x ∧ t = s.accept x := by
  match l with
  | .ok x => simpa [issue] using eq_comm
  | .error r => simp [issue]

/-- A meaning on an idle engine is the command's issue. -/
theorem runCommand_idle {l : Except Refusal Latch} {adv : Latch → Option Out} {s : State}
    (h : s.engine.busy = false) : runCommand l adv s = issue l s := by simp [runCommand, h]

/-- A meaning on a busy engine is the next step of the latched operation, if it is this command's. -/
theorem runCommand_running {l : Except Refusal Latch} {adv : Latch → Option Out} {s : State} {x : Latch}
    (hb : s.engine.busy = true) (hl : s.engine.latch = some x) :
    runCommand l adv s = (adv x).getD (.refused .engineBusy) := by simp [runCommand, hb, hl]

theorem runCommand_lost {l : Except Refusal Latch} {adv : Latch → Option Out} {s : State}
    (hb : s.engine.busy = true) (hl : s.engine.latch = none) :
    runCommand l adv s = .fault .latchLost := by simp [runCommand, hb, hl]

@[simp] theorem need_some {α : Type} (r : Reg) (v : α) : need r (some v) = .ok v := rfl
@[simp] theorem need_none {α : Type} (r : Reg) : need r (none : Option α) = .error (.noValue r) := rfl
@[simp] theorem require_true (r : Refusal) : require true r = .ok () := rfl
@[simp] theorem require_false (r : Refusal) : require false r = .error r := rfl

theorem need_ok_iff {α : Type} {r : Reg} {o : Option α} {v : α} : need r o = .ok v ↔ o = some v := by
  cases o <;> simp

theorem require_ok_iff {b : Bool} {r : Refusal} {u : Unit} : require b r = .ok u ↔ b = true := by
  cases b <;> simp

/-- A chain of checks succeeds when each link does. -/
theorem bind_ok_iff {ε α β : Type} {x : Except ε α} {f : α → Except ε β} {b : β} :
    (x >>= f) = .ok b ↔ ∃ a, x = .ok a ∧ f a = .ok b := by
  cases x <;> simp [bind, Except.bind]

end Sys2Proof.Machine
end

