-- ==== Sys2Proof/Laws/Exec.lean ====
section
/-! SUPPORT. The meanings of all commands at once: what the issue of a command latches, what the engine's
step does with a latched command, and everything such a step can end in. -/

namespace Sys2Proof.Machine

/-- What the issue of each command latches or refuses. -/
def latchOf (p : Params) (e : Engine) : Instr → Except Refusal Latch
  | .hash => latchHash e
  | .hInit => latchHInit
  | .hUpdate => latchHUpdate p e
  | .hDigest => latchHDigest e
  | .hHexdigest => latchHHexdigest e
  | .mgf1 => latchMgf1 p e
  | .montmul => latchMontmul e
  | .modexp => latchModexp e
  | .egcd => latchEgcd e
  | .modinv => latchModinv e
  | .isprime => latchIsprime e
  | .genprime => latchGenprime e
  | .genkey => latchGenkey p e
  | .oaepEnc => latchOaepEnc e
  | .oaepDec => latchOaepDec e

/-- What the engine's step does with a latched command. -/
def advance (s : State) : Latch → Out
  | .hash m => complete (.out (sha256 m)) s
  | .hInit => complete (.hacc []) s
  | .hUpdate m h => complete (.hacc (h ++ m)) s
  | .hDigest h => complete (.out (sha256 h)) s
  | .hHexdigest h => complete (.out (hexText (sha256 h))) s
  | .mgf1 seed n => conclude .mgf1 ((mgf1 seed n).map .out) s
  | .montmul a b m => complete (.res0 (montMul (montRBits s.params m) a b m)) s
  | .modexp b e m => complete (.res0 (modExp b e m)) s
  | .egcd a b => complete (.bezout (egcd a b).1 (egcd a b).2.1 (egcd a b).2.2) s
  | .modinv e phi =>
    match modInverse e phi with
    | some d => complete (.res0 d) s
    | none => fail .modinv .noInverse 0 0 s
  | .isprime n rounds =>
    complete (.prime (isPrime n rounds s.rng).1) (s.withRng (isPrime n rounds s.rng).2)
  | .genprime bits none =>
    .next ((s.withRng (drawCandidate bits s.rng).2).progress (.genprime bits (some (drawCandidate bits s.rng).1)))
  | .genprime bits (some c) =>
    if (isPrime c Config.mrRounds s.rng).1 then complete (.res0 c) (s.withRng (isPrime c Config.mrRounds s.rng).2)
    else .next ((s.withRng (isPrime c Config.mrRounds s.rng).2).progress (.genprime bits none))
  | .genkey bits p none =>
    .next ((s.withRng (drawCandidate (bits / 2) s.rng).2).progress
      (.genkey bits p (some (drawCandidate (bits / 2) s.rng).1)))
  | .genkey bits none (some c) =>
    if (isPrime c Config.mrRounds s.rng).1 then
      .next ((s.withRng (isPrime c Config.mrRounds s.rng).2).progress (.genkey bits (some c) none))
    else .next ((s.withRng (isPrime c Config.mrRounds s.rng).2).progress (.genkey bits none none))
  | .genkey bits (some p) (some c) =>
    if (isPrime c Config.mrRounds s.rng).1 then
      conclude .genkey (deriveKey p c) (s.withRng (isPrime c Config.mrRounds s.rng).2)
    else .next ((s.withRng (isPrime c Config.mrRounds s.rng).2).progress (.genkey bits (some p) none))
  | .oaepEnc m label n e =>
    if messageTooLong m n then
      fail .oaepEnc .messageTooLong (byteLen n - Config.oaepOverhead) m.length s
    else if maskedBlockTooLong n then .refused .hashInputTooLong
    else conclude .oaepEnc ((oaepEncode m n e label (drawSeed s.rng).1).map .out) (s.withRng (drawSeed s.rng).2)
  | .oaepDec c label n d =>
    if reachesMasks c n d && maskedBlockTooLong n then .refused .hashInputTooLong
    else conclude .oaepDec ((oaepDecode c n d label).map .out) s

/-- On an idle engine a command is its issue (R85). -/
theorem exec_idle {i : Instr} {s : State} (h : s.engine.busy = false) :
    exec i s = issue (latchOf s.params s.engine i) s := by
  cases i <;> exact runCommand_idle h

/-- On an engine busy with it, a command is the next step of its operation. -/
theorem exec_running {s : State} {l : Latch} (h : s.Running l) : exec l.instr s = advance s l := by
  obtain ⟨hb, hl⟩ := h
  cases l with
  | genprime bits c =>
    cases c <;> simp only [Latch.instr, exec, execGenprime, runCommand_running hb hl, Option.getD, advance]
  | genkey bits p c =>
    cases c <;> cases p <;>
      simp only [Latch.instr, exec, execGenkey, runCommand_running hb hl, Option.getD, advance]
  | modinv e phi =>
    cases h : modInverse e phi <;>
      simp only [Latch.instr, exec, execModinv, runCommand_running hb hl, Option.getD, advance, h]
  | _ => simp only [Latch.instr, exec, execHash, execHInit, execHUpdate, execHDigest, execHHexdigest, execMgf1,
      execMontmul, execModexp, execEgcd, execIsprime, execOaepEnc, execOaepDec,
      runCommand_running hb hl, Option.getD, advance]

/-- A command on an engine busy with another one is refused (R62). -/
theorem exec_running_other {i : Instr} {s : State} {l : Latch} (h : s.Running l) (hi : l.instr ≠ i) :
    exec i s = .refused .engineBusy := by
  obtain ⟨hb, hl⟩ := h
  cases i <;> cases l <;> first
    | exact absurd rfl hi
    | simp [exec, execHash, execHInit, execHUpdate, execHDigest, execHHexdigest, execMgf1, execMontmul,
        execModexp, execEgcd, execModinv, execIsprime, execGenprime, execGenkey, execOaepEnc, execOaepDec,
        runCommand_running hb hl]

/-- `BUSY` with nothing latched is stuck. -/
theorem exec_lost {i : Instr} {s : State} (hb : s.engine.busy = true) (hl : s.engine.latch = none) :
    exec i s = .fault .latchLost := by
  cases i <;> exact runCommand_lost hb hl

end Sys2Proof.Machine
end

