-- ==== Sys2Proof/Laws/Bytes.lean ====
section
/-! SUPPORT. The conversions of `00_scope.md` R8 to R10: lengths, the two round trips of `be` and `intOf`,
the bounds that `bitlen` and `byteLen` stand for, and the exclusive-or of byte strings. -/

namespace Sys2Proof.Machine

@[simp] theorem be_length (x n : Nat) : (be x n).length = n := by
  induction n with
  | zero => rfl
  | succ n ih => simp [be, ih]

theorem intOf_foldl (s : Bytes) (acc : Nat) :
    s.foldl (fun a b => a * 256 + b.toNat) acc = acc * 256 ^ s.length + intOf s := by
  induction s generalizing acc with
  | nil => simp [intOf]
  | cons b s ih =>
    have h0 : intOf (b :: s) = b.toNat * 256 ^ s.length + intOf s := by
      rw [← ih b.toNat]; simp [intOf]
    rw [List.foldl_cons, ih, h0, List.length_cons, pow_succ]; ring

theorem intOf_nil : intOf [] = 0 := rfl

theorem intOf_cons (b : Byte) (s : Bytes) : intOf (b :: s) = b.toNat * 256 ^ s.length + intOf s := by
  have := intOf_foldl s b.toNat
  simpa [intOf] using this

theorem intOf_lt (s : Bytes) : intOf s < 256 ^ s.length := by
  induction s with
  | nil => simp [intOf_nil]
  | cons b s ih =>
    have hb : b.toNat < 256 := b.isLt
    rw [intOf_cons, List.length_cons, pow_succ]
    nlinarith [ih, hb]

/-- `int` undoes `be` on the naturals that fit (R9). -/
theorem intOf_be (x n : Nat) : intOf (be x n) = x % 256 ^ n := by
  induction n with
  | zero => simp [be, intOf_nil, Nat.mod_one]
  | succ n ih =>
    have h : x % (256 ^ n * 256) = x % 256 ^ n + 256 ^ n * (x / 256 ^ n % 256) := Nat.mod_mul
    rw [be, intOf_cons, be_length, ih, BitVec.toNat_ofNat, show 256 ^ (n + 1) = 256 ^ n * 256 from rfl, h,
      Nat.add_comm, Nat.mul_comm]

theorem intOf_be_of_lt {x n : Nat} (h : x < 256 ^ n) : intOf (be x n) = x := by
  rw [intOf_be, Nat.mod_eq_of_lt h]

theorem be_add_mul (x y n : Nat) : be (y * 256 ^ n + x) n = be x n := by
  induction n generalizing y with
  | zero => rfl
  | succ n ih =>
    have h1 : (y * 256 ^ (n + 1) + x) / 256 ^ n = y * 256 + x / 256 ^ n := by
      rw [show y * 256 ^ (n + 1) + x = x + 256 ^ n * (y * 256) by rw [pow_succ]; ring,
        Nat.add_mul_div_left _ _ (by positivity)]; ring
    have h2 : be (y * 256 ^ (n + 1) + x) n = be x n := by
      rw [show y * 256 ^ (n + 1) = (y * 256) * 256 ^ n by rw [pow_succ]; ring]; exact ih _
    rw [be, be, h2, h1]
    congr 1
    apply BitVec.eq_of_toNat_eq
    simp [Nat.add_mod]

/-- `be` undoes `int` on the strings of the length asked for (R9). -/
theorem be_intOf (s : Bytes) : be (intOf s) s.length = s := by
  induction s with
  | nil => rfl
  | cons b s ih =>
    rw [intOf_cons, List.length_cons, be, be_add_mul, ih]
    congr 1
    rw [show b.toNat * 256 ^ s.length + intOf s = intOf s + 256 ^ s.length * b.toNat by ring,
      Nat.add_mul_div_left _ _ (by positivity), Nat.div_eq_of_lt (intOf_lt s), Nat.zero_add]
    simp

theorem intOf_append (s t : Bytes) : intOf (s ++ t) = intOf s * 256 ^ t.length + intOf t := by
  have := intOf_foldl t (intOf s)
  rw [← this]; simp [intOf]

@[simp] theorem bitlen_zero : bitlen 0 = 0 := rfl

/-- `bitlen n ≤ b` says that n needs at most b bits (R10). -/
theorem bitlen_le_iff {n b : Nat} : bitlen n ≤ b ↔ n < 2 ^ b := by
  unfold bitlen
  split
  · simp_all
  · rename_i h
    rw [Nat.succ_le_iff, Nat.log2_lt h]

theorem lt_two_pow_bitlen (n : Nat) : n < 2 ^ bitlen n := bitlen_le_iff.1 le_rfl

/-- The unique b of R10. -/
theorem bitlen_eq_iff {n b : Nat} (hb : b ≠ 0) : bitlen n = b ↔ 2 ^ (b - 1) ≤ n ∧ n < 2 ^ b := by
  rw [← bitlen_le_iff, ← Nat.not_lt, ← bitlen_le_iff]
  omega

theorem bitlen_mono {a b : Nat} (h : a ≤ b) : bitlen a ≤ bitlen b :=
  bitlen_le_iff.2 (lt_of_le_of_lt h (lt_two_pow_bitlen b))

theorem bitlen_eq_zero {n : Nat} : bitlen n = 0 ↔ n = 0 := by
  unfold bitlen; split <;> simp_all

theorem lt_pow_byteLen (n : Nat) : n < 256 ^ byteLen n := by
  rw [show (256 : Nat) = 2 ^ 8 by norm_num, ← pow_mul]
  refine lt_of_lt_of_le (lt_two_pow_bitlen n) (Nat.pow_le_pow_right (by decide) ?_)
  unfold byteLen; omega

/-- A modulus of k bytes is at least 256^(k−1) (R203). -/
theorem pow_byteLen_le {n : Nat} (h : byteLen n ≠ 0) : 256 ^ (byteLen n - 1) ≤ n := by
  have hb : bitlen n ≠ 0 := by unfold byteLen at h; omega
  have h1 := ((bitlen_eq_iff hb).1 rfl).1
  refine le_trans ?_ h1
  rw [show (256 : Nat) = 2 ^ 8 by norm_num, ← pow_mul]
  apply Nat.pow_le_pow_right (by decide)
  unfold byteLen; omega

@[simp] theorem xorBytes_length (a b : Bytes) : (xorBytes a b).length = min a.length b.length := by
  simp [xorBytes]

/-- Masking twice with the same mask restores the string. -/
theorem xorBytes_cancel (a m : Bytes) (h : a.length ≤ m.length) : xorBytes (xorBytes a m) m = a := by
  induction a generalizing m with
  | nil => simp [xorBytes]
  | cons x a ih =>
    cases m with
    | nil => simp at h
    | cons y m =>
      have := ih m (by simpa using h)
      simp only [xorBytes] at this
      simp [xorBytes, this]

end Sys2Proof.Machine
end

