-- ==== Sys2Proof/Laws/ModArith.lean ====
section
/-! SUPPORT. The values of the arithmetic unit: modular exponentiation, the Euclidean descent, the inverse,
and the Montgomery multiplier. -/

namespace Sys2Proof.Machine

theorem powModFuel_eq (b m fuel e : Nat) (h : bitlen e ≤ fuel) : powModFuel b m fuel e = b ^ e % m := by
  induction fuel generalizing e with
  | zero =>
    have : e = 0 := bitlen_eq_zero.1 (by omega)
    simp [powModFuel, this]
  | succ fuel ih =>
    unfold powModFuel
    split
    · simp [*]
    · have hh : bitlen (e / 2) ≤ fuel := by
        rw [bitlen_le_iff] at h ⊢
        rw [pow_succ] at h; omega
      rw [ih _ hh]
      have hsplit : b ^ e = b ^ (e / 2) * b ^ (e / 2) * b ^ (e % 2) := by
        rw [← pow_add, ← pow_add]; congr 1; omega
      rcases Nat.mod_two_eq_zero_or_one e with h0 | h1
      · simp [h0, hsplit, Nat.mul_mod]
      · simp [h1, hsplit, Nat.mul_mod]

/-- The architectural value of modular exponentiation (R141). -/
theorem modExp_eq (b e m : Nat) : modExp b e m = b ^ e % m := powModFuel_eq b m _ e le_rfl

theorem modExp_lt (b e : Nat) {m : Nat} (h : m ≠ 0) : modExp b e m < m := by
  rw [modExp_eq]; exact Nat.mod_lt _ (Nat.pos_of_ne_zero h)

/-- The base is reduced (R141). -/
theorem modExp_mod (b e m : Nat) : modExp (b % m) e m = modExp b e m := by
  simp [modExp_eq, ← Nat.pow_mod]

theorem egcdFuel_spec (fuel a b : Nat) (h : a < fuel) :
    (egcdFuel fuel a b).1 = Nat.gcd a b ∧
      (a : Int) * (egcdFuel fuel a b).2.1 + (b : Int) * (egcdFuel fuel a b).2.2 = (Nat.gcd a b : Nat) := by
  induction fuel generalizing a b with
  | zero => omega
  | succ fuel ih =>
    unfold egcdFuel
    split
    · subst a; simp
    · rename_i ha
      have hlt : b % a < fuel := by have := Nat.mod_lt b (Nat.pos_of_ne_zero ha); omega
      obtain ⟨h1, h2⟩ := ih (b % a) a hlt
      have hg : Nat.gcd (b % a) a = Nat.gcd a b := (Nat.gcd_rec a b).symm
      refine ⟨by simpa [hg] using h1, ?_⟩
      rw [hg] at h2
      rw [← h2]
      have hb : (b : Int) = (a : Int) * (b / a : Nat) + (b % a : Nat) := by
        exact_mod_cast (Nat.div_add_mod b a).symm
      generalize (b / a : Nat) = q at *
      generalize (b % a : Nat) = r at *
      rw [hb]; ring

/-- The contract of R147: the gcd, and Bézout's identity. -/
theorem egcd_gcd (a b : Nat) : (egcd a b).1 = Nat.gcd a b := (egcdFuel_spec (a + 1) a b (by omega)).1

theorem egcd_bezout (a b : Nat) :
    (a : Int) * (egcd a b).2.1 + (b : Int) * (egcd a b).2.2 = (Nat.gcd a b : Nat) :=
  (egcdFuel_spec (a + 1) a b (by omega)).2

/-- The reduced first coefficient is an inverse modulo `m` of any `a` prime to it. -/
theorem egcd_inverse {a m : Nat} (hm : m ≠ 0) (h : Nat.gcd a m = 1) :
    ((egcd a m).2.1 % (m : Int)).toNat < m ∧ a * ((egcd a m).2.1 % (m : Int)).toNat % m = 1 % m := by
  have hpos : (0 : Int) < m := by omega
  have hnn := Int.emod_nonneg (egcd a m).2.1 hpos.ne'
  have hlt := Int.emod_lt_of_pos (egcd a m).2.1 hpos
  refine ⟨by omega, ?_⟩
  have hb := egcd_bezout a m
  rw [h] at hb
  zify
  rw [Int.toNat_of_nonneg hnn, Int.mul_emod, Int.emod_emod, ← Int.mul_emod,
    show (a : Int) * (egcd a m).2.1 = 1 + m * (-(egcd a m).2.2) by push_cast at hb; linarith,
    Int.add_mul_emod_self_left]

theorem modInverse_none {e phi : Nat} (h : Nat.gcd e phi ≠ 1) : modInverse e phi = none := by
  simp [modInverse, egcd_gcd, h]

/-- The least non-negative inverse (R149). -/
theorem modInverse_some {e phi : Nat} (hphi : phi ≠ 0) (h : Nat.gcd e phi = 1) :
    ∃ d, modInverse e phi = some d ∧ d < phi ∧ e * d % phi = 1 % phi :=
  ⟨_, by simp only [modInverse, egcd_gcd, h, if_true], egcd_inverse hphi h⟩

theorem coprime_two_pow {r m : Nat} (hm : m % 2 = 1) : Nat.gcd (2 ^ r) m = 1 :=
  Nat.Coprime.pow_left r ((Nat.coprime_two_left).2 (Nat.odd_iff.2 hm))

/-- `Rinv` is an inverse of R = 2^r modulo an odd m (R143). -/
theorem montRInv_spec {r m : Nat} (hm : m % 2 = 1) : 2 ^ r * montRInv r m % m = 1 % m :=
  (egcd_inverse (by omega) (coprime_two_pow hm)).2

theorem montMul_lt {r a b m : Nat} (hm : m % 2 = 1) : montMul r a b m < m :=
  Nat.mod_lt _ (by omega)

/-- The Montgomery product times R is the product (R143). -/
theorem montMul_mul_R {r a b m : Nat} (hm : m % 2 = 1) : montMul r a b m * 2 ^ r % m = a * b % m := by
  have h := montRInv_spec (r := r) hm
  have h2 : a * b * montRInv r m * 2 ^ r ≡ a * b * 1 [MOD m] := by
    rw [Nat.mul_assoc, Nat.mul_comm (montRInv r m)]
    exact Nat.ModEq.mul_left _ h
  rw [montMul, Nat.mod_mul_mod]
  simpa [Nat.ModEq] using h2

/-- A residue is determined by its product with R. -/
theorem eq_of_mul_R {r m x y : Nat} (hm : m % 2 = 1) (hx : x < m) (hy : y < m)
    (h : x * 2 ^ r % m = y * 2 ^ r % m) : x = y := by
  have hc : Nat.gcd m (2 ^ r) = 1 := by rw [Nat.gcd_comm]; exact coprime_two_pow hm
  exact Nat.ModEq.eq_of_lt_of_lt (Nat.ModEq.cancel_right_of_coprime hc h) hx hy

/-- The one residue t with t · R ≡ a · b (R143). -/
theorem montMul_unique {r a b m t : Nat} (hm : m % 2 = 1) (ht : t < m) (h : t * 2 ^ r % m = a * b % m) :
    t = montMul r a b m :=
  eq_of_mul_R hm ht (montMul_lt hm) (h.trans (montMul_mul_R hm).symm)

/-- Without an override, `MONT_RBITS(m)` is 8 · k(m) (R7). -/
theorem montRBits_of_none {p : Params} {m : Nat} (h : p.montRbits.lookup m = none) :
    montRBits p m = 8 * byteLen m := by simp [montRBits, h]

/-- A valid override is in use (R7, R143). -/
theorem montRBits_of_some {p : Params} {m r : Nat} (h : p.montRbits.lookup m = some r) (hr : m < 2 ^ r) :
    montRBits p m = r := by simp [montRBits, h, bitlen_le_iff.2 hr]

/-- The radix exponent in use is valid: R > m (R143). -/
theorem lt_two_pow_montRBits (p : Params) (m : Nat) : m < 2 ^ montRBits p m := by
  rw [← bitlen_le_iff]
  have : bitlen m ≤ 8 * byteLen m := by unfold byteLen; omega
  unfold montRBits
  split
  · split <;> assumption
  · exact this

end Sys2Proof.Machine
end

