-- ==== Sys2Proof/Laws/Sha256.lean ====
section
/-! SUPPORT. Lengths of digests, hexadecimal texts and masks, and the masks' prefix law. -/

namespace Sys2Proof.Machine

theorem Chain.digest_length (c : Chain) : c.digest.length = 32 := by simp [Chain.digest]

theorem sha256_length (m : Bytes) : (sha256 m).length = 32 := Chain.digest_length _

theorem hexText_length (s : Bytes) : (hexText s).length = 2 * s.length := by
  induction s with
  | nil => rfl
  | cons b s ih => simp [hexText] at *; omega

/-- The digests of the first `n` counters, 32 bytes each. -/
theorem digests_length (seed : Bytes) (n : Nat) :
    ((List.range n).flatMap (fun c => sha256 (seed ++ be c 4))).length = 32 * n := by
  simp [List.length_flatMap, sha256_length, Nat.mul_comm]

theorem maskBytes_length (seed : Bytes) (n : Nat) : (maskBytes seed n).length = n := by
  rw [maskBytes, List.length_take, digests_length]; omega

/-- The digests do not depend on the length asked for, so a shorter mask is a prefix (R133). -/
theorem maskBytes_take (seed : Bytes) (n j : Nat) : (maskBytes seed (n + j)).take n = maskBytes seed n := by
  have hle : (n + 31) / 32 ≤ (n + j + 31) / 32 := Nat.div_le_div_right (by omega)
  obtain ⟨d, hd⟩ := Nat.exists_eq_add_of_le hle
  have hlen := digests_length seed ((n + 31) / 32)
  simp only [maskBytes, List.take_take, hd, List.range_add, List.flatMap_append]
  rw [Nat.min_eq_left (by omega), List.take_append_of_le_length (by omega)]

theorem mgf1_of_le {seed : Bytes} {n : Nat} (h : n ≤ Config.mgf1Max) : mgf1 seed n = .ok (maskBytes seed n) := by
  simp [mgf1, Nat.not_lt.2 h]

theorem mgf1_of_gt {seed : Bytes} {n : Nat} (h : Config.mgf1Max < n) :
    mgf1 seed n = .error (.raise .maskTooLong Config.mgf1Max n) := by simp [mgf1, h]

theorem padZeros_spec (len : Nat) : padZeros len < 64 ∧ (len + 1 + padZeros len) % 64 = 56 := by
  unfold padZeros; omega

end Sys2Proof.Machine
end

