-- ==== Sys2Proof/Laws/Oaep.lean ====
section
/-! SUPPORT. The codec in closed form: the lengths of its parts, the encoder on a message that fits, and the
decoder's answer on an encoded message. -/

namespace Sys2Proof.Machine

theorem innerMask_of_le {seed : Bytes} {n : Nat} (h : n ≤ Config.mgf1Max) : innerMask seed n = maskBytes seed n :=
  if_pos h

/-- The codec's masks have the length asked for, whether R130 defines them or not. -/
theorem innerMask_length (seed : Bytes) (n : Nat) : (innerMask seed n).length = n := by
  unfold innerMask; split <;> simp [maskBytes_length]

theorem dataBlock_length {k : Nat} {m label : Bytes} (h : m.length + 66 ≤ k) :
    (dataBlock k m label).length = k - 33 := by
  simp [dataBlock, sha256_length, Config.oaepOverhead]; omega

theorem maskedDataBlock_length {k : Nat} {m label seed : Bytes} (h : m.length + 66 ≤ k) :
    (maskedDataBlock k m label seed).length = k - 33 := by
  simp [maskedDataBlock, innerMask_length, dataBlock_length h]

theorem encodedMessage_length {k : Nat} {m label seed : Bytes} (h : m.length + 66 ≤ k) (hs : seed.length = 32) :
    (encodedMessage k m label seed).length = k := by
  simp [encodedMessage, maskedDataBlock_length h, innerMask_length, hs, Config.seedLen]; omega

/-- EM is below the modulus (R203). -/
theorem encodedMessage_lt {n : Nat} {m label seed : Bytes} (h : m.length + 66 ≤ byteLen n) (hs : seed.length = 32) :
    intOf (encodedMessage (byteLen n) m label seed) < n := by
  have hl := encodedMessage_length (label := label) h hs
  have h0 : intOf (encodedMessage (byteLen n) m label seed) < 256 ^ (byteLen n - 1) := by
    rw [encodedMessage, List.append_assoc, List.singleton_append] at hl ⊢
    rw [intOf_cons]
    have := intOf_lt (xorBytes seed (innerMask (maskedDataBlock (byteLen n) m label seed) Config.seedLen) ++
      maskedDataBlock (byteLen n) m label seed)
    rw [List.length_cons] at hl
    rw [show byteLen n - 1 = _ from (Nat.sub_eq_iff_eq_add (by omega)).2 hl.symm]
    simpa using this
  exact lt_of_lt_of_le h0 (pow_byteLen_le (by omega))

theorem messageTooLong_iff {m : Bytes} {n : Nat} : messageTooLong m n = true ↔ byteLen n < m.length + 66 := by
  rw [messageTooLong, decide_eq_true_iff]; rfl

theorem messageTooLong_false {m : Bytes} {n : Nat} (h : m.length + 66 ≤ byteLen n) : messageTooLong m n = false := by
  rw [Bool.eq_false_iff, Ne, messageTooLong_iff]; omega

theorem maskedBlockTooLong_iff {n : Nat} : maskedBlockTooLong n = true ↔ 2 ^ 61 + 29 ≤ byteLen n := by
  rw [maskedBlockTooLong, decide_eq_true_iff, show Config.hashLimit = 2 ^ 61 from rfl]; omega

theorem maskedBlockTooLong_false {n : Nat} (h : byteLen n < 2 ^ 61 + 29) : maskedBlockTooLong n = false := by
  rw [Bool.eq_false_iff, Ne, maskedBlockTooLong_iff]; omega

/-- A message that fits is encoded (R201). -/
theorem oaepEncode_of_fits {m label seed : Bytes} {n e : Nat} (h : m.length + 66 ≤ byteLen n) :
    oaepEncode m n e label seed =
      .ok (be (modExp (intOf (encodedMessage (byteLen n) m label seed)) e n) (byteLen n)) := by
  simp [oaepEncode, messageTooLong_false h]

/-- A block of k bytes is exponentiated and its EM checked (R204). -/
theorem oaepDecode_of_length {c label : Bytes} {n d : Nat} (h : c.length = byteLen n) :
    oaepDecode c n d label = unpadMessage (byteLen n) (be (intOf c ^ d % n) (byteLen n)) label := by
  simp [oaepDecode, h, modExp_eq]

theorem reachesMasks_iff {c : Bytes} {n d : Nat} :
    reachesMasks c n d = true ↔
      c.length = byteLen n ∧ (be (intOf c ^ d % n) (byteLen n)).head? = some 0x00 := by
  simp [reachesMasks, modExp_eq]

/-- What the scan accepts: zeros, one 0x01, the message (R204). -/
theorem paddingScan_eq_some_iff {x m : Bytes} :
    paddingScan x = some m ↔ ∃ z, x = List.replicate z 0x00 ++ [0x01] ++ m := by
  induction x with
  | nil => simp [paddingScan]
  | cons b x ih =>
    unfold paddingScan
    by_cases h1 : b = 0x01
    · subst h1
      simp only [if_true, Option.some.injEq]
      constructor
      · rintro rfl; exact ⟨0, rfl⟩
      · rintro ⟨z, hz⟩
        rcases z with _ | z
        · simpa using hz
        · simp [List.replicate_succ] at hz
    · by_cases h0 : b = 0x00
      · subst h0
        simp only [if_neg h1, if_true, ih]
        constructor
        · rintro ⟨z, rfl⟩; exact ⟨z + 1, by simp [List.replicate_succ]⟩
        · rintro ⟨z, hz⟩
          rcases z with _ | z
          · simp at hz
          · exact ⟨z, by simpa [List.replicate_succ] using hz⟩
      · simp only [if_neg h1, if_neg h0, reduceCtorEq, false_iff]
        rintro ⟨z, hz⟩
        rcases z with _ | z
        · simp at hz; exact h1 hz.1
        · simp [List.replicate_succ] at hz; exact h0 hz.1

theorem recoveredDB_encodedMessage {k : Nat} {m label seed : Bytes} (h : m.length + 66 ≤ k) (hs : seed.length = 32) :
    recoveredDB k (encodedMessage k m label seed) = dataBlock k m label := by
  have hx : (xorBytes seed (innerMask (maskedDataBlock k m label seed) Config.seedLen)).length = 32 := by
    simp [innerMask_length, hs, Config.seedLen]
  have h33 : (encodedMessage k m label seed).drop 33 = maskedDataBlock k m label seed := by
    rw [encodedMessage, List.drop_append_of_le_length (by simp [hx])]
    rw [List.drop_eq_nil_of_le (by simp [hx]), List.nil_append]
  have h1 : ((encodedMessage k m label seed).drop 1).take Config.seedLen =
      xorBytes seed (innerMask (maskedDataBlock k m label seed) Config.seedLen) := by
    rw [encodedMessage, List.append_assoc, List.singleton_append, List.drop_one, List.tail_cons,
      List.take_append_of_le_length (by rw [hx]; exact le_rfl), List.take_of_length_le (by rw [hx]; exact le_rfl)]
  have hseed : recoveredSeed (encodedMessage k m label seed) = seed := by
    rw [recoveredSeed, h1, h33, xorBytes_cancel _ _ (by simp [innerMask_length, hs, Config.seedLen])]
  rw [recoveredDB, h33, hseed, maskedDataBlock,
    xorBytes_cancel _ _ (by simp [innerMask_length, dataBlock_length h])]

/-- The decoder on an encoded message: it fails exactly on the label's digest, else gives the message back. -/
theorem unpadMessage_encodedMessage {k : Nat} {m label label' seed : Bytes} (h : m.length + 66 ≤ k)
    (hs : seed.length = 32) :
    unpadMessage k (encodedMessage k m label seed) label' =
      if sha256 label' = sha256 label then .ok m else .error (.raise .invalidLabelHash 0 0) := by
  rw [unpadMessage, recoveredDB_encodedMessage h hs]
  have hhead : (encodedMessage k m label seed).head? = some 0x00 := rfl
  have htake : (dataBlock k m label).take Config.hLen = sha256 label := by
    simp only [dataBlock, List.append_assoc]
    rw [List.take_append_of_le_length (by simp [sha256_length, Config.hLen]),
      List.take_of_length_le (by simp [sha256_length, Config.hLen])]
  have hdrop : paddingScan ((dataBlock k m label).drop Config.hLen) = some m := by
    rw [paddingScan_eq_some_iff]
    refine ⟨k - Config.oaepOverhead - m.length, ?_⟩
    simp only [dataBlock, List.append_assoc]
    rw [List.drop_append_of_le_length (by simp [sha256_length, Config.hLen]),
      List.drop_eq_nil_of_le (by simp [sha256_length, Config.hLen]), List.nil_append]
  simp only [hhead, htake, hdrop, ne_eq, not_true, if_false]
  by_cases hl : sha256 label' = sha256 label
  · simp [hl]
  · rw [if_pos (fun h => hl h.symm), if_neg hl]

/-- What the decoder can answer: a message, or one of the three errors of R205. -/
theorem oaepDecode_cases (c : Bytes) (n d : Nat) (label : Bytes) :
    (∃ m, oaepDecode c n d label = .ok m) ∨
    (c.length ≠ byteLen n ∧
      oaepDecode c n d label = .error (.raise .invalidCiphertextLength (byteLen n) c.length)) ∨
    oaepDecode c n d label = .error (.raise .invalidPadding 0 0) ∨
    oaepDecode c n d label = .error (.raise .invalidLabelHash 0 0) := by
  unfold oaepDecode unpadMessage
  split
  · exact .inr (.inl ⟨‹_›, rfl⟩)
  · split
    · exact .inr (.inr (.inl rfl))
    · split
      · exact .inr (.inr (.inr rfl))
      · split
        · exact .inl ⟨_, rfl⟩
        · exact .inr (.inr (.inl rfl))

end Sys2Proof.Machine
end

