-- ==== Sys2Proof/Laws/Primes.lean ====
section
/-! SUPPORT. The ranges of the draws, the decomposition of n − 1, and what one Miller–Rabin round decides. -/

namespace Sys2Proof.Machine

theorem drawSeed_length (g : Rng) : (drawSeed g).1.length = 32 := be_length _ _

theorem baseInRange_spec {n : Nat} (x : Nat) (h : 5 ≤ n) : 2 ≤ baseInRange n x ∧ baseInRange n x ≤ n - 2 := by
  unfold baseInRange
  split
  · assumption
  · have := Nat.mod_lt x (show 0 < n - 3 by omega); omega

theorem baseInRange_of_mem {n x : Nat} (h1 : 2 ≤ x) (h2 : x ≤ n - 2) : baseInRange n x = x := by
  simp [baseInRange, h1, h2]

/-- A candidate is odd and has exactly `bits` bits (R173). -/
theorem candidateInRange_spec {bits : Nat} (x : Nat) (h : 1 ≤ bits) :
    candidateInRange bits x % 2 = 1 ∧ bitlen (candidateInRange bits x) = bits := by
  unfold candidateInRange
  constructor
  · simp
  · rw [bitlen_eq_iff (by omega)]
    refine ⟨?_, ?_⟩
    · exact le_trans Nat.right_le_or Nat.left_le_or
    · refine Nat.or_lt_two_pow (Nat.or_lt_two_pow (Nat.mod_lt _ (by positivity)) ?_) ?_
      · exact Nat.pow_lt_pow_right (by decide) (by omega)
      · exact Nat.one_lt_two_pow (by omega)

/-- An answer that is a candidate is taken as it is. -/
theorem candidateInRange_self {x : Nat} (h : x % 2 = 1) : candidateInRange (bitlen x) x = x := by
  have hb : bitlen x ≠ 0 := by rw [Ne, bitlen_eq_zero]; omega
  obtain ⟨h1, h2⟩ := (bitlen_eq_iff hb).1 rfl
  unfold candidateInRange
  rw [Nat.mod_eq_of_lt h2]
  apply Nat.eq_of_testBit_eq
  intro i
  rw [Nat.testBit_or, Nat.testBit_or, Nat.testBit_two_pow]
  by_cases hi : bitlen x - 1 = i
  · subst hi
    have : x.testBit (bitlen x - 1) = true := by
      rw [Nat.testBit_eq_decide_div_mod_eq]
      have h3 : x / 2 ^ (bitlen x - 1) < 2 := by
        rw [Nat.div_lt_iff_lt_mul (by positivity), ← pow_succ', Nat.sub_add_cancel (by omega)]; exact h2
      have h4 : 1 ≤ x / 2 ^ (bitlen x - 1) := (Nat.one_le_div_iff (by positivity)).2 h1
      have h5 : x / 2 ^ (bitlen x - 1) = 1 := by omega
      simp [h5]
    simp [this]
  · by_cases h0 : i = 0
    · subst h0; simp [Nat.testBit_zero, h]
    · simp [hi, Nat.testBit_one_eq_true_iff_self_eq_zero, h0]

theorem splitPow2_spec (fuel x : Nat) (hx : x ≠ 0) (h : x < 2 ^ fuel) :
    x = 2 ^ (splitPow2 fuel x).1 * (splitPow2 fuel x).2 ∧ (splitPow2 fuel x).2 % 2 = 1 := by
  induction fuel generalizing x with
  | zero => simp at h; omega
  | succ fuel ih =>
    unfold splitPow2
    split
    · rename_i he
      have h2 : x / 2 < 2 ^ fuel := by rw [pow_succ] at h; omega
      obtain ⟨h3, h4⟩ := ih (x / 2) (by omega) h2
      refine ⟨?_, h4⟩
      simp only [pow_succ]
      rw [Nat.mul_comm (2 ^ _) 2, Nat.mul_assoc, ← h3]; omega
    · exact ⟨by simp, by simp; omega⟩

/-- The decomposition of R170. -/
theorem decompose_spec {n : Nat} (h : 1 < n) :
    n - 1 = 2 ^ (decompose n).1 * (decompose n).2 ∧ (decompose n).2 % 2 = 1 :=
  splitPow2_spec _ _ (by omega) (lt_two_pow_bitlen _)

/-- The decomposition is unique (R170). -/
theorem decompose_unique {r d r' d' : Nat} (h : 2 ^ r * d = 2 ^ r' * d') (hd : d % 2 = 1) (hd' : d' % 2 = 1) :
    r = r' ∧ d = d' := by
  wlog hle : r ≤ r' generalizing r d r' d'
  · obtain ⟨h1, h2⟩ := this h.symm hd' hd (by omega); exact ⟨h1.symm, h2.symm⟩
  obtain ⟨k, rfl⟩ := Nat.exists_eq_add_of_le hle
  rw [pow_add, Nat.mul_assoc] at h
  have h1 := Nat.eq_of_mul_eq_mul_left (by positivity) h
  rcases k with _ | k
  · simpa using h1
  · exfalso
    rw [h1, pow_succ, Nat.mul_comm (2 ^ k) 2, Nat.mul_assoc] at hd; omega

theorem modExp_two (n y e : Nat) : modExp (y ^ e % n) 2 n = y ^ (e * 2) % n := by
  rw [modExp_eq, ← Nat.pow_mod, ← pow_mul]

/-- The squaring loop looks at the powers a^(2d), a^(4d), … (R170). -/
theorem squaresReach_iff (n a e j : Nat) :
    squaresReach n j (a ^ e % n) = true ↔ ∃ i, 1 ≤ i ∧ i ≤ j ∧ a ^ (2 ^ i * e) % n = n - 1 := by
  induction j generalizing e with
  | zero =>
    constructor
    · intro h; cases h
    · rintro ⟨i, h1, h2, -⟩; omega
  | succ j ih =>
    rw [squaresReach, modExp_two, Bool.or_eq_true, beq_iff_eq, ih]
    constructor
    · rintro (h | ⟨i, h1, h2, h3⟩)
      · exact ⟨1, le_rfl, by omega, by rw [← h]; congr 2; ring⟩
      · exact ⟨i + 1, by omega, by omega, by rw [← h3]; congr 2; ring⟩
    · rintro ⟨i, h1, h2, h3⟩
      rcases Nat.lt_or_ge 1 i with hi | hi
      · refine .inr ⟨i - 1, by omega, by omega, ?_⟩
        rw [← h3]; congr 2
        obtain ⟨i, rfl⟩ := Nat.exists_eq_add_of_le (show 1 ≤ i by omega)
        rw [show 1 + i - 1 = i by omega]; ring
      · have : i = 1 := by omega
        subst this
        exact .inl (by rw [← h3]; congr 2; ring)

/-- One round, for n odd and above 3 (R170). -/
theorem roundPasses_iff {n a : Nat} (h : 3 < n) (ho : n % 2 = 1) :
    roundPasses n a = true ↔
      a ^ (decompose n).2 % n = 1 ∨ ∃ j, j < (decompose n).1 ∧ a ^ (2 ^ j * (decompose n).2) % n = n - 1 := by
  have hr : 1 ≤ (decompose n).1 := by
    obtain ⟨h1, h2⟩ := decompose_spec (show 1 < n by omega)
    by_contra h0
    have : (decompose n).1 = 0 := by omega
    rw [this] at h1; omega
  unfold roundPasses
  simp only [modExp_eq, Bool.or_eq_true, beq_iff_eq, squaresReach_iff]
  constructor
  · rintro ((h1 | h1) | ⟨i, h1, h2, h3⟩)
    · exact .inl h1
    · exact .inr ⟨0, by omega, by simpa using h1⟩
    · exact .inr ⟨i, by omega, h3⟩
  · rintro (h1 | ⟨j, h1, h2⟩)
    · exact .inl (.inl h1)
    · rcases j with _ | j
      · exact .inl (.inr (by simpa using h2))
      · exact .inr ⟨j + 1, by omega, by omega, h2⟩

/-- The round's test is the property of R170. -/
theorem passesRound_iff {n a : Nat} (h : 3 < n) (ho : n % 2 = 1) : PassesRound n a ↔ roundPasses n a = true := by
  rw [roundPasses_iff h ho]
  obtain ⟨h1, h2⟩ := decompose_spec (show 1 < n by omega)
  constructor
  · rintro ⟨r, d, h3, h4, h5⟩
    obtain ⟨rfl, rfl⟩ := decompose_unique (h1.symm.trans h3) h2 h4
    exact h5
  · intro h; exact ⟨_, _, h1, h2, h⟩

theorem isPrime_of_le_one {n rounds : Nat} {g : Rng} (h : n ≤ 1) : isPrime n rounds g = (false, g) := by
  simp [isPrime, h]

theorem isPrime_two_three {n rounds : Nat} {g : Rng} (h : n = 2 ∨ n = 3) : isPrime n rounds g = (true, g) := by
  rcases h with rfl | rfl <;> rfl

theorem isPrime_of_even {n rounds : Nat} {g : Rng} (h : 3 < n) (he : n % 2 = 0) :
    isPrime n rounds g = (false, g) := by
  simp [isPrime, he, show ¬ n ≤ 1 by omega, show n ≠ 2 by omega, show n ≠ 3 by omega]

theorem isPrime_of_odd {n rounds : Nat} {g : Rng} (h : 3 < n) (ho : n % 2 = 1) :
    isPrime n rounds g = mrRounds n rounds g := by
  simp [isPrime, ho, show ¬ n ≤ 1 by omega, show n ≠ 2 by omega, show n ≠ 3 by omega]

/-- An accepted number is at least 2. -/
theorem two_le_of_isPrime {n rounds : Nat} {g : Rng} (h : (isPrime n rounds g).1 = true) : 2 ≤ n := by
  by_contra hn
  rw [isPrime_of_le_one (by omega)] at h
  exact absurd h (by simp)

end Sys2Proof.Machine
end

