-- ==== Sys2Proof/Laws/Advance.lean ====
section
/-! SUPPORT. Everything the engine's step can end in, said once: a success, an error entry, private progress,
a refusal. Frames and invariants are read off these. -/

namespace Sys2Proof.Machine

/-- The destinations a result is written to. -/
def Result.dests : Result → List Reg
  | .out _ => [.out]
  | .hacc _ => [.hacc]
  | .res0 _ => [.res0]
  | .bezout _ _ _ => [.res0, .res1, .res2]
  | .prime _ => [.status]
  | .key _ _ _ _ _ => [.kn, .ke, .kd, .kp, .kq]

/-- The errors a command can end with, and their context (R252, R253). -/
def Raises (i : Instr) (e : Err) (exp act : Nat) : Prop :=
  (i = .mgf1 ∧ e = .maskTooLong ∧ exp = 2 ^ 37 ∧ 2 ^ 37 < act) ∨
  ((i = .modinv ∨ i = .genkey) ∧ e = .noInverse ∧ exp = 0 ∧ act = 0) ∨
  (i = .oaepEnc ∧ e = .messageTooLong ∧ exp ≤ act) ∨
  (i = .oaepDec ∧ e = .invalidCiphertextLength ∧ exp ≠ act) ∨
  (i = .oaepDec ∧ (e = .invalidPadding ∨ e = .invalidLabelHash) ∧ exp = 0 ∧ act = 0)

/-- The commands that consume draws (R83). -/
def draws : List Instr := [.isprime, .genprime, .genkey, .oaepEnc]

/-- A step of the engine ends in one of these next states. -/
inductive Advances (s : State) (l : Latch) : State → Prop
  | success (r : Result) (g : Rng) : r.dests = destinations l.instr → r.fits s.params = true →
      (l.instr ∉ draws → g = s.rng) → Advances s l ((s.withRng g).succeed r)
  | failure (e : Err) (exp act : Nat) (g : Rng) : Raises l.instr e exp act →
      fitsInt s.params exp = true ∧ fitsInt s.params act = true → (l.instr ∉ draws → g = s.rng) → Advances s l (errorEntry l.instr e exp act (s.withRng g))
  | progress (l' : Latch) (g : Rng) : l'.instr = l.instr → (l.instr = .genprime ∨ l.instr = .genkey) →
      (∀ e : Engine, l.sourcesHeld e → l'.sourcesHeld e) → (l.legal s.params → l'.legal s.params) →
      Advances s l ((s.withRng g).progress l')

theorem withRng_self (s : State) : s.withRng s.rng = s := rfl

/-- A successful completion that consumed no draw. -/
theorem Advances.success' {s : State} {l : Latch} {r : Result} (hd : r.dests = destinations l.instr)
    (hf : r.fits s.params = true) : Advances s l (s.succeed r) := .success r s.rng hd hf (fun _ => rfl)

/-- A completion with an error that consumed no draw. -/
theorem fail_next {s t : State} {l : Latch} {e : Err} {exp act : Nat} (h : fail l.instr e exp act s = .next t)
    (hr : Raises l.instr e exp act) : Advances s l t := by
  obtain ⟨hf, rfl⟩ := fail_next_iff.1 h
  exact .failure e exp act s.rng hr hf (fun _ => rfl)

/-- The candidate drawn for half of a supported size has that many bits. -/
theorem half_pos {p : Params} {bits : Nat} (h : supportsBits p bits = true) : 1 ≤ bits / 2 ∧ bits % 2 = 0 := by
  simp only [supportsBits, Bool.and_eq_true, beq_iff_eq, decide_eq_true_eq] at h; omega

theorem complete_next {s t : State} {l : Latch} {r : Result} {g : Rng}
    (h : complete r (s.withRng g) = .next t) (hd : r.dests = destinations l.instr)
    (hg : l.instr ∉ draws → g = s.rng) : Advances s l t := by
  obtain ⟨hf, rfl⟩ := complete_next_iff.1 h
  exact .success r g hd hf hg

theorem conclude_next {s t : State} {l : Latch} {v : Except Stop Result} {g : Rng}
    (h : conclude l.instr v (s.withRng g) = .next t)
    (hd : ∀ r, v = .ok r → r.dests = destinations l.instr)
    (he : ∀ e exp act, v = .error (.raise e exp act) → Raises l.instr e exp act)
    (hg : l.instr ∉ draws → g = s.rng) : Advances s l t := by
  rcases conclude_next_iff.1 h with ⟨r, hr, hf, rfl⟩ | ⟨e, exp, act, hr, hf, rfl⟩
  · exact .success r g (hd r hr) hf hg
  · exact .failure e exp act g (he e exp act hr) hf hg

theorem map_out_ok {v : Except Stop Bytes} {r : Result} (h : v.map Result.out = .ok r) : ∃ m, r = .out m := by
  cases v with
  | error e => cases h
  | ok m => exact ⟨m, by cases h; rfl⟩

theorem map_out_error {v : Except Stop Bytes} {x : Stop} (h : v.map Result.out = .error x) : v = .error x := by
  cases v with
  | error e => cases h; rfl
  | ok m => cases h

theorem oaepDecode_raises {c label : Bytes} {n d : Nat} {e : Err} {exp act : Nat}
    (h : oaepDecode c n d label = .error (.raise e exp act)) : Raises .oaepDec e exp act := by
  unfold Raises
  rcases oaepDecode_cases c n d label with ⟨m, h1⟩ | ⟨hl, h1⟩ | h1 | h1 <;> rw [h1] at h <;> cases h
  · simpa using fun h2 => hl h2.symm
  · simp
  · simp

/-- Everything a step of the engine can do (R85, R87, R255, R263). -/
theorem advances_of_next {s t : State} {l : Latch} (h : advance s l = .next t) : Advances s l t := by
  cases l with
  | mgf1 seed n =>
    refine conclude_next (l := .mgf1 seed n) (g := s.rng) h (fun r hr => ?_) (fun e exp act hr => ?_) (fun _ => rfl)
    · obtain ⟨m, rfl⟩ := map_out_ok hr; rfl
    · have hr := map_out_error hr
      rcases Nat.lt_or_ge Config.mgf1Max n with hk | hk
      · rw [mgf1_of_gt hk] at hr; cases hr
        exact .inl ⟨rfl, rfl, by decide, by simpa [Config.mgf1Max] using hk⟩
      · rw [mgf1_of_le hk] at hr; cases hr
  | modinv e phi =>
    simp only [advance] at h
    split at h
    · exact complete_next (g := s.rng) h rfl (fun _ => rfl)
    · exact fail_next (l := .modinv e phi) h (.inr (.inl ⟨.inl rfl, rfl, rfl, rfl⟩))
  | isprime n rounds => exact complete_next h rfl (fun hn => absurd (by simp [draws, Latch.instr]) hn)
  | genprime bits c =>
    cases c with
    | none =>
      cases h
      refine .progress (.genprime bits _) _ rfl (.inl rfl) (fun _ he => he) (fun hl => ⟨hl.1, ?_⟩)
      rintro x ⟨⟩
      exact candidateInRange_spec _ (Nat.one_le_iff_ne_zero.2 hl.1)
    | some c =>
      simp only [advance] at h
      split at h
      · exact complete_next h rfl (fun hn => absurd (by simp [draws, Latch.instr]) hn)
      · cases h
        exact .progress (.genprime bits none) _ rfl (.inl rfl) (fun _ he => he) (fun hl => ⟨hl.1, by simp⟩)
  | genkey bits p c =>
    cases c with
    | none =>
      have hlegal : Latch.legal s.params (.genkey bits p none) →
          Latch.legal s.params (.genkey bits p (some (drawCandidate (bits / 2) s.rng).1)) := by
        rintro ⟨h1, h2, -⟩
        refine ⟨h1, h2, ?_⟩
        rintro x ⟨⟩
        exact candidateInRange_spec _ (half_pos h1).1
      cases p <;> (cases h; exact .progress _ _ rfl (.inr rfl) (fun _ he => he) hlegal)
    | some c =>
      cases p with
      | none =>
        simp only [advance] at h
        split at h <;> rename_i hacc <;> cases h
        · exact .progress (.genkey bits (some c) none) _ rfl (.inr rfl) (fun _ he => he)
            (fun hl => ⟨hl.1, fun x hx => ⟨hl.2.2 x hx, by cases hx; exact ⟨s.rng, hacc⟩⟩, by simp⟩)
        · exact .progress (.genkey bits none none) _ rfl (.inr rfl) (fun _ he => he)
            (fun hl => ⟨hl.1, hl.2.1, by simp⟩)
      | some p =>
        simp only [advance] at h
        split at h
        · refine conclude_next (l := .genkey bits (some p) (some c)) h (fun r hr => ?_) (fun e exp act hr => ?_)
            (fun hn => absurd (by simp [draws, Latch.instr]) hn) <;> unfold deriveKey at hr <;> split at hr <;> cases hr
          · rfl
          · exact .inr (.inl ⟨.inr rfl, rfl, rfl, rfl⟩)
        · cases h
          exact .progress (.genkey bits (some p) none) _ rfl (.inr rfl) (fun _ he => he)
            (fun hl => ⟨hl.1, hl.2.1, by simp⟩)
  | oaepEnc m label n e =>
    simp only [advance] at h
    split at h
    · rename_i hm
      rw [messageTooLong_iff] at hm
      refine fail_next (l := .oaepEnc m label n e) h (.inr (.inr (.inl ⟨rfl, rfl, ?_⟩)))
      simp only [Config.oaepOverhead]; omega
    · rename_i hm
      split at h
      · cases h
      · rw [oaepEncode_of_fits (by rw [messageTooLong_iff] at hm; omega)] at h
        exact complete_next h rfl (fun hn => absurd (by simp [draws, Latch.instr]) hn)
  | oaepDec c label n d =>
    simp only [advance] at h
    split at h
    · cases h
    · refine conclude_next (l := .oaepDec c label n d) (g := s.rng) h (fun r hr => ?_) (fun e exp act hr => ?_)
        (fun _ => rfl)
      · obtain ⟨m, rfl⟩ := map_out_ok hr; rfl
      · exact oaepDecode_raises (map_out_error hr)
  | _ => exact complete_next (g := s.rng) h rfl (fun _ => rfl)

theorem advance_ne_fault {s : State} {l : Latch} {f : Fault} : advance s l ≠ .fault f := by
  cases l with
  | modinv e phi => simp only [advance]; split <;> simp [complete_ne_fault, fail_ne_fault]
  | genprime bits c => cases c <;> simp only [advance] <;> (try split) <;> simp [complete_ne_fault]
  | genkey bits p c => cases c <;> cases p <;> simp only [advance] <;> (try split) <;> simp [conclude_ne_fault]
  | oaepEnc m label n e =>
    simp only [advance]; split <;> (try split) <;> simp [conclude_ne_fault, fail_ne_fault]
  | oaepDec c label n d => simp only [advance]; split <;> simp [conclude_ne_fault]
  | _ => first | exact complete_ne_fault | exact conclude_ne_fault

/-- The content of a register after a result is written: only the destinations differ. -/
theorem content_write {r : Result} {e : Engine} {q : Reg} (h : q ∉ r.dests) (hs : q ≠ .status) :
    (r.write e).content q = e.content q := by
  cases r <;> cases q <;> simp_all [Result.dests, Result.write, Engine.content]

/-- The content of a register after the end of a command: only the status registers differ. -/
theorem content_finish {e : Engine} {code : BitVec 8} {exp act : Nat} {q : Reg} (hs : q ≠ .status)
    (h1 : q ≠ .errinfoExp) (h2 : q ≠ .errinfoAct) : (e.finish code exp act).content q = e.content q := by
  cases q <;> simp_all [Engine.finish, Engine.content]

theorem content_clear {e : Engine} {q r : Reg} (h : q ≠ r) (hs : q ≠ .status) :
    (e.clear r).content q = e.content q := by
  cases r <;> cases q <;> simp_all [Engine.clear, Engine.content]

theorem content_clear_foldl {e : Engine} {q : Reg} {rs : List Reg} (h : q ∉ rs) (hs : q ≠ .status) :
    (rs.foldl Engine.clear e).content q = e.content q := by
  induction rs generalizing e with
  | nil => rfl
  | cons r rs ih =>
    rw [List.mem_cons, not_or] at h
    rw [List.foldl_cons, ih h.2, content_clear h.1 hs]

end Sys2Proof.Machine
end

