-- ==== Sys2Proof/Laws/Fits.lean ====
section
/-! SUPPORT. The bounds of R22 over the updates of the engine: which updates keep every register within its
bound. -/

namespace Sys2Proof.Machine

/-- With no bound set, everything fits. -/
theorem fits_of_unbounded {p : Params} (h1 : p.maxIntBits = none) (h2 : p.maxBufBytes = none) (e : Engine) :
    e.fits p := ⟨fun _ _ _ => by simp [fitsInt, h1], fun _ _ _ => by simp [fitsBuf, h2]⟩

/-- A smaller natural fits where a larger one does. -/
theorem fitsInt_mono {p : Params} {a b : Nat} (hab : a ≤ b) (h : fitsInt p b = true) : fitsInt p a = true := by
  simp only [fitsInt] at *
  cases h2 : p.maxIntBits with
  | none => rfl
  | some B => simp [h2] at h ⊢; exact le_trans (bitlen_mono hab) (by exact_mod_cast h)

/-- A shorter string fits where a longer one does. -/
theorem fitsBuf_mono {p : Params} {a b : Nat} (hab : a ≤ b) (h : fitsBuf p b = true) : fitsBuf p a = true := by
  simp only [fitsBuf] at *
  cases h2 : p.maxBufBytes with
  | none => rfl
  | some B => simp [h2] at h ⊢; omega

/-- Writing a fitting result keeps the bounds. -/
theorem fits_write {p : Params} {r : Result} {e : Engine} (he : e.fits p) (hr : r.fits p = true) : (r.write e).fits p := by
  obtain ⟨h1, h2⟩ := he
  constructor
  · intro q v hq
    by_cases hs : q = .status
    · subst hs; simp [Engine.content] at hq
    by_cases hd : q ∈ r.dests
    · cases r <;> simp only [Result.dests, List.mem_cons, List.not_mem_nil, or_false] at hd <;> simp only [Result.fits, Bool.and_eq_true] at hr
      · subst hd; simp [Result.write, Engine.content] at hq
      · subst hd; simp [Result.write, Engine.content] at hq
      · subst hd; simp [Result.write, Engine.content] at hq; rw [← hq]; exact hr
      · rcases hd with rfl | rfl | rfl <;> simp [Result.write, Engine.content] at hq <;> rw [← hq]
        exacts [hr.1.1, hr.1.2, hr.2]
      · exact absurd hd hs
      · rcases hd with rfl | rfl | rfl | rfl | rfl <;> simp [Result.write, Engine.content] at hq <;> rw [← hq]
        exacts [hr.1.1.1.1, hr.1.1.1.2, hr.1.1.2, hr.1.2, hr.2]
    · rw [content_write hd hs] at hq; exact h1 q v hq
  · intro q v hq
    by_cases hs : q = .status
    · subst hs; simp [Engine.content] at hq
    by_cases hd : q ∈ r.dests
    · cases r <;> simp only [Result.dests, List.mem_cons, List.not_mem_nil, or_false] at hd <;> simp only [Result.fits, Bool.and_eq_true] at hr
      · subst hd; simp [Result.write, Engine.content] at hq; rw [← hq]; exact hr
      · subst hd; simp [Result.write, Engine.content] at hq; rw [← hq]; exact hr
      · subst hd; simp [Result.write, Engine.content] at hq
      · rcases hd with rfl | rfl | rfl <;> simp [Result.write, Engine.content] at hq 
      · exact absurd hd hs
      · rcases hd with rfl | rfl | rfl | rfl | rfl <;> simp [Result.write, Engine.content] at hq
    · rw [content_write hd hs] at hq; exact h2 q v hq

/-- The bounds carry over to an engine whose context registers fit, and whose other registers have the same
contents, or ⊥. -/
theorem fits_congr {p : Params} {e e' : Engine} (he : e.fits p) (h1 : fitsInt p e'.errinfoExp = true)
    (h2 : fitsInt p e'.errinfoAct = true)
    (h : ∀ q, q ≠ .status → q ≠ .errinfoExp → q ≠ .errinfoAct → e'.content q = e.content q ∨ e'.content q = none) :
    e'.fits p := by
  constructor
  · intro q v hq
    by_cases hs : q = .status
    · subst hs; simp [Engine.content] at hq
    by_cases n1 : q = .errinfoExp
    · subst n1; cases hq; exact h1
    by_cases n2 : q = .errinfoAct
    · subst n2; cases hq; exact h2
    rcases h q hs n1 n2 with h | h <;> rw [h] at hq
    · exact he.1 q v hq
    · cases hq
  · intro q v hq
    by_cases hs : q = .status
    · subst hs; simp [Engine.content] at hq
    by_cases n1 : q = .errinfoExp
    · subst n1; simp [Engine.content] at hq
    by_cases n2 : q = .errinfoAct
    · subst n2; simp [Engine.content] at hq
    rcases h q hs n1 n2 with h | h <;> rw [h] at hq
    · exact he.2 q v hq
    · cases hq

theorem content_clear_or {e : Engine} {q r : Reg} (hs : q ≠ .status) : (e.clear r).content q = e.content q ∨ (e.clear r).content q = none := by
  by_cases h : q = r
  · subst h; cases q <;> first | exact .inl rfl | exact .inr rfl
  · exact .inl (content_clear h hs)

theorem content_clear_foldl_or {e : Engine} {q : Reg} {rs : List Reg} (hs : q ≠ .status) :
    (rs.foldl Engine.clear e).content q = e.content q ∨ (rs.foldl Engine.clear e).content q = none := by
  induction rs generalizing e with
  | nil => exact .inl rfl
  | cons r rs ih =>
    rw [List.foldl_cons]
    rcases ih (e := e.clear r) with h | h
    · rcases content_clear_or (e := e) (r := r) hs with h' | h'
      · exact .inl (h.trans h')
      · exact .inr (h.trans h')
    · exact .inr h

end Sys2Proof.Machine
end

