-- ==== Sys2Proof/Laws/Issue.lean ====
section
/-! SUPPORT. What an accepted issue latches (R84, R85), and everything a command's meaning can answer with a
next state: the issue, or a step of the running operation. -/

namespace Sys2Proof.Machine

/-- An accepted issue latches the command with its sources' contents, all of them legal. -/
theorem latchOf_spec {p e i l} (h : latchOf p e i = .ok l) : l.instr = i ∧ l.sourcesHeld e ∧ l.legal p := by
  cases i <;> simp only [latchOf, latchHash, latchHInit, latchHUpdate, latchHDigest, latchHHexdigest, latchMgf1, latchMontmul, latchModexp, latchEgcd, latchModinv, latchIsprime, latchGenprime, latchGenkey, latchOaepEnc, latchOaepDec, bind_ok_iff, need_ok_iff, require_ok_iff] at h
  case hInit => cases h; exact ⟨rfl, trivial, trivial⟩
  case isprime => obtain ⟨_, h1, h⟩ := h; cases h; exact ⟨rfl, ⟨h1, rfl⟩, trivial⟩
  case egcd => obtain ⟨_, h1, _, h2, h⟩ := h; cases h; exact ⟨rfl, ⟨h1, h2⟩, trivial⟩
  case hash => obtain ⟨_, h1, _, h2, h⟩ := h; cases h; exact ⟨rfl, h1, (of_decide_eq_true h2 : _ < _)⟩
  case hUpdate => obtain ⟨_, h1, _, h2, h⟩ := h; cases h; exact ⟨rfl, ⟨h1, rfl⟩, h2⟩
  case hDigest => obtain ⟨_, h1, h⟩ := h; cases h; exact ⟨rfl, rfl, (of_decide_eq_true h1 : _ < _)⟩
  case hHexdigest => obtain ⟨_, h1, h⟩ := h; cases h; exact ⟨rfl, rfl, (of_decide_eq_true h1 : _ < _)⟩
  case mgf1 =>
    obtain ⟨_, h1, _, h2, _, h3, _, h4, h⟩ := h; cases h
    exact ⟨rfl, ⟨h1, h2⟩, (by rw [Bool.or_eq_true] at h3; exact h3.imp_left of_decide_eq_true), of_decide_eq_true h4⟩
  case montmul =>
    obtain ⟨_, h1, _, h2, _, h3, _, h4, h⟩ := h; cases h
    exact ⟨rfl, ⟨h1, h2, h3⟩, by (simp [and_assoc] at h4; exact h4)⟩
  case modexp => obtain ⟨_, h1, _, h2, _, h3, _, h4, h⟩ := h; cases h; exact ⟨rfl, ⟨h1, h2, h3⟩, by (simp at h4; exact h4)⟩
  case modinv => obtain ⟨_, h1, _, h2, _, h4, h⟩ := h; cases h; exact ⟨rfl, ⟨h1, h2⟩, by (simp at h4; exact h4)⟩
  case genprime => obtain ⟨_, h1, _, h4, h⟩ := h; cases h; exact ⟨rfl, h1, by simpa using h4, by simp⟩
  case genkey => obtain ⟨_, h1, _, h4, h⟩ := h; cases h; exact ⟨rfl, h1, h4, by simp, by simp⟩
  case oaepEnc =>
    obtain ⟨_, h1, _, h2, _, h3, _, h4, h⟩ := h; cases h
    exact ⟨rfl, ⟨h1, rfl, h2, h3⟩, (of_decide_eq_true h4 : _ < _)⟩
  case oaepDec =>
    obtain ⟨_, h1, _, h2, _, h3, _, h4, _, h5, h⟩ := h; cases h
    exact ⟨rfl, ⟨h1, rfl, h2, h3⟩, of_decide_eq_true h4, of_decide_eq_true h5⟩

/-- Everything a command's meaning can do. -/
theorem exec_next {i : Instr} {s t : State} (h : exec i s = .next t) :
   (s.engine.busy = false ∧ ∃ l, latchOf s.params s.engine i = .ok l ∧ t = s.accept l) ∨ 
   (∃ l, s.Running l ∧ l.instr = i ∧ Advances s l t) := by
  cases hb : s.engine.busy with
  | false =>
    rw [exec_idle hb, issue_next_iff] at h
    exact .inl ⟨rfl, h⟩
  | true =>
    cases hl : s.engine.latch with
    | none => rw [exec_lost hb hl] at h; cases h
    | some l =>
      by_cases hi : l.instr = i
      · subst hi
        rw [exec_running ⟨hb, hl⟩] at h
        exact .inr ⟨l, ⟨hb, hl⟩, rfl, advances_of_next h⟩
      · rw [exec_running_other ⟨hb, hl⟩ hi] at h; cases h

end Sys2Proof.Machine
end

