-- ==== Sys2Proof/Laws/PerInstr.lean ====
section
/-! SUPPORT. Statements made of every command as syntax, one lemma per constructor. -/

namespace Sys2Proof.Laws.Encoding

/-- The command's word: well formed, bits 31:8 zero, its opcode a row of R82, and decoded to the command
whether it is given as a word or as the opcode table's number. -/
def Statement (i : Instr) : Prop :=
  i.wf = true ∧ zeroField (encode i) = 0 ∧ (opcodeField (encode i), i) ∈ opcodeMap ∧
    decodeTableWord 32 (encode i).toNat = some i

theorem hash : Statement .hash := by unfold Statement; decide

theorem hInit : Statement .hInit := by unfold Statement; decide

theorem hUpdate : Statement .hUpdate := by unfold Statement; decide

theorem hDigest : Statement .hDigest := by unfold Statement; decide

theorem hHexdigest : Statement .hHexdigest := by unfold Statement; decide

theorem mgf1 : Statement .mgf1 := by unfold Statement; decide

theorem montmul : Statement .montmul := by unfold Statement; decide

theorem modexp : Statement .modexp := by unfold Statement; decide

theorem egcd : Statement .egcd := by unfold Statement; decide

theorem modinv : Statement .modinv := by unfold Statement; decide

theorem isprime : Statement .isprime := by unfold Statement; decide

theorem genprime : Statement .genprime := by unfold Statement; decide

theorem genkey : Statement .genkey := by unfold Statement; decide

theorem oaepEnc : Statement .oaepEnc := by unfold Statement; decide

theorem oaepDec : Statement .oaepDec := by unfold Statement; decide

end Sys2Proof.Laws.Encoding
end

