-- ==== Sys2Proof/Laws/Steps.lean ====
section
/-! SUPPORT. Everything a step of the machine can do to the engine, said once: a command's meaning, the reset
event, an illegal word, a host write, or nothing. -/

namespace Sys2Proof.Machine

/-- The index of a register names it (R21). -/
theorem ofIndex_index (r : Reg) : Reg.ofIndex r.index = some r := by cases r <;> decide

theorem setInt_frame (e : Engine) (r : Reg) (n : Nat) : (e.setInt r n).prime = e.prime ∧ (e.setInt r n).hacc = e.hacc ∧ (e.setInt r n).latch = e.latch ∧ (e.setInt r n).busy = e.busy ∧ (e.setInt r n).err = e.err ∧ (e.setInt r n).errinfoExp = e.errinfoExp ∧ (e.setInt r n).errinfoAct = e.errinfoAct := by
  cases r <;> exact ⟨rfl, rfl, rfl, rfl, rfl, rfl, rfl⟩
theorem setBuf_frame (e : Engine) (r : Reg) (n : Bytes) : (e.setBuf r n).prime = e.prime ∧ (e.setBuf r n).hacc = e.hacc ∧ (e.setBuf r n).latch = e.latch ∧ (e.setBuf r n).busy = e.busy ∧ (e.setBuf r n).err = e.err ∧ (e.setBuf r n).errinfoExp = e.errinfoExp ∧ (e.setBuf r n).errinfoAct = e.errinfoAct := by
  cases r <;> exact ⟨rfl, rfl, rfl, rfl, rfl, rfl, rfl⟩

/-- What a step that answers a next state did. -/
inductive StepShape (s t : State) : Prop
  | exec (i : Instr) (u : State) (he : u.engine = s.engine) (hp : u.params = s.params) (h : Sys2Proof.Machine.exec i u = .next t)
  | reset (h1 : s.agenda.head? = some .reset) (h : t.engine = Engine.reset) (hp : t.params = s.params)
  | illegal (hb : s.engine.busy = false) (h : t.engine = { s.engine with err := 0x80, errinfoExp := 0, errinfoAct := 0 }) (hp : t.params = s.params)
  | setInt (r : Reg) (n : Nat) (hb : s.engine.busy = false) (hf : fitsInt s.params n = true) (h : t.engine = s.engine.setInt r n) (hp : t.params = s.params)
  | setBuf (r : Reg) (x : Bytes) (hb : s.engine.busy = false) (hf : fitsBuf s.params x.length = true) (h : t.engine = s.engine.setBuf r x) (hp : t.params = s.params)
  | same (h : t.engine = s.engine) (hp : t.params = s.params)

theorem readOutcome_next {s t : State} {v} (h : readOutcome s v = .next t) : ∃ x, t = s.record x := by
  cases v <;> simp [readOutcome] at h; exact ⟨_, h.symm⟩

theorem step_shape {s t : State} (h : step s = .next t) : StepShape s t := by
  have heng : ∀ ag, engineStep { s with agenda := ag } = .next t → StepShape s t := by
    intro ag h
    unfold engineStep at h
    split at h
    · split at h
      · exact .exec _ { s with agenda := ag } rfl rfl h
      · cases h
    · cases h; exact .same rfl rfl
  unfold step nextStep at h
  split at h
  · rename_i h0; 
    exact heng s.agenda h
  · rename_i ev rest h0
    unfold handleEvent at h
    split at h
    · rename_i a
      cases a with
      | readStatus => cases h; exact .same rfl rfl
      | writeInt i v =>
        simp only [hostAccess] at h
        split at h
        · cases h
        rename_i hb
        unfold writeOutcome at h
        split at h
        · rename_i e he
          cases h
          unfold hostWriteInt at he
          simp only [bind_ok_iff, require_ok_iff] at he
          obtain ⟨r, -, _, -, _, -, _, h1, _, h2, h3⟩ := he
          cases h3
          refine .setInt r v.toNat (by simpa using hb) ?_ rfl rfl
          have : ((v.toNat : Nat) : Int) = v := Int.toNat_of_nonneg (by simpa using h1)
          rw [this]; exact h2
        · cases h
      | writeBuf i x =>
        simp only [hostAccess] at h
        split at h
        · cases h
        rename_i hb
        unfold writeOutcome at h
        split at h
        · rename_i e he
          cases h
          unfold hostWriteBuf at he
          simp only [bind_ok_iff, require_ok_iff] at he
          obtain ⟨r, -, _, -, _, -, _, h2, h3⟩ := he
          cases h3
          exact .setBuf r x (by simpa using hb) h2 rfl rfl
        · cases h
      | readInt i =>
        simp only [hostAccess] at h
        split at h
        · cases h
        obtain ⟨x, rfl⟩ := readOutcome_next h; exact .same rfl rfl
      | readBuf i =>
        simp only [hostAccess] at h
        split at h
        · cases h
        obtain ⟨x, rfl⟩ := readOutcome_next h; exact .same rfl rfl
      | writeCmd w =>
        simp only [hostAccess] at h
        split at h
        · cases h
        rename_i hb
        unfold writeCommand at h
        split at h
        · exact .exec _ ({ s with agenda := rest } : State).takeAnswers rfl rfl h
        · cases h; exact .illegal (by simpa using hb) rfl rfl
    · exact heng rest h
    · cases h; exact .reset (by rw [h0]; rfl) rfl rfl
    · cases h; unfold hostWait; split <;> exact .same rfl rfl
    · cases h; exact .same (by simp) (by simp)
    · cases h; exact .same rfl rfl

end Sys2Proof.Machine
end

