-- ==== Sys2Proof/Tests/Slice0.lean ====
section
/-! SUPPORT. The model's own tests. Expected results are those of `95_test_vectors.md` (V…) or of the rule named
in the test's comment. A theorem `witness_<statement>` shows a state and operands that meet the statement's
hypotheses, clause by clause, at the edges of their ranges. -/

set_option Elab.async false

namespace Sys2Proof.Tests

open Sys2Proof Sys2Proof.Machine

/-! ## Small states -/

/-- An engine whose registers all hold a value. -/
def full : Engine :=
  { Engine.reset with
    arg := some 16, rounds := 2, kn := some 46513, ke := some 65537, kd := some 28673, kp := some 193, kq := some 241
    opa := some 7, opb := some 5, opm := some 13, res0 := some 9, res1 := some (-9), res2 := some 47
    msg := some [0x63], lbl := [0x78], out := some [0xff], hacc := [0x61, 0x62] }

/-- The machine with that engine, idle. -/
def idle : State := { State.reset with engine := full }

/-- The machine with that engine, executing the latched command. -/
def during (l : Latch) : State := { State.reset with engine := { full with busy := true, latch := some l } }

/-- The state with one more event to come first. -/
def before (ev : Event) (s : State) : State := { s with agenda := ev :: s.agenda }

/-- The state with the answers the randomness source gives next. -/
def answering (xs : List Nat) (s : State) : State := { s with rng := ⟨xs, 0⟩ }

/-- The state under bounds of R22. -/
def bounded (ints bufs : Nat) (s : State) : State :=
  { s with params := { Params.default with maxIntBits := some ints, maxBufBytes := some bufs } }

/-- A property of the next state. -/
def after {α : Type} (o : Out) (f : State → α) : Option α :=
  match o with
  | .next t => some (f t)
  | _ => none

/-- Why the model stops. -/
def stop (o : Out) : Option Refusal :=
  match o with
  | .refused r => some r
  | _ => none

/-- The error code and its context. -/
def report (s : State) : Nat × Nat × Nat := (s.engine.err.toNat, s.engine.errinfoExp, s.engine.errinfoAct)

/-- What an engine holds besides `OUT`, the status and the latch: for the frame of the commands that write
`OUT`. -/
def rest (s : State) : List (Option HostValue) :=
  (Reg.all.filter (fun r => r ∉ [Reg.out, .status, .errinfoExp, .errinfoAct])).map s.engine.content

def abc : Bytes := [0x61, 0x62, 0x63]

theorem during_running (l : Latch) : (during l).Running l := ⟨rfl, rfl⟩

/-! ## Decoding: the words of R82 (V29), written out bit by bit -/

theorem test_decode_hash_family :
    decode 0b00000000000000000000000000000001 = .ok .hash ∧ decode 0b00000000000000000000000000000010 = .ok .hInit ∧
    decode 0b00000000000000000000000000000011 = .ok .hUpdate ∧
    decode 0b00000000000000000000000000000100 = .ok .hDigest ∧
    decode 0b00000000000000000000000000000101 = .ok .hHexdigest := by decide

theorem test_decode_mgf1 : decode 0b00000000000000000000000000010000 = .ok .mgf1 := by decide

theorem test_decode_arithmetic_family :
    decode 0b00000000000000000000000000100000 = .ok .montmul ∧ decode 0b00000000000000000000000000100001 = .ok .modexp ∧
    decode 0b00000000000000000000000000100010 = .ok .egcd ∧
    decode 0b00000000000000000000000000100011 = .ok .modinv := by decide

theorem test_decode_prime_and_key_family :
    decode 0b00000000000000000000000000110000 = .ok .isprime ∧ decode 0b00000000000000000000000000110001 = .ok .genprime ∧
    decode 0b00000000000000000000000000110010 = .ok .genkey := by decide

theorem test_decode_oaep_family :
    decode 0b00000000000000000000000001000000 = .ok .oaepEnc ∧
    decode 0b00000000000000000000000001000001 = .ok .oaepDec := by decide

/-- The illegal words of V29 and the ends of the ranges of R86. -/
theorem test_decode_illegal :
    [0x00000000, 0x00000006, 0x0000000F, 0x00000011, 0x0000001F, 0x00000024, 0x0000002F, 0x00000033, 0x0000003F,
      0x00000042, 0x000000FF].map decode = [0x00, 0x06, 0x0F, 0x11, 0x1F, 0x24, 0x2F, 0x33, 0x3F, 0x42, 0xFF].map
        (fun op => .error (.unassignedOpcode op)) ∧
    [0x00000101, 0x00010001, 0x80000001, 0xFFFFFFFF].map decode =
      [0x00000101, 0x00010001, 0x80000001, 0xFFFFFFFF].map (fun w => .error (.reservedBits w)) := by decide

theorem test_decodeTableWord :
    decodeTableWord 32 0x00000041 = some .oaepDec ∧ decodeTableWord 32 0x00000006 = none ∧
    decodeTableWord 8 0x131 = some .genprime ∧ decodeTableWord 40 0x100000001 = none := by decide

/-! ## Well-formedness: each check refuses an ill-formed term -/

theorem test_wf_accepts :
    [HostAction.writeInt 0x04 0, .readInt 0x1E, .writeBuf 0x21 [], .readBuf 0x22, .readStatus, .writeCmd 0xFFFFFFFF].all
      HostAction.wf = true := by decide

/-- A reserved index, a read-only register, a negative integer, an integer write to a buffer. -/
theorem test_wf_refuses_integer_writes :
    [HostAction.writeInt 0x06 1, .writeInt 0x1C 1, .writeInt 0x04 (-1), .writeInt 0x20 1].all (fun a => !a.wf) = true := by
  decide

/-- `CMD`, `STATUS`, a buffer, a reserved index. -/
theorem test_wf_refuses_integer_reads :
    [HostAction.readInt 0x00, .readInt 0x01, .readInt 0x22, .readInt 0xFF].all (fun a => !a.wf) = true := by decide

/-- `OUT`, `HACC`, an integer register, a reserved index. -/
theorem test_wf_refuses_buffer_accesses :
    [HostAction.writeBuf 0x22 [], .writeBuf 0x23 [], .writeBuf 0x04 [], .writeBuf 0x24 [], .readBuf 0x23, .readBuf 0x10,
      .readBuf 0x30].all (fun a => !a.wf) = true := by decide

theorem test_wf_params :
    Params.default.wf = true ∧ ({ Params.default with supportedBits := [17] } : Params).wf = false ∧
    ({ Params.default with supportedBits := [2] } : Params).wf = false ∧
    ({ Params.default with maxBufBytes := some (2 ^ 61 - 4) } : Params).wf = false ∧
    ({ Params.default with maxIntBits := some 5 } : Params).wf = false ∧
    ({ Params.default with montRbits := [(13, 3)] } : Params).wf = false ∧
    ({ Params.default with maxIntBits := some 6, maxBufBytes := some (2 ^ 61 - 5), montRbits := [(13, 4)] } : Params).wf =
      true := by
  decide +kernel

/-! ## The step -/

/-- Directly after reset `H_INIT` is accepted, and `HASH` is refused because `MSG` is ⊥ (V8). -/
theorem test_first_command :
    after (step (State.reset.withFetchWord 32 0x00000002)) (fun t => t.engine.latch) = some (some .hInit) ∧
    stop (step (State.reset.withFetchWord 32 0x00000001)) = some (.noValue .msg) := by decide

/-- `STATUS` words of V43: idle with `PRIME`, busy with error code 0x80, idle with error code 2. -/
theorem test_status_word :
    statusWord { full with prime := true } = 0x00000002 ∧ statusWord { full with err := 0x80, prime := true, busy := true } = 0x00008003 ∧
    statusWord { full with err := 0x02 } = 0x00000200 ∧ statusErr 0x00008003 = 0x80 := by decide

/-- `WAIT` (R90): while the word read shows `BUSY` the engine goes on and the wait is repeated (log entry 16). -/
theorem test_wait :
    after (step (before .wait idle)) (fun t => (t.agenda, t.reads)) = some ([], [.word 0]) ∧
    after (step (before .wait (during .hInit))) (fun t => (t.agenda, t.reads)) = some ([.engine, .wait], [.word 1]) := by
  decide

/-- A `.draws` line while a command runs leaves that command's answers alone (R89). -/
theorem test_answers :
    after (step (before (.answers [174, 137]) (answering [7] (during (.isprime 221 2)))))
      (fun t => (t.rng.queue, t.nextAnswers)) = some ([7], [174, 137]) := by decide

/-- V24 with an answer, 7, that an earlier command left over: the test of 221 draws 174 and 137 (R89). -/
theorem test_answers_of_the_next_command :
    let s := answering [7] { idle with engine := { idle.engine with opa := some 221, rounds := 2 } }
    after (steps 3 { s with agenda := [.answers [174, 137], .host (.writeCmd 0x00000030), .engine] })
      (fun t => (t.engine.busy, t.engine.prime, t.rng, t.nextAnswers)) = some (false, false, ⟨[], 0⟩, []) := by decide

/-- `ERR?` (R90, R240): with the code 0 the next two events stay, with the code 2 the host leaves them out. -/
theorem test_err_check :
    let s := before (.errCheck 2) { idle with agenda := [.engine, .wait, .reset] }
    after (step s) (fun t => (t.agenda, t.reads)) = some ([.engine, .wait, .reset], [.word 0]) ∧
    after (step { s with engine := { full with err := 2 } }) (fun t => (t.agenda, t.reads)) =
      some ([.reset], [.word 0x00000200]) := by decide

/-- `encryptFile` of two chunks, line by line (R240): an error in the first leaves out all that follows its `ERR?`. -/
theorem test_encrypt_file :
    Script.encryptFile 143 7 [[0x61], [0x62]] =
      [.host (.writeInt 0x10 143), .host (.writeInt 0x11 7), .host (.writeBuf 0x21 []),
        .host (.writeBuf 0x20 [0x61]), .host (.writeCmd 0x00000040), .wait, .errCheck 6, .host (.readBuf 0x22),
        .host (.writeBuf 0x20 [0x62]), .host (.writeCmd 0x00000040), .wait, .errCheck 1, .host (.readBuf 0x22)] := by
  decide

/-- The absolute value of a negative integer is measured, with no bit for the sign (log entry 14): −15 and −16 under
a bound of 4 bits. -/
theorem test_fits_negative :
    fitsInt (bounded 4 64 idle).params (-15) = true ∧ fitsInt (bounded 4 64 idle).params (-16) = false := by decide

/-- A context of 7 bits, the length 64, under a bound of 6 is refused (U16). -/
theorem test_context_beyond_bound :
    stop (exec .oaepEnc (bounded 6 64 (during (.oaepEnc (List.replicate 64 0x00) [] 1 1)))) = some .resultTooLarge ∧
    after (exec .oaepEnc (bounded 7 64 (during (.oaepEnc (List.replicate 64 0x00) [] 1 1)))) report =
      some (4, 0, 64) := by decide

/-- Reset in the middle of a command: idle, no error, no key (R282). -/
theorem test_reset_while_busy :
    after (step (before .reset (during (.genkey 16 none none)))) (fun t => (t.engine, t.agenda)) =
      some (Engine.reset, []) := by decide

/-! ## The commands, one step each -/

/-- V2. -/
theorem test_hash :
    after (exec .hash (during (.hash abc))) (fun t => (t.engine.out, report t)) =
      some (some (be 0xba7816bf8f01cfea414140de5dae2223b00361a396177a9cb410ff61f20015ad 32), (0, 0, 0)) := by
  decide +kernel

/-- V4, two blocks; everything but `OUT` and the status keeps its content. -/
theorem test_hash_two_blocks :
    let s := during (.hash (List.replicate 56 0x61))
    after (exec .hash s) (fun t => (t.engine.out, rest t == rest s)) =
      some (some (be 0xb35439a4ac6f0948b6d6f9e3c6af0f5f590ce20f1bde7090ef7970686ec6738a 32), true) := by
  decide +kernel

/-- R111: `OUT` is not touched. -/
theorem test_h_init :
    after (exec .hInit (during .hInit)) (fun t => (t.engine.hacc, t.engine.out)) = some ([], some [0xff]) := by decide

/-- V7, step 3: appended on the right. -/
theorem test_h_update :
    after (exec .hUpdate (during (.hUpdate [0x63] [0x61, 0x62]))) (fun t => (t.engine.hacc, t.engine.out)) =
      some (abc, some [0xff]) := by decide

/-- V7, step 10; the accumulator is kept. -/
theorem test_h_digest :
    after (exec .hDigest (during (.hDigest [0x61, 0x62, 0x63, 0x64, 0x64]))) (fun t => (t.engine.out, t.engine.hacc)) =
      some (some (be 0x4842273c3ac1389282adda88f88a8dbc72b7725e0b92cad621cb853094c6a920 32), [0x61, 0x62]) := by
  decide +kernel

/-- R114: the text of the empty string's digest begins `e3b0c442`. -/
theorem test_h_hexdigest :
    after (exec .hHexdigest (during (.hHexdigest [])))
      (fun t => t.engine.out.map (fun x => (x.length, x.take 8))) =
      some (some (64, [0x65, 0x33, 0x62, 0x30, 0x63, 0x34, 0x34, 0x32])) := by decide +kernel

/-- V16: one byte beyond the first digest. -/
theorem test_mgf1 :
    after (exec .mgf1 (during (.mgf1 abc 33))) (fun t => (t.engine.out, report t)) =
      some (some (be 0xcf2db1ac9867debdf8ce91f99f141e5544bf26ca36b3fd4f8e4035eec42cab0d46 33), (0, 0, 0)) := by
  decide +kernel

/-- V18. -/
theorem test_mgf1_too_long :
    after (exec .mgf1 (during (.mgf1 [] 137438953473))) (fun t => (t.engine.out, report t)) =
      some (none, (1, 137438953472, 137438953473)) := by decide +kernel

/-- V20. -/
theorem test_montmul :
    after (exec .montmul (during (.montmul 100 200 257))) (fun t => t.engine.res0) = some (some 211) := by decide +kernel

/-- Another radix exponent changes the result, an invalid one is not used, nor is that of another modulus (R7, R143):
with R = 2^4 modulo 13, Rinv = 9, and 7 · 5 · 9 = 315 = 24 · 13 + 3; with R = 2^8, Rinv = 3, and
7 · 5 · 3 = 105 = 8 · 13 + 1. -/
theorem test_montmul_radix :
    let s := fun x => ({ during (.montmul 7 5 13) with params := { Params.default with montRbits := x } } : State)
    after (exec .montmul (s [(13, 4)])) (fun t => t.engine.res0) = some (some 3) ∧
    after (exec .montmul (s [(13, 3)])) (fun t => t.engine.res0) = some (some 1) ∧
    after (exec .montmul (s [(15, 4)])) (fun t => t.engine.res0) = some (some 1) := by decide +kernel

/-- V21: an odd and an even modulus. -/
theorem test_modexp :
    after (exec .modexp (during (.modexp 4 13 497))) (fun t => t.engine.res0) = some (some 445) ∧
    after (exec .modexp (during (.modexp 2 10 1000))) (fun t => t.engine.res0) = some (some 24) := by decide +kernel

/-- V21: 0^0 modulo 7 and modulo 1. -/
theorem test_modexp_zero :
    after (exec .modexp (during (.modexp 0 0 7))) (fun t => t.engine.res0) = some (some 1) ∧
    after (exec .modexp (during (.modexp 0 0 1))) (fun t => t.engine.res0) = some (some 0) := by decide +kernel

/-- V22. -/
theorem test_egcd :
    after (exec .egcd (during (.egcd 240 46))) (fun t => (t.engine.res0, t.engine.res1, t.engine.res2)) =
      some (some 2, some (-9), some 47) := by decide +kernel

/-- The values of the descent R147 lists. -/
theorem test_egcd_values :
    egcd 46 240 = (2, 47, -9) ∧ egcd 0 0 = (0, 0, 1) ∧ egcd 0 5 = (5, 0, 1) ∧ egcd 5 0 = (5, 1, 0) ∧
    egcd 65537 3120 = (1, -367, 7709) := by decide +kernel

/-- V23. -/
theorem test_modinv :
    after (exec .modinv (during (.modinv 17 3120))) (fun t => (t.engine.res0, report t)) =
      some (some 2753, (0, 0, 0)) := by decide +kernel

/-- V23: no inverse; `RES1` and `RES2` are kept. -/
theorem test_modinv_no_inverse :
    after (exec .modinv (during (.modinv 2 4))) (fun t => (t.engine.res0, t.engine.res1, report t)) =
      some (none, some (-9), (2, 0, 0)) := by decide +kernel

/-- V24: 221 fails its second round; both answers are consumed. -/
theorem test_isprime :
    after (exec .isprime (answering [174, 137] (during (.isprime 221 2)))) (fun t => (t.engine.prime, t.rng.queue)) =
      some (false, []) := by decide +kernel

/-- V24, V25, R171 (c): 25 passes with the strong liar 7, and 9 and 15 pass with no base. -/
theorem test_isprime_liars :
    after (exec .isprime (answering [7] (during (.isprime 25 1)))) (fun t => t.engine.prime) = some true ∧
    (List.range 9).all (fun a => !(2 ≤ a && a ≤ 7 && roundPasses 9 a)) = true ∧
    (List.range 15).all (fun a => !(2 ≤ a && a ≤ 13 && roundPasses 15 a)) = true := by decide +kernel

/-- V26: the draw of a candidate; its number is consumed. -/
theorem test_genprime_draw :
    after (exec .genprime (answering [0x83, 2] (during (.genprime 8 none)))) (fun t => (t.engine.latch, t.rng.queue)) =
      some (some (.genprime 8 (some 131)), [2]) := by decide +kernel

/-- V26: 131 is accepted by forty rounds, `PRIME` and `ROUNDS` play no part. -/
theorem test_genprime_accept :
    after (exec .genprime (answering (List.replicate 40 2) (during (.genprime 8 (some 131)))))
      (fun t => (t.engine.res0, t.engine.busy, t.engine.prime, t.rng)) =
      some (some 131, false, false, ⟨[], 0⟩) := by decide +kernel

/-- V27: the second prime is accepted and the pair derived. -/
theorem test_genkey :
    after (exec .genkey (answering (List.replicate 40 2) (during (.genkey 16 (some 193) (some 241)))))
      (fun t => ([t.engine.kn, t.engine.ke, t.engine.kd, t.engine.kp, t.engine.kq], report t)) =
      some ([some 46513, some 65537, some 28673, some 193, some 241], (0, 0, 0)) := by decide +kernel

/-- V28: p = q is a success, and 917519 gives `NoInverse` with all five registers ⊥. -/
theorem test_genkey_corners :
    after (exec .genkey (answering (List.replicate 40 2) (during (.genkey 16 (some 131) (some 131)))))
      (fun t => (t.engine.kn, t.engine.kd, report t)) = some (some 17161, some 9773, (0, 0, 0)) ∧
    after (exec .genkey (answering (List.replicate 40 2) (during (.genkey 40 (some 917519) (some 524309)))))
      (fun t => ([t.engine.kn, t.engine.ke, t.engine.kd, t.engine.kp, t.engine.kq], report t)) =
      some ([none, none, none, none, none], (2, 0, 0)) := by decide +kernel

/-- Key B of V32: a modulus of 66 bytes, the smallest the codec can use. -/
def nB : Nat := 0xa800000000000000000000000000000000000000000000000000000000000000cee00000000000000000000000000000000000000000000000000000000000003d3b

def dB : Nat := 0x1f6ae0951f6ae0951f6ae0951f6ae0951f6ae0951f6ae0951f6ae0951f6ae09545cd1232edcd1232edcd1232edcd1232edcd1232edcd1232edcd1232edcd1232f91

/-- The ciphertext of V32: the empty message under key B, label empty, seed 00 01 … 1f. -/
def cB : Bytes := be 0x0cbbfe24fee3c0be6a8bbccc16c5979b480b8e87357f83dd22abb8a4b84e1beed6ad08916131ee617a4d19d7f9d9659e42a82afdcff1799e8f67b584558d5cac7007 66

def seed01 : Nat := 0x000102030405060708090a0b0c0d0e0f101112131415161718191a1b1c1d1e1f

/-- V32. -/
theorem test_oaep_enc :
    after (exec .oaepEnc (answering [seed01] (during (.oaepEnc [] [] nB 65537)))) (fun t => (t.engine.out, t.rng.queue)) =
      some (some cB, []) := by decide +kernel

/-- V32: one byte is too long for key B, and no seed is drawn. -/
theorem test_oaep_enc_too_long :
    after (exec .oaepEnc (answering [seed01] (during (.oaepEnc [0x00] [] nB 65537))))
      (fun t => (t.engine.out, report t, t.rng.queue)) = some (none, (4, 0, 1), [seed01]) := by decide +kernel

/-- V32: the empty message is recovered; it is a value, not ⊥. -/
theorem test_oaep_dec :
    after (exec .oaepDec (during (.oaepDec cB [] nB dB))) (fun t => (t.engine.out, report t)) =
      some (some [], (0, 0, 0)) := by decide +kernel

theorem witness_OnlyTheMatchWordSelectsTheCommand :
    Instr.oaepDec.wf = true ∧ decode 0x00000041 = .ok .oaepDec := by decide

/-- Both sides of the equivalence, at the ends of R86's ranges: the assigned opcodes next to them. An illegal word
on an idle engine. -/
theorem witness_IllegalWordsOnlyReportIllegalCommand :
    [0x01, 0x05, 0x10, 0x20, 0x23, 0x30, 0x32, 0x40, 0x41].all (fun w => (decode w).toOption.isSome) = true ∧
    [0x00, 0x06, 0x0F, 0x11, 0x1F, 0x24, 0x2F, 0x33, 0x3F, 0x42, 0xFF, 0x100].all (fun w => (decode w).toOption.isNone) =
      true ∧ idle.engine.busy = false ∧ (0x00000101 : Word).toNat / 256 ≠ 0 ∧ (0x00000042 : Word).toNat % 256 = 0x42 := by
  decide

theorem witness_CommandWriteRunsTheDecodedCommand :
    (before (.host (.writeCmd 0x00000001)) idle).engine.busy = false ∧
    (before (.host (.writeCmd 0x00000001)) idle).agenda = [.host (.writeCmd 0x00000001)] ∧
    decode 0x00000001 = .ok .hash ∧ decodeTableWord 32 0x00000001 = some .hash ∧
    (before (.answers [2]) idle).agenda = [.answers [2]] := by decide

theorem witness_EngineTurnAdvancesTheLatchedCommand :
    (during .hInit).Running .hInit ∧ (during .hInit).agenda = [] ∧
    (before .engine (during .hInit)).Running .hInit ∧ (before .engine (during .hInit)).agenda = [.engine] ∧
    idle.engine.busy = false ∧ idle.agenda = [] ∧ (before .engine idle).agenda = [.engine] :=
  ⟨⟨rfl, rfl⟩, rfl, ⟨rfl, rfl⟩, rfl, rfl, rfl, rfl⟩

/-- The reset event in an idle and in a busy state that are not the reset state. -/
theorem witness_ResetGivesEveryFieldItsResetValue :
    idle.engine ≠ State.reset.engine ∧ (during .hInit).engine.busy = true := by decide

theorem witness_BusyEngineAnswersOnlyTheStatusRead :
    (during .hInit).engine.busy = true ∧ HostAction.readBuf 0x22 ≠ .readStatus ∧ HostAction.writeCmd 1 ≠ .readStatus := by
  decide

/-- An integer, a negative one, and a buffer. -/
theorem witness_HostReadsReturnTheContent :
    idle.engine.busy = false ∧ idle.engine.content .kn = some (.int 46513) ∧
    idle.engine.content .res1 = some (.int (-9)) ∧ idle.engine.content .out = some (.bytes [0xff]) := by decide

/-- The largest fitting value and the smallest that does not fit, of 6 bits and of 2 bytes. -/
theorem witness_HostWritesSetOneRegister :
    (bounded 6 2 idle).engine.busy = false ∧ fitsInt (bounded 6 2 idle).params (63 : Nat) = true ∧
    fitsInt (bounded 6 2 idle).params (64 : Nat) = false ∧ fitsBuf (bounded 6 2 idle).params [(0 : Byte), 1].length = true ∧
    fitsBuf (bounded 6 2 idle).params [(0 : Byte), 1, 2].length = false ∧ Reg.rounds ≠ .arg ∧ Reg.lbl ≠ .msg := by decide

/-- A reserved index, `CMD` and `STATUS` under their own, a register outside the buffers, a negative value, and a
register that holds ⊥. -/
theorem witness_HostAccessOutsideItsListIsRefused :
    State.reset.engine.busy = false ∧ Reg.ofIndex 0x06 = none ∧ Reg.ofIndex 0x23 = some .hacc ∧
    Reg.ofIndex 0x00 = some .cmd ∧ Reg.ofIndex 0x01 = some .status ∧ Reg.arg ∉ [Reg.msg, .lbl, .out] ∧ (-1 : Int) < 0 ∧ State.reset.engine.content .kn = none ∧
    State.reset.engine.content .out = none := by decide

/-- The ends of the assigned ranges and their neighbours. -/
theorem witness_AssignedIndicesNameOneRegister :
    [0x00, 0x05, 0x10, 0x14, 0x18, 0x1A, 0x1C, 0x1E, 0x20, 0x23].all (fun i => (Reg.ofIndex i).isSome) = true ∧
    [0x06, 0x0F, 0x15, 0x17, 0x1B, 0x1F, 0x24, 0xFF].all (fun i => (Reg.ofIndex i).isNone) = true := by decide

/-- The ends of the four ranges of bits. -/
theorem witness_StatusWordHoldsItsFields :
    0 < 8 ∧ 7 < 8 ∧ (2 ≤ 2 ∧ 2 ≤ 7) ∧ (2 ≤ 7 ∧ 7 ≤ 7) ∧ 16 ≤ 16 ∧ 16 ≤ 31 := by decide

theorem witness_IssueChangesOnlyLatchAndBusy :
    idle.engine.busy = false ∧ ∃ t, exec .modexp idle = .next t := ⟨rfl, _, rfl⟩

theorem witness_SourceWithoutValueIsRefused :
    State.reset.engine.busy = false ∧ Reg.opm ∈ sources .modinv ∧ State.reset.engine.content .opm = none := by decide

/-- A byte string one byte too long to be hashed (R109). -/
def endless : Bytes := List.replicate (2 ^ 61) 0x00

theorem endless_length : endless.length = 2 ^ 61 := List.length_replicate

/-- No message, one too long, one short; a result of exactly the bound's 32 bytes. -/
theorem witness_HashWritesTheDigestOfMsg :
    State.reset.engine.busy = false ∧ State.reset.engine.msg = none ∧
    ({ full with msg := some endless } : Engine).msg = some endless ∧ 2 ^ 61 ≤ endless.length ∧
    idle.engine.busy = false ∧ idle.engine.msg = some [0x63] ∧ [(0x63 : Byte)].length < 2 ^ 61 ∧
    (bounded 64 32 (during (.hash [0x63]))).Running (.hash [0x63]) ∧
    fitsBuf (bounded 64 32 (during (.hash [0x63]))).params 32 = true :=
  ⟨rfl, rfl, rfl, endless_length.ge, rfl, rfl, by decide, ⟨rfl, rfl⟩, rfl⟩

theorem witness_HInitEmptiesTheAccumulator :
    idle.engine.busy = false ∧ (during .hInit).Running .hInit := ⟨rfl, rfl, rfl⟩

/-- Three bytes in all, under a bound of 3 and of 2. -/
theorem witness_HUpdateAppendsMsg :
    State.reset.engine.busy = false ∧ State.reset.engine.msg = none ∧
    idle.engine.busy = false ∧ idle.engine.msg = some [0x63] ∧
    fitsBuf (bounded 64 3 idle).params (idle.engine.hacc.length + [(0x63 : Byte)].length) = true ∧
    fitsBuf (bounded 64 2 idle).params (idle.engine.hacc.length + [(0x63 : Byte)].length) = false ∧
    (during (.hUpdate [0x63] [0x61, 0x62])).Running (.hUpdate [0x63] [0x61, 0x62]) :=
  ⟨rfl, rfl, rfl, rfl, rfl, rfl, rfl, rfl⟩

theorem witness_HDigestWritesTheDigestOfTheAccumulator :
    2 ^ 61 ≤ ({ full with hacc := endless } : Engine).hacc.length ∧ idle.engine.busy = false ∧
    idle.engine.hacc.length < 2 ^ 61 ∧ (during (.hDigest [0x61, 0x62])).Running (.hDigest [0x61, 0x62]) ∧
    fitsBuf (bounded 64 32 idle).params 32 = true :=
  ⟨endless_length.ge, rfl, by decide, ⟨rfl, rfl⟩, rfl⟩

theorem witness_HHexdigestWritesTheHexText :
    2 ^ 61 ≤ ({ full with hacc := endless } : Engine).hacc.length ∧ idle.engine.busy = false ∧
    idle.engine.hacc.length < 2 ^ 61 ∧ (during (.hHexdigest [])).Running (.hHexdigest []) ∧
    fitsBuf (bounded 64 64 idle).params 64 = true ∧ 0 < 32 ∧ 31 < 32 :=
  ⟨endless_length.ge, rfl, by decide, ⟨rfl, rfl⟩, rfl, by decide, by decide⟩

/-- The first and the last of the primes, with their constants. -/
theorem witness_HashConstantsAreRootsOfPrimes :
    Nat.Prime 2 ∧ Nat.Prime 311 ∧ kTable.head? = some 0x428a2f98 ∧ kTable.getLast? = some 0xc67178f2 ∧
    initialHash.a = 0x6a09e667 ∧ initialHash.h = 0x5be0cd19 :=
  ⟨by norm_num, by norm_num, by decide, by decide, by decide, by decide⟩

theorem witness_ScheduleFollowsTheRecurrence :
    (padMessage abc).length = 64 ∧ 15 < 16 ∧ 16 ≤ 16 ∧ 63 < 64 := by decide

theorem witness_CompressionRunsSixtyFourRounds : (padMessage abc).length = 64 ∧ 0 < 64 ∧ 63 < 64 := by decide +kernel

/-- One block of 55 bytes, two of 56. -/
theorem witness_DigestChainsTheBlocksInOrder :
    (padMessage (List.replicate 55 0x61)).length / 64 = 1 ∧ 0 < (padMessage (List.replicate 55 0x61)).length / 64 ∧
    1 < (padMessage (List.replicate 56 0x61)).length / 64 := by decide +kernel

/-- Two parts and the empty part. -/
theorem witness_IncrementalHashEqualsOneShot :
    let s : State := { State.reset with
      agenda := [[0x61], [], [0x62, 0x63]].flatMap feedEvents ++ [.host (.writeCmd 0x00000004), .engine] }
    s.engine.busy = false ∧ s.engine.hacc = [] ∧ [[(0x61 : Byte)], [], [0x62, 0x63]].flatten.length < 2 ^ 61 ∧
    fitsBuf s.params [[(0x61 : Byte)], [], [0x62, 0x63]].flatten.length = true ∧ fitsBuf s.params 32 = true := by decide

/-- No length; the largest length, 2^37, above and below a bound, and the smallest that is too long, of exactly the
bound's 38 bits; a seed that the counter makes too long to be hashed. -/
theorem witness_Mgf1WritesTheMaskOrReportsItsLength :
    State.reset.engine.busy = false ∧ State.reset.engine.arg = none ∧ idle.engine.busy = false ∧
    ({ full with msg := some [], arg := some (2 ^ 37) } : Engine).arg = some (2 ^ 37) ∧
    (2 ^ 37 ≤ 2 ^ 37 ∧ fitsBuf (bounded 64 (2 ^ 37 - 1) idle).params (2 ^ 37) = false) ∧
    fitsBuf (bounded 64 (2 ^ 37) idle).params (2 ^ 37) = true ∧ ([] : Bytes).length + 4 < 2 ^ 61 ∧
    ({ full with msg := some endless } : Engine).msg = some endless ∧ 2 ^ 61 ≤ endless.length + 4 ∧
    (during (.mgf1 [] (2 ^ 37))).Running (.mgf1 [] (2 ^ 37)) ∧
    (2 ^ 37 < 137438953473) ∧ (during (.mgf1 [] 137438953473)).Running (.mgf1 [] 137438953473) ∧
    fitsInt (bounded 38 64 idle).params (137438953473 : Nat) = true :=
  ⟨rfl, rfl, rfl, rfl, ⟨le_rfl, by decide⟩, by decide, by decide, rfl, by rw [endless_length]; decide, ⟨rfl, rfl⟩,
    by decide, ⟨rfl, rfl⟩, by decide⟩

theorem witness_ShorterMaskIsAPrefix : 0 + 2 ^ 37 ≤ 2 ^ 37 := by decide

/-- The modulus 0, the modulus 1, and a result of exactly the bound's 6 bits: 63 modulo 64. -/
theorem witness_ModexpWritesThePower :
    State.reset.engine.busy = false ∧ State.reset.engine.opa = none ∧ ({ full with opm := some 0 } : Engine).opm = some 0 ∧
    (1 ≠ 0) ∧ idle.engine.busy = false ∧ idle.engine.opa = some 7 ∧ idle.engine.opb = some 5 ∧ idle.engine.opm = some 13 ∧
    (bounded 6 64 (during (.modexp 63 1 64))).Running (.modexp 63 1 64) ∧
    fitsInt (bounded 6 64 idle).params (63 ^ 1 % 64 : Nat) = true :=
  ⟨rfl, rfl, rfl, by decide, rfl, rfl, rfl, rfl, ⟨rfl, rfl⟩, by decide⟩

/-- An even modulus, operands equal to the modulus and one below it, and the modulus 1. No override, the smallest
valid one, and one that is not valid. -/
theorem witness_MontmulWritesTheMontgomeryProduct :
    State.reset.engine.busy = false ∧ State.reset.engine.opb = none ∧ (14 % 2 = 0) ∧ ((7 : Nat) ≤ 7) ∧
    (13 % 2 = 1 ∧ 12 < 13 ∧ 12 < 13) ∧ (1 % 2 = 1 ∧ 0 < 1) ∧ idle.engine.opa = some 7 ∧ idle.engine.opb = some 5 ∧
    idle.engine.opm = some 13 ∧ idle.engine.busy = false ∧ idle.params.montRbits.lookup 13 = none ∧
    ([(13, 4)].lookup 13 = some 4 ∧ 13 < 2 ^ 4) ∧ ([(13, 3)].lookup 13 = some 3 ∧ ¬ 13 < 2 ^ 3) ∧
    (bounded 4 64 (during (.montmul 12 12 13))).Running (.montmul 12 12 13) ∧
    fitsInt (bounded 4 64 idle).params (13 : Nat) = true :=
  ⟨rfl, rfl, by decide, by decide, by decide, by decide, rfl, rfl, rfl, rfl, rfl, by decide, by decide,
    ⟨rfl, rfl⟩, rfl⟩

/-- The smallest valid radix exponent of 13. -/
theorem witness_RedcYieldsTheMontgomeryProduct : 13 % 2 = 1 ∧ 13 < 2 ^ 4 ∧ ¬ 13 < 2 ^ 3 ∧ 12 < 13 ∧ 0 < 13 := by decide

/-- The modulus 1 with the radix exponent 1, its smallest. -/
theorem witness_MontgomeryExponentiationIsModExp : 1 % 2 = 1 ∧ 1 < 2 ^ 1 ∧ 13 % 2 = 1 ∧ 13 < 2 ^ 8 := by decide

theorem witness_EgcdWritesAGcdAndItsCoefficients :
    State.reset.engine.busy = false ∧ State.reset.engine.opa = none ∧
    idle.engine.busy = false ∧ idle.engine.opa = some 7 ∧ idle.engine.opb = some 5 ∧
    (bounded 6 64 (during (.egcd 240 46))).Running (.egcd 240 46) ∧
    fitsInt (bounded 6 64 idle).params (Nat.gcd 240 46 : Nat) = true ∧ fitsInt (bounded 6 64 idle).params (-9) = true ∧
    fitsInt (bounded 6 64 idle).params 47 = true :=
  ⟨rfl, rfl, rfl, rfl, rfl, ⟨rfl, rfl⟩, by decide, by decide, by decide⟩

/-- The modulus 0, a pair with an inverse, the modulus 1, and a pair with none. -/
theorem witness_ModinvWritesTheInverseOrReportsNone :
    State.reset.engine.busy = false ∧ State.reset.engine.opm = none ∧ ({ full with opm := some 0 } : Engine).opm = some 0 ∧
    (3120 ≠ 0 ∧ Nat.gcd 17 3120 = 1) ∧ (1 ≠ 0 ∧ Nat.gcd 0 1 = 1) ∧ (4 ≠ 0 ∧ Nat.gcd 2 4 ≠ 1) ∧ idle.engine.busy = false ∧
    idle.engine.opa = some 7 ∧ idle.engine.opm = some 13 ∧ (during (.modinv 17 3120)).Running (.modinv 17 3120) ∧
    (during (.modinv 2 4)).Running (.modinv 2 4) ∧ fitsInt (bounded 12 64 idle).params (3120 : Nat) = true :=
  ⟨rfl, rfl, rfl, by decide, by decide, by decide, rfl, rfl, rfl, ⟨rfl, rfl⟩, ⟨rfl, rfl⟩, by decide⟩

/-- 0 and 1, 2 and 3, 4, and 25 with the passing base 7; 221 with a failing second base (V24). -/
theorem witness_IsPrimeRunsMillerRabinRounds :
    (1 ≤ 1) ∧ (3 = 2 ∨ 3 = 3) ∧ (3 < 4 ∧ 4 % 2 = 0) ∧ (3 < 25 ∧ 25 % 2 = 1) ∧
    (∀ j, j < 1 → PassesRound 25 (drawBase 25 (afterBases 25 j ⟨[7], 0⟩)).1) ∧
    (¬ PassesRound 221 (drawBase 221 (afterBases 221 1 ⟨[174, 137], 0⟩)).1) ∧
    (∀ k, k < 1 → PassesRound 221 (drawBase 221 (afterBases 221 k ⟨[174, 137], 0⟩)).1) := by
  refine ⟨by decide, by decide, by decide, by decide, ?_, ?_, ?_⟩
  · intro j hj
    obtain rfl : j = 0 := by omega
    rw [passesRound_iff (by decide) (by decide)]; decide +kernel
  · rw [passesRound_iff (by decide) (by decide)]; decide +kernel
  · intro k hk
    obtain rfl : k = 0 := by omega
    rw [passesRound_iff (by decide) (by decide)]; decide +kernel

theorem witness_EveryPrimeIsAccepted : Nat.Prime 7919 := by norm_num

/-- The ends of the ranges: the seeds of zeros and of ones, the bases 2 and n − 2 of n = 5, the candidate of one bit. -/
theorem witness_DrawsCoverExactlyTheirRanges :
    (List.replicate 32 (0x00 : Byte)).length = 32 ∧ (List.replicate 32 (0xff : Byte)).length = 32 ∧ 5 ≤ 5 ∧ 1 ≤ 1 ∧ (2 ≤ 2 ∧ 2 ≤ 5 - 2) ∧ (2 ≤ 3 ∧ 3 ≤ 5 - 2) ∧ 1 % 2 = 1 := by decide

theorem witness_IsprimeWritesThePrimeFlag :
    State.reset.engine.busy = false ∧ State.reset.engine.opa = none ∧ idle.engine.busy = false ∧ idle.engine.opa = some 7 ∧
    (during (.isprime 221 2)).Running (.isprime 221 2) := ⟨rfl, rfl, rfl, rfl, rfl, rfl⟩

/-- No size and size 0, a fresh search, an accepted candidate of exactly the bound's 8 bits, and a rejected one. -/
theorem witness_GenprimeDrawsUntilACandidateIsAccepted :
    State.reset.engine.busy = false ∧ State.reset.engine.arg = none ∧ ({ full with arg := some 0 } : Engine).arg = some 0 ∧
    (16 ≠ 0) ∧ idle.engine.busy = false ∧ idle.engine.arg = some 16 ∧
    (during (.genprime 8 none)).Running (.genprime 8 none) ∧
    (bounded 8 64 (answering (List.replicate 40 2) (during (.genprime 8 (some 131))))).Running (.genprime 8 (some 131)) ∧
    (isPrime 131 40 ⟨List.replicate 40 2, 0⟩).1 = true ∧ fitsInt (bounded 8 64 idle).params (131 : Nat) = true ∧
    (answering [2] (during (.genprime 8 (some 129)))).Running (.genprime 8 (some 129)) ∧
    (isPrime 129 40 ⟨[2], 0⟩).1 = false :=
  ⟨rfl, rfl, rfl, by decide, rfl, rfl, ⟨rfl, rfl⟩, ⟨rfl, rfl⟩, by decide +kernel, rfl, ⟨rfl, rfl⟩, by decide +kernel⟩

theorem witness_GenprimeOfOneBitNeverCompletes :
    let s : State := { State.reset with
      engine := { full with arg := some 1 }, agenda := .host (.writeCmd 0x00000031) :: List.replicate 3 .engine }
    s.engine.busy = false ∧ s.engine.arg = some 1 ∧ s.agenda = .host (.writeCmd 0x00000031) :: List.replicate 3 .engine :=
  ⟨rfl, rfl, rfl⟩

/-- Parameters whose supported sizes are 4 and 16. -/
def small : Params := { Params.default with supportedBits := [4, 16] }

/-- A size outside the set and the smallest inside it; the phases of a search; the only prime of 2 bits, 3; and the
pair of V28 with no inverse, 917519 = 65537 · 14 + 1. -/
theorem witness_GenkeyWritesTheKeyPairOrReportsNone :
    State.reset.engine.busy = false ∧ State.reset.engine.arg = none ∧ idle.engine.busy = false ∧ idle.engine.arg = some 16 ∧
    16 ∉ idle.params.supportedBits ∧ 16 ∈ small.supportedBits ∧ (4 ∈ small.supportedBits ∧ 4 % 2 = 0 ∧ 4 ≤ 4) ∧
    (during (.genkey 16 none none)).Running (.genkey 16 none none) ∧
    (during (.genkey 16 none (some 129))).Running (.genkey 16 none (some 129)) ∧ (isPrime 129 40 ⟨[2], 0⟩).1 = false ∧
    (during (.genkey 4 none (some 3))).Running (.genkey 4 none (some 3)) ∧ (isPrime 3 40 ⟨[], 0⟩).1 = true ∧
    (during (.genkey 4 (some 3) (some 3))).Running (.genkey 4 (some 3) (some 3)) ∧ 1 < 3 ∧
    Nat.gcd 65537 ((3 - 1) * (3 - 1)) = 1 ∧ fitsInt idle.params (3 * 3 : Nat) = true ∧
    fitsInt (bounded 17 64 idle).params (65537 : Nat) = true ∧
    (during (.genkey 40 (some 917519) (some 524309))).Running (.genkey 40 (some 917519) (some 524309)) ∧
    (isPrime 524309 40 ⟨List.replicate 40 2, 0⟩).1 = true ∧ Nat.gcd 65537 ((917519 - 1) * (524309 - 1)) ≠ 1 :=
  ⟨rfl, rfl, rfl, rfl, by decide, by decide, by decide, ⟨rfl, rfl⟩, ⟨rfl, rfl⟩, by decide +kernel, ⟨rfl, rfl⟩, by decide,
    ⟨rfl, rfl⟩, by decide, by decide +kernel, rfl, by decide, ⟨rfl, rfl⟩, by decide +kernel, by decide +kernel⟩

/-- No error and no context agree (R253). -/
theorem no_error {e : Engine} (h : e.err = 0) (h1 : e.errinfoExp = 0) (h2 : e.errinfoAct = 0) :
    e.err ∈ legalErr ∧ e.contextAgrees := by
  unfold Engine.contextAgrees; rw [h, h1, h2]; decide

/-- `GENKEY` with both primes found. -/
def lastStep (bits p q : Nat) : State :=
  { State.reset with
    engine := { full with busy := true, latch := some (.genkey bits (some p) (some q)), arg := some bits }
    params := { Params.default with supportedBits := [16, 38] }
    rng := ⟨List.replicate 40 2, 0⟩ }

theorem lastStep_inv {bits p q : Nat} (hb : supportsBits (lastStep bits p q).params bits = true)
    (hp : IsCandidate (bits / 2) p) (hq : IsCandidate (bits / 2) q) (ha : Accepted p) :
    (lastStep bits p q).Inv where
  params_fit_rounds := rfl
  busy_iff_latched := rfl
  err_legal := (no_error rfl rfl rfl).1
  context := (no_error rfl rfl rfl).2
  held := by rintro l ⟨⟩; rfl
  legal := by
    rintro l ⟨⟩
    refine ⟨hb, ?_, ?_⟩
    · rintro x ⟨⟩; exact ⟨hp, ha⟩
    · rintro x ⟨⟩; exact hq
  fits := fits_of_unbounded rfl rfl _

/-- V27: 16 bits, 193 and 241. -/
theorem lastStep_16 : (lastStep 16 193 241).Inv :=
  lastStep_inv (by decide) ⟨by decide, by decide +kernel⟩ ⟨by decide, by decide +kernel⟩
    ⟨⟨List.replicate 40 2, 0⟩, by decide +kernel⟩

theorem witness_GeneratedKeyPairMeetsItsInvariants :
    (lastStep 16 193 241).Inv ∧ (lastStep 16 193 241).Running (.genkey 16 (some 193) (some 241)) ∧
    after (exec .genkey (lastStep 16 193 241)) (fun t => (t.engine.busy, t.engine.err)) = some (false, 0) ∧ 16 % 8 = 0 :=
  ⟨lastStep_16, ⟨rfl, rfl⟩, by decide +kernel, by decide⟩

/-- The largest size below 40, with a prime of 19 bits twice. -/
theorem lastStep_38 : (lastStep 38 524287 524287).Inv :=
  lastStep_inv (by decide) ⟨by decide, by decide +kernel⟩ ⟨by decide, by decide +kernel⟩
    ⟨⟨List.replicate 40 2, 0⟩, by decide +kernel⟩

/-- V28's prime, a pair without such a prime, and a last step whose size is just below 40. -/
theorem witness_NoInverseNeedsAPrimeOfItsForm :
    (1 < 917519 ∧ 65537 ∣ 917519 - 1) ∧ (1 < 2 ∧ ¬ 65537 ∣ 2 - 1) ∧ Nat.Prime 917519 ∧ 917519 % 2 = 1 ∧
    (lastStep 38 524287 524287).Inv ∧ (lastStep 38 524287 524287).Running (.genkey 38 (some 524287) (some 524287)) ∧
    Nat.Prime 524287 ∧ 38 < 40 ∧ fitsInt (lastStep 38 524287 524287).params (524287 * 524287 : Nat) = true ∧
    fitsInt (lastStep 38 524287 524287).params (65537 : Nat) = true :=
  ⟨by norm_num, by norm_num, by norm_num, by norm_num, lastStep_38, ⟨rfl, rfl⟩, by norm_num, by norm_num, rfl, rfl⟩

/-- The longest mask of MGF1. -/
theorem witness_CodecMasksAreThoseOfMgf1 : 2 ^ 37 ≤ 2 ^ 37 := le_rfl

/-- There is a modulus of every length. -/
theorem exists_byteLen (k : Nat) : ∃ n, byteLen n = k := by
  rcases k with _ | k
  · exact ⟨0, rfl⟩
  · refine ⟨256 ^ k, ?_⟩
    have : bitlen (256 ^ k) = 8 * k + 1 := by
      rw [bitlen_eq_iff (by omega), show (256 : Nat) = 2 ^ 8 from rfl, ← pow_mul]
      exact ⟨le_rfl, Nat.pow_lt_pow_right (by decide) (by omega)⟩
    rw [byteLen, this]; omega

/-- The longest message of key B, of 0 bytes, one byte more under a bound of 1 bit, a modulus too small for any
message, and the smallest modulus for which 2^61 bytes would be hashed. -/
theorem witness_OaepEncWritesTheBlockOrReportsTheLength :
    State.reset.engine.busy = false ∧ State.reset.engine.kn = none ∧
    2 ^ 61 ≤ ({ full with lbl := endless } : Engine).lbl.length ∧
    idle.engine.lbl.length < 2 ^ 61 ∧ idle.engine.busy = false ∧ idle.engine.msg = some [0x63] ∧
    idle.engine.kn = some 46513 ∧ idle.engine.ke = some 65537 ∧
    (bounded 600 66 (during (.oaepEnc [] [] nB 65537))).Running (.oaepEnc [] [] nB 65537) ∧
    ([] : Bytes).length + 66 ≤ byteLen nB ∧ byteLen nB < 2 ^ 61 + 29 ∧
    fitsBuf (bounded 600 66 idle).params (byteLen nB) = true ∧
    (during (.oaepEnc [0x00] [] nB 65537)).Running (.oaepEnc [0x00] [] nB 65537) ∧
    byteLen nB < [(0x00 : Byte)].length + 66 ∧ fitsInt (bounded 1 64 idle).params ([(0x00 : Byte)].length : Nat) = true ∧
    byteLen 46513 < ([] : Bytes).length + 66 ∧
    ∃ n, (during (.oaepEnc [] [] n 1)).Running (.oaepEnc [] [] n 1) ∧ ([] : Bytes).length + 66 ≤ byteLen n ∧
      2 ^ 61 + 29 ≤ byteLen n :=
  ⟨rfl, rfl, endless_length.ge, by decide, rfl, rfl, rfl, rfl, ⟨rfl, rfl⟩, by decide +kernel, by decide +kernel,
    by decide +kernel, ⟨rfl, rfl⟩, by decide +kernel, by decide, by decide +kernel,
    (exists_byteLen (2 ^ 61 + 29)).imp fun n h => ⟨⟨rfl, rfl⟩, by rw [h]; decide, h.ge⟩⟩

theorem witness_EncodedMessageIsBelowTheModulus :
    ([] : Bytes).length + 66 ≤ byteLen nB ∧ (be seed01 32).length = 32 := ⟨by decide +kernel, be_length _ _⟩

/-- An encoded message whose data block is the digest of the label and the bytes given: with exponent 1 and a
modulus above it, it is its own ciphertext block. -/
def crafted (label tail : Bytes) : Bytes :=
  let seed := List.replicate 32 0x00
  let maskedDB := xorBytes (sha256 label ++ tail) (maskBytes seed (32 + tail.length))
  [0x00] ++ xorBytes seed (maskBytes maskedDB 32) ++ maskedDB

/-- The largest modulus of 66 bytes. -/
def nMax : Nat := 256 ^ 66 - 1

/-- The data block `OAEP_DEC` recovers from a block under `nMax` with exponent 1. -/
def recovered (c : Bytes) : Bytes := recoveredDB (byteLen nMax) (be (intOf c ^ 1 % nMax) (byteLen nMax))

theorem intOf_zeros (k : Nat) : intOf (List.replicate k 0x00) = 0 := by
  induction k with
  | zero => rfl
  | succ k ih => rw [List.replicate_succ, intOf_cons, ih]; simp

/-- A block of zeros under exponent 1 begins with a zero byte. -/
theorem zeros_head {n : Nat} (h : 0 < byteLen n) :
    (be (intOf (List.replicate (byteLen n) 0x00) ^ 1 % n) (byteLen n)).head? = some 0x00 := by
  rw [intOf_zeros, Nat.pow_one, Nat.zero_mod]
  obtain ⟨k, hk⟩ := Nat.exists_eq_succ_of_ne_zero h.ne'
  rw [hk, be]; simp

/-- The messages recovered from the crafted blocks: no terminator, a byte other than 0x00 before the terminator, and
a terminator alone, all under the digest of the empty label, which is not that of `[0x78]`. -/
theorem recovered_crafted :
    let Split (tail : Bytes) := (recovered (crafted [] tail)).take 32 = sha256 [] ∧ (recovered (crafted [] tail)).drop 32 = tail
    Split [0x00] ∧ Split [0x02] ∧ Split [0x01] ∧ sha256 [] ≠ sha256 [0x78] := by decide +kernel

/-- The moduli and the first bytes: a modulus of 65 bytes, a block of 65 bytes under `nMax`, whose two lengths have 7
bits, a leading 0x01 and a leading 0x00. -/
theorem crafted_heads :
    byteLen (256 ^ 65 - 1) < 66 ∧ (66 ≤ byteLen nMax ∧ byteLen nMax < 2 ^ 61 + 29) ∧
    ((List.replicate 65 (0x00 : Byte)).length ≠ byteLen nMax ∧ fitsInt (bounded 7 64 idle).params (byteLen nMax : Nat) = true ∧
      fitsInt (bounded 7 64 idle).params ((List.replicate 65 (0x00 : Byte)).length : Nat) = true) ∧
    (be (intOf (0x01 :: List.replicate 65 0x00) ^ 1 % nMax) (byteLen nMax)).head? ≠ some 0x00 ∧
    (be (intOf (crafted [] [0x01]) ^ 1 % nMax) (byteLen nMax)).head? = some 0x00 := by decide +kernel

/-- Each check failing first, and none: a block of 65 bytes, a leading 0x01, another label, no terminator, a byte
other than 0x00 before the terminator, and a terminator alone. The lengths in the context have 7 bits. The smallest
modulus for which 2^61 bytes would be hashed. -/
theorem witness_OaepDecMakesItsChecksInOrder :
    (State.reset.engine.busy = false ∧ State.reset.engine.kd = none ∧
      2 ^ 61 ≤ ({ full with lbl := endless } : Engine).lbl.length) ∧
    (idle.engine.busy = false ∧ byteLen (256 ^ 65 - 1) < 66 ∧ 66 ≤ byteLen nMax ∧ byteLen nMax < 2 ^ 61 + 29) ∧
    (during (.oaepDec [] [] nMax 1)).Running (.oaepDec [] [] nMax 1) ∧
    ((List.replicate 65 (0x00 : Byte)).length ≠ byteLen nMax ∧
      fitsInt (bounded 7 64 idle).params (byteLen nMax : Nat) = true ∧
      fitsInt (bounded 7 64 idle).params ((List.replicate 65 (0x00 : Byte)).length : Nat) = true) ∧
    ((be (intOf (0x01 :: List.replicate 65 0x00) ^ 1 % nMax) (byteLen nMax)).head? ≠ some 0x00 ∧
      (be (intOf (crafted [] [0x01]) ^ 1 % nMax) (byteLen nMax)).head? = some 0x00) ∧
    (recovered (crafted [] [0x01])).take 32 ≠ sha256 [0x78] ∧
    ((recovered (crafted [] [0x00])).take 32 = sha256 [] ∧ paddingScan ((recovered (crafted [] [0x00])).drop 32) = none) ∧
    ((recovered (crafted [] [0x02])).take 32 = sha256 [] ∧ paddingScan ((recovered (crafted [] [0x02])).drop 32) = none) ∧
    ((recovered (crafted [] [0x01])).take 32 = sha256 [] ∧
      (recovered (crafted [] [0x01])).drop 32 = List.replicate 0 0x00 ++ [0x01] ++ [] ∧
      fitsBuf (bounded 600 0 idle).params ([] : Bytes).length = true) ∧
    ∃ n, (during (.oaepDec (List.replicate (byteLen n) 0x00) [] n 1)).Running
        (.oaepDec (List.replicate (byteLen n) 0x00) [] n 1) ∧ 66 ≤ byteLen n ∧ 2 ^ 61 + 29 ≤ byteLen n ∧
      (List.replicate (byteLen n) (0x00 : Byte)).length = byteLen n ∧
      (be (intOf (List.replicate (byteLen n) 0x00) ^ 1 % n) (byteLen n)).head? = some 0x00 := by
  obtain ⟨modulus, bounds, lengths, heads⟩ := crafted_heads
  obtain ⟨⟨lhash0, scan0⟩, ⟨lhash2, scan2⟩, ⟨lhash, rest⟩, labels⟩ := recovered_crafted
  refine ⟨⟨rfl, rfl, endless_length.ge⟩, ⟨rfl, modulus, bounds⟩, ⟨rfl, rfl⟩, lengths, heads, by rwa [lhash],
    ⟨lhash0, by rw [scan0]; rfl⟩, ⟨lhash2, by rw [scan2]; rfl⟩, ⟨lhash, rest, rfl⟩, ?_⟩
  obtain ⟨n, h⟩ := exists_byteLen (2 ^ 61 + 29)
  exact ⟨n, ⟨rfl, rfl⟩, by rw [h]; decide, h.ge, List.length_replicate, zeros_head (by rw [h]; decide)⟩

/-- A block whose value is above the modulus. -/
theorem witness_BlocksDecodeLikeTheirResidues :
    (List.replicate 66 (0xff : Byte)).length = byteLen nB ∧ nB ≤ intOf (List.replicate 66 0xff) := by decide +kernel

/-- Two distinct primes, one of them the Mersenne prime 2^521 − 1, whose product has 66 bytes, and exponents
inverse to each other modulo (p − 1)(q − 1). -/
def bigPrime : Nat := 2 ^ 521 - 1

theorem bigPrime_prime : bigPrime.Prime := lucas_lehmer_sufficiency 521 (by norm_num) (by norm_num)

def bigInverse : Nat := 0x380807f7f80807f7f80807f7f80807f7f80807f7f80807f7f80807f7f80807f7f80807f7f80807f7f80807f7f80807f7f80807f7f80807f7f80807f7f80807f7f7d

theorem witness_OaepDecodeUndoesEncode :
    Nat.Prime 3 ∧ bigPrime.Prime ∧ 3 ≠ bigPrime ∧ 65537 * bigInverse % ((3 - 1) * (bigPrime - 1)) = 1 ∧
    66 ≤ byteLen (3 * bigPrime) ∧
    ([] : Bytes).length ≤ byteLen (3 * bigPrime) - 66 ∧ (be seed01 32).length = 32 :=
  ⟨by norm_num, bigPrime_prime, by decide +kernel, by decide +kernel, by decide +kernel,
    by decide +kernel, be_length _ _⟩

/-- Two labels with different digests, and one label twice. -/
theorem witness_WrongLabelFailsOnTheLabelHash :
    Nat.Prime 3 ∧ bigPrime.Prime ∧ 3 ≠ bigPrime ∧ 65537 * bigInverse % ((3 - 1) * (bigPrime - 1)) = 1 ∧
    (be seed01 32).length = 32 ∧ (∃ c, oaepEncode [] (3 * bigPrime) 65537 [0x61] (be seed01 32) = .ok c) ∧
    sha256 [0x62] ≠ sha256 [0x61] :=
  ⟨by norm_num, bigPrime_prime, by decide +kernel, by decide +kernel, be_length _ _,
    ⟨_, oaepEncode_of_fits (by decide +kernel)⟩, by decide +kernel⟩

/-- An issue and a completion. -/
theorem witness_CommandsWriteOnlyTheirDestinations :
    (∃ t, exec .hash idle = .next t) ∧ (∃ t, exec .hInit (during .hInit) = .next t) ∧ Reg.hacc ∉ destinations .hash ∧
    Instr.hash ≠ .isprime ∧ Instr.hash ∉ [Instr.isprime, .genprime, .genkey, .oaepEnc] :=
  ⟨⟨_, rfl⟩, ⟨_, rfl⟩, by decide, by decide, by decide⟩

theorem witness_FailedCommandsRaiseTheirErrorAndInvalidate :
    (during (.modinv 2 4)).engine.busy = true ∧ Reg.res0 ∈ destinations .modinv ∧
    after (exec .modinv (during (.modinv 2 4))) (fun t => (t.engine.busy, t.engine.err)) = some (false, 2) := by
  decide +kernel

/-- `ISPRIME` of 3 sets the flag, `H_INIT` empties an accumulator that was not empty. -/
theorem witness_PrimeAndAccumulatorHaveOneWriter :
    after (step (during (.isprime 3 40))) (fun t => t.engine.prime) = some true ∧
    (during (.isprime 3 40)).engine.prime = false ∧
    after (step (during .hInit)) (fun t => t.engine.hacc) = some [] ∧ (during .hInit).engine.hacc = [0x61, 0x62] ∧
    (during .hInit).agenda.head? ≠ some .reset := by decide +kernel

/-- One byte or one bit below what the result or the context needs, command by command. -/
theorem witness_ResultsBeyondTheBoundsAreRefused :
    ((bounded 64 31 (during (.hash []))).Running (.hash []) ∧ fitsBuf (bounded 64 31 idle).params 32 = false) ∧
    (bounded 64 31 (during (.hDigest []))).Running (.hDigest []) ∧
    ((bounded 64 63 (during (.hHexdigest []))).Running (.hHexdigest []) ∧ fitsBuf (bounded 64 63 idle).params 64 = false) ∧
    ((bounded 64 2 idle).engine.busy = false ∧ idle.engine.msg = some [0x63] ∧
      fitsBuf (bounded 64 2 idle).params (idle.engine.hacc.length + [(0x63 : Byte)].length) = false) ∧
    (fitsBuf (bounded 64 15 idle).params 16 = false ∧ (bounded 64 15 idle).engine.arg = some 16) ∧
    ((bounded 37 64 (during (.mgf1 [] 137438953473))).Running (.mgf1 [] 137438953473) ∧
      fitsInt (bounded 37 64 idle).params (137438953473 : Nat) = false) ∧
    ((bounded 7 64 (during (.montmul 100 200 257))).Running (.montmul 100 200 257) ∧
      fitsInt (bounded 7 64 idle).params (montMul (montRBits (bounded 7 64 idle).params 257) 100 200 257 : Nat) = false) ∧
    ((bounded 5 64 (during (.modexp 63 1 64))).Running (.modexp 63 1 64) ∧
      fitsInt (bounded 5 64 idle).params (63 ^ 1 % 64 : Nat) = false) ∧
    ((bounded 5 64 (during (.egcd 240 46))).Running (.egcd 240 46) ∧
      fitsInt (bounded 1 64 idle).params (Nat.gcd 240 46 : Nat) = false ∧
      fitsInt (bounded 3 64 idle).params (egcd 240 46).2.1 = false ∧
      fitsInt (bounded 5 64 idle).params (egcd 240 46).2.2 = false) ∧
    ((bounded 11 64 (during (.modinv 17 3120))).Running (.modinv 17 3120) ∧ modInverse 17 3120 = some 2753 ∧
      fitsInt (bounded 11 64 idle).params (2753 : Nat) = false) ∧
    ((bounded 7 64 (during (.genprime 8 (some 131)))).Running (.genprime 8 (some 131)) ∧
      (isPrime 131 40 ⟨List.replicate 40 2, 0⟩).1 = true ∧ fitsInt (bounded 7 64 idle).params (131 : Nat) = false) ∧
    ((bounded 3 64 (during (.genkey 4 (some 3) (some 3)))).Running (.genkey 4 (some 3) (some 3)) ∧
      (isPrime 3 40 ⟨[], 0⟩).1 = true ∧ Nat.gcd 65537 ((3 - 1) * (3 - 1)) = 1 ∧
      fitsInt (bounded 3 64 idle).params (3 * 3 : Nat) = false ∧ fitsInt (bounded 16 64 idle).params (3 * 3 : Nat) = true ∧
      fitsInt (bounded 16 64 idle).params (65537 : Nat) = false) := by
  have running (l : Latch) (ib bb : Nat) : (bounded ib bb (during l)).Running l := ⟨rfl, rfl⟩
  refine ⟨⟨running _ _ _, ?_⟩, running _ _ _, ⟨running _ _ _, ?_⟩, ⟨rfl, rfl, ?_⟩, ⟨?_, rfl⟩, ⟨running .., ?_⟩,
    ⟨running .., ?_⟩, ⟨running .., ?_⟩, ⟨running .., by decide +kernel⟩, ⟨running .., by decide +kernel⟩,
    ⟨running .., by decide +kernel⟩, running .., ?_⟩ <;> decide +kernel

/-- The same for the two codec commands: a block of 66 bytes, a message of 64 bytes that is too long, a recovered
message of one byte under a modulus of 67 bytes, and the two lengths of a block that is too short or too long. -/
theorem witness_ResultsBeyondTheBoundsAreRefused_codec :
    ((bounded 600 65 (during (.oaepEnc [] [] nB 65537))).Running (.oaepEnc [] [] nB 65537) ∧
      ([] : Bytes).length + 66 ≤ byteLen nB ∧ fitsBuf (bounded 600 65 idle).params (byteLen nB) = false) ∧
    ((bounded 6 64 (during (.oaepEnc (List.replicate 64 0x00) [] 1 1))).Running (.oaepEnc (List.replicate 64 0x00) [] 1 1) ∧
      byteLen 1 < (List.replicate 64 (0x00 : Byte)).length + 66 ∧
      fitsInt (bounded 6 64 idle).params ((List.replicate 64 (0x00 : Byte)).length : Nat) = false) ∧
    ((bounded 600 0 (during (.oaepDec (crafted [] [0x01, 0x41]) [] (256 ^ 67 - 1) 1))).Running
        (.oaepDec (crafted [] [0x01, 0x41]) [] (256 ^ 67 - 1) 1) ∧
      oaepDecode (crafted [] [0x01, 0x41]) (256 ^ 67 - 1) 1 [] = .ok [0x41] ∧
      fitsBuf (bounded 600 0 idle).params [(0x41 : Byte)].length = false) ∧
    ((bounded 6 200 (during (.oaepDec [] [] nMax 1))).Running (.oaepDec [] [] nMax 1) ∧ ([] : Bytes).length ≠ byteLen nMax ∧
      fitsInt (bounded 6 200 idle).params (byteLen nMax : Nat) = false) ∧
    ((List.replicate 128 (0x00 : Byte)).length ≠ byteLen nMax ∧
      fitsInt (bounded 7 200 idle).params (byteLen nMax : Nat) = true ∧
      fitsInt (bounded 7 200 idle).params ((List.replicate 128 (0x00 : Byte)).length : Nat) = false) := by
  refine ⟨⟨⟨rfl, rfl⟩, ?_, ?_⟩, ⟨⟨rfl, rfl⟩, ?_, ?_⟩, ⟨⟨rfl, rfl⟩, ?_, ?_⟩, ⟨⟨rfl, rfl⟩, ?_, ?_⟩, ?_⟩ <;>
    decide +kernel

/-- A next state and a refusal. -/
theorem witness_NoCommandReadsTheStoredPrimes :
    (∃ t, exec .hash idle = .next t) ∧ exec .hash State.reset = .refused (.noValue .msg) := ⟨⟨_, rfl⟩, rfl⟩

/-- `H_DIGEST` just accepted, nothing bounded. -/
def digesting : State :=
  { State.reset with engine := { Engine.reset with busy := true, latch := some (.hDigest []) } }

theorem digesting_inv : digesting.Inv where
  params_fit_rounds := rfl
  busy_iff_latched := rfl
  err_legal := (no_error rfl rfl rfl).1
  context := (no_error rfl rfl rfl).2
  held := by rintro l ⟨⟩; rfl
  legal := by
    rintro l ⟨⟩
    show ([] : Bytes).length < 2 ^ 61
    decide
  fits := fits_of_unbounded rfl rfl _

theorem witness_OtherCommandsAlwaysComplete :
    digesting.Inv ∧ digesting.Running (.hDigest []) ∧ digesting.params.maxIntBits = none ∧
    digesting.params.maxBufBytes = none ∧ Latch.instr (.hDigest []) ≠ .genprime ∧ Latch.instr (.hDigest []) ≠ .genkey ∧
    byteLen nB < 2 ^ 61 + 29 :=
  ⟨digesting_inv, ⟨rfl, rfl⟩, rfl, rfl, by decide, by decide, by decide +kernel⟩

/-- `RUN H_DIGEST` on an idle engine. -/
def running : State := { State.reset with agenda := Script.run .hDigest }

theorem running_inv : running.Inv where
  params_fit_rounds := rfl
  busy_iff_latched := rfl
  err_legal := (no_error rfl rfl rfl).1
  context := (no_error rfl rfl rfl).2
  held := by rintro l ⟨⟩
  legal := by rintro l ⟨⟩
  fits := fits_of_unbounded rfl rfl _

theorem witness_RunOfATerminatingCommandEndsIdle :
    running.Inv ∧ running.engine.busy = false ∧ Instr.hDigest ≠ .genprime ∧ Instr.hDigest ≠ .genkey ∧
    running.params.maxIntBits = none ∧ running.params.maxBufBytes = none ∧
    (∀ n, running.engine.kn = some n → byteLen n < 2 ^ 61 + 29) ∧ running.agenda = Script.run .hDigest ++ [] ∧
    ∃ u, exec .hDigest running = .next u :=
  ⟨running_inv, rfl, by decide, by decide, rfl, rfl, by rintro n ⟨⟩, rfl, _, rfl⟩

/-- The sequence of two strings on an idle engine with key B loaded. -/
def sequence (i : Instr) : State :=
  { State.reset with
    engine := { Engine.reset with kn := some nB, ke := some 65537, kd := some dB }
    agenda := Script.forEach i [[], [0x41]] }

theorem sequence_inv (i : Instr) : (sequence i).Inv where
  params_fit_rounds := rfl
  busy_iff_latched := rfl
  err_legal := (no_error rfl rfl rfl).1
  context := (no_error rfl rfl rfl).2
  held := by rintro l ⟨⟩
  legal := by rintro l ⟨⟩
  fits := fits_of_unbounded rfl rfl _

/-- Both codec commands. -/
theorem witness_CodecSequencesStopAtTheFirstError :
    (sequence .oaepEnc).Inv ∧ (sequence .oaepDec).Inv ∧ ∀ i, (sequence i).engine.busy = false ∧
    (sequence i).params.maxIntBits = none ∧ (sequence i).params.maxBufBytes = none ∧
    (sequence i).engine.kn = some nB ∧ 66 ≤ byteLen nB ∧ byteLen nB < 2 ^ 61 + 29 ∧
    (sequence i).engine.lbl.length < 2 ^ 61 ∧ (sequence i).engine.ke ≠ none ∧ (sequence i).engine.kd ≠ none ∧
    (sequence i).agenda = Script.forEach i [[], [0x41]] ++ [] :=
  ⟨sequence_inv _, sequence_inv _, fun _ => ⟨rfl, rfl, rfl, rfl, by decide +kernel, by decide +kernel,
    Nat.two_pow_pos 61, Option.some_ne_none _, Option.some_ne_none _, (List.append_nil _).symm⟩⟩

/-- A busy state that meets the invariant, and its step. -/
theorem witness_EveryStepKeepsTheInvariant :
    digesting.Inv ∧ after (step digesting) (fun t => t.engine.busy) = some false := ⟨digesting_inv, by decide +kernel⟩

end Sys2Proof.Tests
end

/-! ## The invariant (O59, O60): the machine is never stuck, and every step keeps it -/

namespace Sys2Proof.Machine

/-! ### Faults: only `BUSY` with nothing latched is stuck -/

theorem issue_ne_fault {l : Except Refusal Latch} {s : State} {f : Fault} : issue l s ≠ .fault f := by
  cases l <;> simp [issue]

theorem readOutcome_ne_fault {s : State} {v : Except Refusal HostValue} {f : Fault} :
    readOutcome s v ≠ .fault f := by
  cases v <;> simp [readOutcome]

theorem writeOutcome_ne_fault {s : State} {e : Except Refusal Engine} {f : Fault} :
    writeOutcome s e ≠ .fault f := by
  cases e <;> simp [writeOutcome]

theorem exec_fault {i : Instr} {s : State} {f : Fault} (h : exec i s = .fault f) :
    s.engine.busy = true ∧ s.engine.latch = none := by
  cases hb : s.engine.busy with
  | false => rw [exec_idle hb] at h; exact absurd h issue_ne_fault
  | true =>
    cases hl : s.engine.latch with
    | none => exact ⟨rfl, rfl⟩
    | some l =>
      by_cases hi : l.instr = i
      · subst hi
        rw [exec_running ⟨hb, hl⟩] at h
        exact absurd h advance_ne_fault
      · rw [exec_running_other ⟨hb, hl⟩ hi] at h; cases h

theorem engineStep_fault {s : State} {f : Fault} (h : engineStep s = .fault f) :
    s.engine.busy = true ∧ s.engine.latch = none := by
  unfold engineStep at h
  split at h
  · split at h
    · exact exec_fault h
    · exact ⟨‹_›, ‹_›⟩
  · cases h

theorem writeCommand_ne_fault {w : Word} {s : State} {f : Fault} (hb : s.engine.busy = false) :
    writeCommand w s ≠ .fault f := by
  unfold writeCommand
  split
  · intro h
    obtain ⟨hb', -⟩ := exec_fault h
    rw [takeAnswers_engine, hb] at hb'
    cases hb'
  · simp

/-- The host cannot make the machine stuck: a busy engine refuses what could (R62). -/
theorem hostAccess_ne_fault {a : HostAction} {s : State} {f : Fault} : hostAccess a s ≠ .fault f := by
  cases hb : s.engine.busy with
  | true => cases a <;> simp [hostAccess, hb]
  | false =>
    cases a <;> simp [hostAccess, hb, readOutcome_ne_fault, writeOutcome_ne_fault, writeCommand_ne_fault]

theorem step_fault {s : State} {f : Fault} (h : step s = .fault f) :
    s.engine.busy = true ∧ s.engine.latch = none := by
  unfold step nextStep at h
  split at h
  · exact engineStep_fault h
  next ev rest _ =>
    cases ev with
    | host a => exact absurd h hostAccess_ne_fault
    | engine => exact engineStep_fault (s := { s with agenda := rest }) h
    | reset => cases h
    | wait => cases h
    | errCheck skip => cases h
    | answers xs => cases h

theorem State.Inv.safe {s : State} (h : s.Inv) : s.Safe := by
  intro f hf
  obtain ⟨hb, hl⟩ := step_fault hf
  have := h.busy_iff_latched
  simp [hb, hl] at this

/-! ### The bounds of R22 over the remaining updates of the engine -/

theorem fits_errinfo {p : Params} {e : Engine} (h : e.fits p) :
    fitsInt p e.errinfoExp = true ∧ fitsInt p e.errinfoAct = true :=
  ⟨h.1 .errinfoExp _ rfl, h.1 .errinfoAct _ rfl⟩

theorem content_relatch {e : Engine} {b : Bool} {x : Option Latch} {q : Reg} (hs : q ≠ .status) :
    Engine.content { e with busy := b, latch := x } q = e.content q := by
  cases q
  case status => exact absurd rfl hs
  all_goals rfl

theorem fits_relatch {p : Params} {e : Engine} {b : Bool} {x : Option Latch} (h : e.fits p) :
    Engine.fits p { e with busy := b, latch := x } :=
  fits_congr h (fits_errinfo h).1 (fits_errinfo h).2 fun _ hs _ _ => .inl (content_relatch hs)

theorem fits_finish {p : Params} {e : Engine} {code : BitVec 8} {exp act : Nat} (h : e.fits p)
    (hexp : fitsInt p exp = true) (hact : fitsInt p act = true) : (e.finish code exp act).fits p :=
  fits_congr h hexp hact fun _ hs h1 h2 => .inl (content_finish hs h1 h2)

theorem fits_clearAll {p : Params} {e : Engine} (rs : List Reg) (h : e.fits p) :
    (rs.foldl Engine.clear e).fits p :=
  fits_congr h (by simpa using (fits_errinfo h).1) (by simpa using (fits_errinfo h).2)
    fun _ hs _ _ => content_clear_foldl_or hs

theorem fitsBuf_zero (p : Params) : fitsBuf p 0 = true := by
  unfold fitsBuf; cases p.maxBufBytes <;> simp

/-- After reset only the two context registers and `ROUNDS` hold a number, and every buffer is empty or ⊥ (R55). -/
theorem fits_reset {p : Params} (h : fitsInt p 40 = true) : Engine.reset.fits p := by
  constructor
  · intro r v hr
    cases r
    case errinfoExp => cases hr; exact fitsInt_zero p
    case errinfoAct => cases hr; exact fitsInt_zero p
    case rounds => cases hr; exact h
    all_goals cases hr
  · intro r x hr
    cases r
    case lbl => cases hr; exact fitsBuf_zero p
    case hacc => cases hr; exact fitsBuf_zero p
    all_goals cases hr

theorem content_setInt (e : Engine) (r : Reg) (n : Nat) (q : Reg) :
    (e.setInt r n).content q = e.content q ∨ (e.setInt r n).content q = some (.int n) := by
  unfold Engine.setInt
  split <;> cases q <;> simp [Engine.content, statusWord]

theorem content_setBuf (e : Engine) (r : Reg) (x : Bytes) (q : Reg) :
    (e.setBuf r x).content q = e.content q ∨ (e.setBuf r x).content q = some (.bytes x) := by
  unfold Engine.setBuf
  split <;> cases q <;> simp [Engine.content, statusWord]

theorem fits_setInt {p : Params} {e : Engine} {r : Reg} {n : Nat} (h : e.fits p) (hn : fitsInt p n = true) :
    (e.setInt r n).fits p := by
  constructor <;> intro q v hq <;> rcases content_setInt e r n q with hc | hc <;> rw [hc] at hq
  · exact h.1 q v hq
  · cases hq; exact hn
  · exact h.2 q v hq
  · cases hq

theorem fits_setBuf {p : Params} {e : Engine} {r : Reg} {x : Bytes} (h : e.fits p)
    (hx : fitsBuf p x.length = true) : (e.setBuf r x).fits p := by
  constructor <;> intro q v hq <;> rcases content_setBuf e r x q with hc | hc <;> rw [hc] at hq
  · exact h.1 q v hq
  · cases hq
  · exact h.2 q v hq
  · cases hq; exact hx

/-! ### The report of a command: its code and context (R251, R253) -/

/-- A code other than the three of the length errors agrees with a zero context. -/
theorem contextAgrees_zero {e : Engine} (code : BitVec 8) (herr : e.err = code) (hexp : e.errinfoExp = 0)
    (hact : e.errinfoAct = 0)
    (hcode : code ∉ [Err.maskTooLong.code, Err.messageTooLong.code, Err.invalidCiphertextLength.code]) :
    e.contextAgrees := by
  subst herr
  simp only [List.mem_cons, List.not_mem_nil, or_false, not_or] at hcode
  obtain ⟨hm, hl, hc⟩ := hcode
  exact ⟨fun h => absurd h hm, fun h => absurd h hl, fun h => absurd h hc, fun _ _ _ => ⟨hexp, hact⟩⟩

/-- Every error a command raises has a code of R251's set, and the context of that code. -/
theorem raises_report {i : Instr} {x : Err} {exp act : Nat} (e : Engine) (h : Raises i x exp act) :
    x.code ∈ legalErr ∧ (e.finish x.code exp act).contextAgrees := by
  have zero (x : Err) (hx : x.code ∉ [Err.maskTooLong.code, Err.messageTooLong.code,
      Err.invalidCiphertextLength.code]) : (e.finish x.code 0 0).contextAgrees :=
    contextAgrees_zero x.code rfl rfl rfl hx
  rcases h with ⟨-, rfl, rfl, hact⟩ | ⟨-, rfl, rfl, rfl⟩ | ⟨-, rfl, hle⟩ | ⟨-, rfl, hne⟩ | ⟨-, rfl | rfl, rfl, rfl⟩
  · exact ⟨by decide, by simpa [Engine.contextAgrees, Engine.finish, Err.code] using hact⟩
  · exact ⟨by decide, zero .noInverse (by decide)⟩
  · exact ⟨by decide, by simpa [Engine.contextAgrees, Engine.finish, Err.code] using hle⟩
  · exact ⟨by decide, by simpa [Engine.contextAgrees, Engine.finish, Err.code] using hne⟩
  · exact ⟨by decide, zero .invalidPadding (by decide)⟩
  · exact ⟨by decide, zero .invalidLabelHash (by decide)⟩

/-! ### The invariant over each kind of step -/

/-- The invariant speaks of the engine and the parameters alone. -/
theorem State.Inv.congr {s t : State} (h : s.Inv) (he : t.engine = s.engine) (hp : t.params = s.params) : t.Inv where
  params_fit_rounds := hp ▸ h.params_fit_rounds
  busy_iff_latched := he ▸ h.busy_iff_latched
  err_legal := he ▸ h.err_legal
  context := he ▸ h.context
  held := he ▸ h.held
  legal := he ▸ hp ▸ h.legal
  fits := he ▸ hp ▸ h.fits

/-- On an idle engine nothing is latched, so the invariant is about the parameters, the report and the bounds. -/
theorem State.Inv.of_idle {s : State} (hp : fitsInt s.params 40 = true) (hb : s.engine.busy = false)
    (hl : s.engine.latch = none) (he : s.engine.err ∈ legalErr) (hc : s.engine.contextAgrees)
    (hf : s.engine.fits s.params) : s.Inv where
  params_fit_rounds := hp
  busy_iff_latched := by rw [hb, hl]; rfl
  err_legal := he
  context := hc
  held := by simp [hl]
  legal := by simp [hl]
  fits := hf

theorem State.Inv.latch_none {s : State} (h : s.Inv) (hb : s.engine.busy = false) : s.engine.latch = none := by
  simpa [hb] using h.busy_iff_latched

theorem inv_of_reset {t : State} (he : t.engine = Engine.reset) (hp : fitsInt t.params 40 = true) : t.Inv :=
  .of_idle hp (by rw [he]; rfl) (by rw [he]; rfl) (by rw [he]; decide)
    (by rw [he]; exact contextAgrees_zero 0x00 rfl rfl rfl (by decide))
    (by rw [he]; exact fits_reset hp)

/-- The latched operands are compared with registers only, not with `BUSY` or `LATCH`. -/
theorem sourcesHeld_relatch {e : Engine} {b : Bool} {x : Option Latch} {l : Latch} :
    l.sourcesHeld { e with busy := b, latch := x } ↔ l.sourcesHeld e := by
  cases l <;> exact Iff.rfl

/-- A latch that is held and legal, on an engine made busy: an issue, or the progress of a running command. -/
theorem State.Inv.relatch {s : State} {l : Latch} (h : s.Inv) (hheld : l.sourcesHeld s.engine)
    (hlegal : l.legal s.params) :
    State.Inv { s with engine := { s.engine with busy := true, latch := some l } } where
  params_fit_rounds := h.params_fit_rounds
  busy_iff_latched := rfl
  err_legal := h.err_legal
  context := h.context
  held := by rintro _ ⟨⟩; exact sourcesHeld_relatch.2 hheld
  legal := by rintro _ ⟨⟩; exact hlegal
  fits := fits_relatch h.fits

theorem State.Inv.accept {s : State} {i : Instr} {l : Latch} (h : s.Inv)
    (hl : latchOf s.params s.engine i = .ok l) : (s.accept l).Inv := by
  obtain ⟨-, hheld, hlegal⟩ := latchOf_spec hl
  exact h.relatch hheld hlegal

theorem State.Inv.progress {s : State} {l : Latch} (h : s.Inv) (hb : s.engine.busy = true)
    (hheld : l.sourcesHeld s.engine) (hlegal : l.legal s.params) : (s.progress l).Inv :=
  (h.relatch hheld hlegal).congr (by rw [← hb]; rfl) rfl

theorem State.Inv.succeed {s : State} {r : Result} (h : s.Inv) (hr : r.fits s.params = true) :
    (s.succeed r).Inv :=
  .of_idle h.params_fit_rounds rfl rfl (show successCode ∈ legalErr by decide)
    (contextAgrees_zero successCode rfl rfl rfl (by decide))
    (fits_finish (fits_write h.fits hr) (fitsInt_zero _) (fitsInt_zero _))

theorem State.Inv.errorEntry {s : State} {i : Instr} {x : Err} {exp act : Nat} (h : s.Inv)
    (hr : Raises i x exp act) (hexp : fitsInt s.params exp = true) (hact : fitsInt s.params act = true) :
    (errorEntry i x exp act s).Inv := by
  obtain ⟨hcode, hctx⟩ := raises_report ((destinations i).foldl Engine.clear s.engine) hr
  exact .of_idle h.params_fit_rounds rfl rfl hcode hctx (fits_finish (fits_clearAll _ h.fits) hexp hact)

theorem State.Inv.advances {s t : State} {l : Latch} (h : s.Inv) (hrun : s.Running l) (ha : Advances s l t) :
    t.Inv := by
  obtain ⟨hb, hl⟩ := hrun
  have hrng : ∀ g, (s.withRng g).Inv := fun _ => h.congr rfl rfl
  cases ha with
  | success r g _ hf _ => exact (hrng g).succeed hf
  | failure x exp act g hr hf _ => exact (hrng g).errorEntry hr hf.1 hf.2
  | progress l' g _ _ hheld hlegal => exact (hrng g).progress hb (hheld _ (h.held l hl)) (hlegal (h.legal l hl))

/-- Every command's meaning keeps the invariant. -/
theorem State.Inv.exec {s t : State} {i : Instr} (h : s.Inv) (he : exec i s = .next t) : t.Inv := by
  rcases exec_next he with ⟨-, l, hl, rfl⟩ | ⟨l, hrun, -, ha⟩
  · exact h.accept hl
  · exact h.advances hrun ha

/-- A host write to a register of an idle engine leaves the latch and the report alone. -/
theorem State.Inv.hostWrite {s t : State} {e : Engine} (h : s.Inv) (hb : s.engine.busy = false)
    (he : t.engine = e) (hp : t.params = s.params)
    (hframe : e.latch = s.engine.latch ∧ e.busy = s.engine.busy ∧ e.err = s.engine.err ∧
      e.errinfoExp = s.engine.errinfoExp ∧ e.errinfoAct = s.engine.errinfoAct)
    (hf : e.fits s.params) : t.Inv := by
  subst he
  obtain ⟨hlatch, hbusy, herr, hexp, hact⟩ := hframe
  refine .of_idle (hp ▸ h.params_fit_rounds) (hbusy.trans hb) (hlatch.trans (h.latch_none hb))
    (herr ▸ h.err_legal) ?_ (hp ▸ hf)
  simpa only [Engine.contextAgrees, herr, hexp, hact] using h.context

/-- An illegal word reports its code with a zero context, which fits every bound (R86). -/
theorem State.Inv.illegal {s t : State} (h : s.Inv) (hb : s.engine.busy = false)
    (he : t.engine = { s.engine with err := 0x80, errinfoExp := 0, errinfoAct := 0 }) (hp : t.params = s.params) :
    t.Inv := by
  refine .of_idle (hp ▸ h.params_fit_rounds) (by rw [he]; exact hb) (by rw [he]; exact h.latch_none hb)
    (by rw [he]; exact (by decide : (0x80 : BitVec 8) ∈ legalErr))
    (by rw [he]; exact contextAgrees_zero 0x80 rfl rfl rfl (by decide)) ?_
  rw [he, hp]
  refine fits_congr h.fits (fitsInt_zero _) (fitsInt_zero _) fun q hs h1 h2 => .inl ?_
  cases q
  case status => exact absurd rfl hs
  case errinfoExp => exact absurd rfl h1
  case errinfoAct => exact absurd rfl h2
  all_goals rfl

theorem State.Inv.step {s t : State} (h : s.Inv) (hstep : step s = .next t) : t.Inv := by
  cases step_shape hstep with
  | exec i u he hp hu => exact (h.congr he hp).exec hu
  | reset _ he hp => exact inv_of_reset he (hp ▸ h.params_fit_rounds)
  | illegal hb he hp => exact h.illegal hb he hp
  | setInt r n hb hf he hp =>
    obtain ⟨-, -, hframe⟩ := setInt_frame s.engine r n
    exact h.hostWrite hb he hp hframe (fits_setInt h.fits hf)
  | setBuf r x hb hf he hp =>
    obtain ⟨-, -, hframe⟩ := setBuf_frame s.engine r x
    exact h.hostWrite hb he hp hframe (fits_setBuf h.fits hf)
  | same he hp => exact h.congr he hp

/-- Settles O60: no step is stuck, and each kind of step keeps the invariant. -/
theorem everyStepKeepsTheInvariant : Obligations.EveryStepKeepsTheInvariant :=
  fun _ h => ⟨h.safe, fun _ hstep => h.step hstep⟩

/-- Settles O59: the default parameters hold 40, and the engine is that of reset. -/
theorem resetStateMeetsTheInvariant : Obligations.ResetStateMeetsTheInvariant :=
  inv_of_reset rfl rfl

end Sys2Proof.Machine

/-! ## One writer for `STATUS.PRIME` and for `HACC` (O53) -/

namespace Sys2Proof.Machine

theorem write_prime_of_dests {r : Result} {e : Engine} (h : r.dests ≠ [.status]) : (r.write e).prime = e.prime := by
  cases r
  case prime b => exact absurd rfl h
  all_goals rfl

theorem write_hacc_of_dests {r : Result} {e : Engine} (h : r.dests ≠ [.hacc]) : (r.write e).hacc = e.hacc := by
  cases r
  case hacc x => exact absurd rfl h
  all_goals rfl

/-- The flag has one destination column, that of `ISPRIME` (R83). -/
theorem destinations_eq_status {l : Latch} (h : destinations l.instr = [.status]) : ∃ n rounds, l = .isprime n rounds := by
  cases l
  case isprime n rounds => exact ⟨n, rounds, rfl⟩
  all_goals cases h

/-- The accumulator is the destination of `H_INIT` and `H_UPDATE` (R83). -/
theorem destinations_eq_hacc {l : Latch} (h : destinations l.instr = [.hacc]) :
    l = .hInit ∨ ∃ m x, l = .hUpdate m x := by
  cases l
  case hInit => exact .inl rfl
  case hUpdate m x => exact .inr ⟨m, x, rfl⟩
  all_goals cases h

/-- A step of the engine changes the flag or the accumulator only as a destination of the command. -/
theorem advances_prime_hacc {s t : State} {l : Latch} (h : Advances s l t) :
    (t.engine.prime ≠ s.engine.prime → destinations l.instr = [.status]) ∧
    (t.engine.hacc ≠ s.engine.hacc → destinations l.instr = [.hacc]) := by
  cases h with
  | success r g hd _ _ =>
    rw [← hd]
    exact ⟨fun hne => by_contra fun h => hne (write_prime_of_dests h),
      fun hne => by_contra fun h => hne (write_hacc_of_dests h)⟩
  | failure x exp act g _ _ _ =>
    exact ⟨fun hne => absurd (clearAll_prime _ _) hne, fun hne => absurd (clearAll_hacc _ _) hne⟩
  | progress l' g _ _ _ _ => exact ⟨fun hne => absurd rfl hne, fun hne => absurd rfl hne⟩

theorem exec_prime_hacc {i : Instr} {s t : State} (h : exec i s = .next t) :
    (t.engine.prime ≠ s.engine.prime → ∃ n rounds, s.Running (.isprime n rounds)) ∧
    (t.engine.hacc ≠ s.engine.hacc → s.Running .hInit ∨ ∃ m x, s.Running (.hUpdate m x)) := by
  rcases exec_next h with ⟨-, l, -, rfl⟩ | ⟨l, hrun, -, ha⟩
  · exact ⟨fun hne => absurd rfl hne, fun hne => absurd rfl hne⟩
  obtain ⟨hprime, hhacc⟩ := advances_prime_hacc ha
  constructor
  · intro hne
    obtain ⟨n, rounds, rfl⟩ := destinations_eq_status (hprime hne)
    exact ⟨n, rounds, hrun⟩
  · intro hne
    rcases destinations_eq_hacc (hhacc hne) with rfl | ⟨m, x, rfl⟩
    · exact .inl hrun
    · exact .inr ⟨m, x, hrun⟩

/-- Of all kinds of step, only a command's meaning and reset write the two fields. -/
theorem step_exec_or_keeps_prime_hacc {s t : State} (h : step s = .next t) (hreset : s.agenda.head? ≠ some .reset) :
    (∃ i u, u.engine = s.engine ∧ exec i u = .next t) ∨
      (t.engine.prime = s.engine.prime ∧ t.engine.hacc = s.engine.hacc) := by
  cases step_shape h with
  | exec i u he _ hu => exact .inl ⟨i, u, he, hu⟩
  | reset hr _ _ => exact absurd hr hreset
  | illegal _ he _ => exact .inr (by rw [he]; exact ⟨rfl, rfl⟩)
  | setInt r n _ _ he _ =>
    obtain ⟨hprime, hhacc, -⟩ := setInt_frame s.engine r n
    exact .inr (by rw [he]; exact ⟨hprime, hhacc⟩)
  | setBuf r x _ _ he _ =>
    obtain ⟨hprime, hhacc, -⟩ := setBuf_frame s.engine r x
    exact .inr (by rw [he]; exact ⟨hprime, hhacc⟩)
  | same he _ => exact .inr (by rw [he]; exact ⟨rfl, rfl⟩)

/-- Settles O53: a step that changes one of the two fields is the meaning of a command that has it as destination. -/
theorem primeAndAccumulatorHaveOneWriter : Obligations.PrimeAndAccumulatorHaveOneWriter := by
  intro s t hstep hreset
  rcases step_exec_or_keeps_prime_hacc hstep hreset with ⟨i, u, he, hu⟩ | ⟨hprime, hhacc⟩
  · simpa only [State.Running, he] using exec_prime_hacc hu
  · exact ⟨fun hne => absurd hprime hne, fun hne => absurd hhacc hne⟩

end Sys2Proof.Machine

/-! ## Results beyond the bounds (O54) -/

namespace Sys2Proof.Machine

/-! ### The shared operations refuse what does not fit -/

theorem refuses_complete {r : Result} {s : State} (h : r.fits s.params = false) : Refuses (complete r s) :=
  ⟨_, complete_of_not_fits h⟩

theorem refuses_fail {i : Instr} {x : Err} {exp act : Nat} {s : State}
    (h : fitsInt s.params exp = false ∨ fitsInt s.params act = false) : Refuses (fail i x exp act s) := by
  refine ⟨.resultTooLarge, if_neg ?_⟩
  rw [Bool.and_eq_true]
  rintro ⟨hexp, hact⟩
  rcases h with h | h
  · rw [hexp] at h; cases h
  · rw [hact] at h; cases h

/-- A running command refuses when the next step of its operation does. -/
theorem refuses_exec {s : State} {l : Latch} (h : s.Running l) (ha : Refuses (advance s l)) :
    Refuses (exec l.instr s) := by
  rwa [exec_running h]

/-- A command on an idle engine refuses when nothing can be latched. -/
theorem refuses_issue {s : State} {i : Instr} (hb : s.engine.busy = false)
    (h : ∀ l, latchOf s.params s.engine i ≠ .ok l) : Refuses (exec i s) := by
  rw [exec_idle hb]
  cases hl : latchOf s.params s.engine i with
  | ok l => exact absurd hl (h l)
  | error r => exact ⟨r, rfl⟩

/-! ### The commands whose result, or context, can exceed a bound -/

theorem hUpdate_refuses {s : State} {m : Bytes} (hb : s.engine.busy = false) (hm : s.engine.msg = some m)
    (h : fitsBuf s.params (s.engine.hacc.length + m.length) = false) : Refuses (exec .hUpdate s) := by
  refine refuses_issue hb fun l hl => ?_
  simp only [latchOf, latchHUpdate, hm, bind_ok_iff, need_ok_iff, require_ok_iff] at hl
  obtain ⟨_, ⟨⟩, _, hfit, -⟩ := hl
  rw [h] at hfit
  cases hfit

theorem mgf1_issue_refuses {s : State} {m : Bytes} {n : Nat} (hb : s.engine.busy = false)
    (hm : s.engine.msg = some m) (hn : s.engine.arg = some n) (hle : n ≤ Config.mgf1Max)
    (h : fitsBuf s.params n = false) : Refuses (exec .mgf1 s) := by
  refine refuses_issue hb fun l hl => ?_
  simp only [latchOf, latchMgf1, hm, hn, bind_ok_iff, need_ok_iff, require_ok_iff, Bool.or_eq_true,
    decide_eq_true_eq] at hl
  obtain ⟨_, ⟨⟩, _, ⟨⟩, _, hgt | hfit, -⟩ := hl
  · exact absurd hle (Nat.not_le.2 hgt)
  · rw [h] at hfit
    cases hfit

theorem mgf1_context_refuses {s : State} {seed : Bytes} {n : Nat} (hn : Config.mgf1Max < n)
    (h : fitsInt s.params n = false) : Refuses (advance s (.mgf1 seed n)) := by
  simp only [advance, mgf1_of_gt hn]
  exact refuses_fail (.inr h)

theorem egcd_refuses {s : State} {a b : Nat} (h : fitsInt s.params (Nat.gcd a b : Nat) = false ∨
    fitsInt s.params (egcd a b).2.1 = false ∨ fitsInt s.params (egcd a b).2.2 = false) :
    Refuses (advance s (.egcd a b)) := by
  refine refuses_complete ?_
  rcases h with h | h | h <;> simp [Result.fits, egcd_gcd, h]

theorem modinv_refuses {s : State} {x phi d : Nat} (hd : modInverse x phi = some d)
    (h : fitsInt s.params d = false) : Refuses (advance s (.modinv x phi)) := by
  simp only [advance, hd]
  exact refuses_complete h

theorem genprime_refuses {s : State} {bits c : Nat} (hc : (isPrime c Config.mrRounds s.rng).1 = true)
    (h : fitsInt s.params c = false) : Refuses (advance s (.genprime bits (some c))) := by
  simp only [advance, hc, if_true]
  exact refuses_complete h

/-- With the gcd 1 the key is derived, and its modulus or exponent does not fit. -/
theorem genkey_refuses {s : State} {bits p q : Nat} (hq : (isPrime q Config.mrRounds s.rng).1 = true)
    (hg : Nat.gcd Config.eFixed ((p - 1) * (q - 1)) = 1)
    (h : fitsInt s.params (p * q : Nat) = false ∨ fitsInt s.params (Config.eFixed : Nat) = false) :
    Refuses (advance s (.genkey bits (some p) (some q))) := by
  obtain ⟨d, hd⟩ : ∃ d, modInverse Config.eFixed ((p - 1) * (q - 1)) = some d :=
    ⟨_, if_pos ((egcd_gcd _ _).trans hg)⟩
  simp only [advance, hq, if_true, deriveKey, hd]
  refine refuses_complete ?_
  rcases h with h | h <;> simp only [Result.fits, withRng_params, h, Bool.false_and, Bool.and_false]

/-- A block of k bytes is refused, whether it is computed or the modulus is beyond R109. -/
theorem oaepEnc_refuses {s : State} {m lbl : Bytes} {n x : Nat} (hm : m.length + 66 ≤ byteLen n)
    (h : fitsBuf s.params (byteLen n) = false) : Refuses (advance s (.oaepEnc m lbl n x)) := by
  simp only [advance, messageTooLong_false hm, Bool.false_eq_true, if_false, oaepEncode_of_fits hm]
  split
  · exact ⟨_, rfl⟩
  · exact refuses_complete (by simpa [Result.fits] using h)

theorem oaepEnc_context_refuses {s : State} {m lbl : Bytes} {n x : Nat} (hm : byteLen n < m.length + 66)
    (h : fitsInt s.params m.length = false) : Refuses (advance s (.oaepEnc m lbl n x)) := by
  simp only [advance, messageTooLong_iff.2 hm, if_true]
  exact refuses_fail (.inr h)

/-- Past the refusal of R109, `OAEP_DEC` refuses when the end of its operation does. -/
theorem oaepDec_refuses {s : State} {c lbl : Bytes} {n d : Nat}
    (h : Refuses (conclude .oaepDec ((oaepDecode c n d lbl).map .out) s)) :
    Refuses (advance s (.oaepDec c lbl n d)) := by
  simp only [advance]
  split
  · exact ⟨_, rfl⟩
  · exact h

theorem oaepDecode_of_length_ne {c lbl : Bytes} {n d : Nat} (h : c.length ≠ byteLen n) :
    oaepDecode c n d lbl = .error (.raise .invalidCiphertextLength (byteLen n) c.length) := if_pos h

/-- Settles O54: clause by clause, the end of the operation or its issue refuses what does not fit. -/
theorem resultsBeyondTheBoundsAreRefused : Obligations.ResultsBeyondTheBoundsAreRefused := by
  intro s
  refine ⟨?hash, ?hDigest, ?hHexdigest, ?hUpdate, ?mgf1Issue, ?mgf1, ?montmul, ?modexp, ?egcd, ?modinv, ?genprime,
    ?genkey, ?oaepEnc, ?oaepEncContext, ?oaepDec, ?oaepDecContext⟩
  case hash =>
    exact fun m hrun h => refuses_exec hrun (refuses_complete (by rwa [Result.fits, sha256_length]))
  case hDigest =>
    exact fun m hrun h => refuses_exec hrun (refuses_complete (by rwa [Result.fits, sha256_length]))
  case hHexdigest =>
    exact fun m hrun h =>
      refuses_exec hrun (refuses_complete (by rwa [Result.fits, hexText_length, sha256_length]))
  case hUpdate => exact fun hb m hm h => hUpdate_refuses hb hm h
  case mgf1Issue => exact fun hb m n hm hn hle h => mgf1_issue_refuses hb hm hn hle h
  case mgf1 => exact fun seed n hrun hn h => refuses_exec hrun (mgf1_context_refuses hn h)
  case montmul => exact fun a b m hrun h => refuses_exec hrun (refuses_complete h)
  case modexp => exact fun b x m hrun h => refuses_exec hrun (refuses_complete (by rwa [Result.fits, modExp_eq]))
  case egcd => exact fun a b hrun h => refuses_exec hrun (egcd_refuses h)
  case modinv => exact fun x phi d hrun hd h => refuses_exec hrun (modinv_refuses hd h)
  case genprime => exact fun bits c hrun hc h => refuses_exec hrun (genprime_refuses hc h)
  case genkey => exact fun bits p q hrun hq hg h => refuses_exec hrun (genkey_refuses hq hg h)
  case oaepEnc => exact fun m lbl n x hrun hm h => refuses_exec hrun (oaepEnc_refuses hm h)
  case oaepEncContext => exact fun m lbl n x hrun hm h => refuses_exec hrun (oaepEnc_context_refuses hm h)
  case oaepDec =>
    intro c lbl n d msg hrun hmsg h
    refine refuses_exec hrun (oaepDec_refuses ?_)
    rw [hmsg]
    exact refuses_complete h
  case oaepDecContext =>
    intro c lbl n d hrun hc h
    refine refuses_exec hrun (oaepDec_refuses ?_)
    rw [oaepDecode_of_length_ne hc]
    exact refuses_fail h

end Sys2Proof.Machine

/-! ## No command reads `KP` or `KQ` (O55) -/

namespace Sys2Proof.Machine

/-- The state with other contents of `KP` and `KQ`. -/
def State.withPrimes (s : State) (a b : Option Nat) : State := { s with engine := { s.engine with kp := a, kq := b } }

/-- Two outcomes that differ in nothing but `KP` and `KQ` of the next state. -/
inductive AgreeOutsidePrimes : Out → Out → Prop
  | next {t t' : State} (h : t'.withPrimes none none = t.withPrimes none none) : AgreeOutsidePrimes (.next t) (.next t')
  | same (o : Out) : AgreeOutsidePrimes o o

theorem AgreeOutsidePrimes.of_next {t : State} {o : Out} (h : AgreeOutsidePrimes (.next t) o) :
    ∃ t', o = .next t' ∧ t'.withPrimes none none = t.withPrimes none none := by
  cases h with
  | next h => exact ⟨_, rfl, h⟩
  | same => exact ⟨t, rfl, rfl⟩

theorem AgreeOutsidePrimes.of_refused {r : Refusal} {o : Out} (h : AgreeOutsidePrimes (.refused r) o) :
    o = .refused r := by
  cases h; rfl

section

variable {s : State} {a b : Option Nat}

theorem succeed_withPrimes (r : Result) (s : State) (a b : Option Nat) :
    ((s.withPrimes a b).succeed r).withPrimes none none = (s.succeed r).withPrimes none none := by
  cases r <;> rfl

theorem errorEntry_withPrimes (i : Instr) (x : Err) (exp act : Nat) (s : State) (a b : Option Nat) :
    (errorEntry i x exp act (s.withPrimes a b)).withPrimes none none =
      (errorEntry i x exp act s).withPrimes none none := by
  cases i <;> rfl

theorem complete_agree (r : Result) : AgreeOutsidePrimes (complete r s) (complete r (s.withPrimes a b)) := by
  cases hf : r.fits s.params with
  | true =>
    rw [complete_of_fits hf, complete_of_fits (s := s.withPrimes a b) hf]
    exact .next (succeed_withPrimes r s a b)
  | false =>
    rw [complete_of_not_fits hf, complete_of_not_fits (s := s.withPrimes a b) hf]
    exact .same _

theorem fail_agree (i : Instr) (x : Err) (exp act : Nat) :
    AgreeOutsidePrimes (fail i x exp act s) (fail i x exp act (s.withPrimes a b)) := by
  unfold fail
  rw [show (s.withPrimes a b).params = s.params from rfl]
  split
  · exact .next (errorEntry_withPrimes i x exp act s a b)
  · exact .same _

theorem conclude_agree (i : Instr) (v : Except Stop Result) :
    AgreeOutsidePrimes (conclude i v s) (conclude i v (s.withPrimes a b)) := by
  match v with
  | .ok r => exact complete_agree r
  | .error (.raise x exp act) => exact fail_agree i x exp act

/-- Private progress writes `LATCH` alone. -/
theorem progress_agree (l : Latch) :
    AgreeOutsidePrimes (.next (s.progress l)) (.next ((s.withPrimes a b).progress l)) := .next rfl

/-- The engine's step reads the latch, the parameters and the randomness source, not the key registers. -/
theorem advance_agree (l : Latch) : AgreeOutsidePrimes (advance s l) (advance (s.withPrimes a b) l) := by
  have hrng (g : Rng) : (s.withPrimes a b).withRng g = (s.withRng g).withPrimes a b := rfl
  have hg : (s.withPrimes a b).rng = s.rng := rfl
  cases l with
  | mgf1 seed n => exact conclude_agree _ _
  | modinv x phi =>
    simp only [advance]
    split
    · exact complete_agree _
    · exact fail_agree ..
  | isprime n rounds => exact complete_agree (s := s.withRng _) _
  | genprime bits c =>
    cases c with
    | none => exact progress_agree (s := s.withRng _) _
    | some c =>
      simp only [advance, hrng, hg]
      split
      · exact complete_agree _
      · exact progress_agree _
  | genkey bits p c =>
    cases c with
    | none => cases p <;> exact progress_agree (s := s.withRng _) _
    | some c =>
      cases p with
      | none =>
        simp only [advance, hrng, hg]
        split <;> exact progress_agree _
      | some p =>
        simp only [advance, hrng, hg]
        split
        · exact conclude_agree _ _
        · exact progress_agree _
  | oaepEnc m label n x =>
    simp only [advance, hrng, hg]
    split
    · exact fail_agree ..
    · split
      · exact .same _
      · exact conclude_agree _ _
  | oaepDec c label n d =>
    simp only [advance]
    split
    · exact .same _
    · exact conclude_agree _ _
  | _ => exact complete_agree _

/-- What an issue latches or refuses: `KP` and `KQ` are no command's sources (R83). -/
theorem latchOf_withPrimes (i : Instr) :
    latchOf (s.withPrimes a b).params (s.withPrimes a b).engine i = latchOf s.params s.engine i := by
  cases i <;> rfl

theorem exec_agree (i : Instr) : AgreeOutsidePrimes (exec i s) (exec i (s.withPrimes a b)) := by
  cases hb : s.engine.busy with
  | false =>
    rw [exec_idle hb, exec_idle (s := s.withPrimes a b) hb, latchOf_withPrimes]
    cases latchOf s.params s.engine i with
    | ok l => exact .next rfl
    | error r => exact .same _
  | true =>
    cases hl : s.engine.latch with
    | none =>
      rw [exec_lost hb hl, exec_lost (s := s.withPrimes a b) hb hl]
      exact .same _
    | some l =>
      by_cases hi : l.instr = i
      · subst hi
        rw [exec_running ⟨hb, hl⟩, exec_running (s := s.withPrimes a b) ⟨hb, hl⟩]
        exact advance_agree l
      · rw [exec_running_other ⟨hb, hl⟩ hi, exec_running_other (s := s.withPrimes a b) ⟨hb, hl⟩ hi]
        exact .same _

end

/-- Settles O55: the two outcomes agree outside the two registers. -/
theorem noCommandReadsTheStoredPrimes : Obligations.NoCommandReadsTheStoredPrimes := by
  intro i s x y changed
  have h : AgreeOutsidePrimes (exec i s) (exec i (changed s x y)) := exec_agree i
  exact ⟨fun t ht => (ht ▸ h).of_next, fun r hr => (hr ▸ h).of_refused⟩

end Sys2Proof.Machine

/-! ## Reset, the index space and the `STATUS` word (O6, O11, O12) -/

namespace Sys2Proof.Machine

theorem ofIndex_eq_some_iff {i : BitVec 8} {r : Reg} : Reg.ofIndex i = some r ↔ i = r.index := by
  constructor
  · intro h
    have hr : (r.index == i) = true := List.find?_some (p := fun r : Reg => r.index == i) h
    exact (beq_iff_eq.1 hr).symm
  · rintro rfl
    exact ofIndex_index r

theorem mem_all (r : Reg) : r ∈ Reg.all := by cases r <;> decide

/-- A reserved index is none of the twenty-one of R21's table. -/
theorem ofIndex_eq_none_iff {i : BitVec 8} : Reg.ofIndex i = none ↔ i.toNat ∉ Reg.all.map (·.index.toNat) := by
  simp only [Reg.ofIndex, List.find?_eq_none, beq_iff_eq, List.mem_map, not_exists, not_and, BitVec.toNat_inj]

/-- Settles O6: both are read off the reset values. -/
theorem resetGivesEveryFieldItsResetValue : Obligations.ResetGivesEveryFieldItsResetValue := ⟨rfl, fun _ => rfl⟩

/-- Settles O11: an index names the register whose index it is, and the indices fill the five ranges. -/
theorem assignedIndicesNameOneRegister : Obligations.AssignedIndicesNameOneRegister := by
  constructor
  · intro i r
    rw [ofIndex_eq_some_iff]
    cases r <;> simp [Reg.index]
  · intro i
    rw [ofIndex_eq_none_iff]
    simp only [Reg.all, Reg.index, List.cons_append, List.nil_append, List.map_cons, List.map_nil, List.mem_cons,
      List.not_mem_nil, or_false, BitVec.reduceToNat]
    omega

/-- Every bit of the `STATUS` word, by the field it lies in (R24). -/
theorem statusWord_getLsbD (e : Engine) (j : Nat) :
    (statusWord e).getLsbD j =
      if j < 1 then e.busy else if j < 2 then e.prime else if j < 8 then false
      else if j < 16 then e.err.getLsbD (j - 8) else false := by
  change ((0 : BitVec 16) ++ e.err ++ (0 : BitVec 6) ++ BitVec.ofBool e.prime ++ BitVec.ofBool e.busy).getLsbD j = _
  have hprime : j - 1 < 1 ↔ j < 2 := by omega
  have hzero : j - 1 - 1 < 6 ↔ j < 8 := by omega
  have herr : j - 1 - 1 - 6 < 8 ↔ j < 16 := by omega
  simp only [BitVec.getLsbD_append, BitVec.getLsbD_ofBool, hprime, hzero, herr]
  split_ifs with h0 h1
  · simp [Nat.lt_one_iff.1 h0]
  · simp [Nat.lt_one_iff.1 (hprime.2 h1)]
  · exact BitVec.getLsbD_zero
  · rw [show j - 1 - 1 - 6 = j - 8 by omega]
  · exact BitVec.getLsbD_zero

/-- Settles O12: the fields' positions, from the layout of the word. -/
theorem statusWordHoldsItsFields : Obligations.StatusWordHoldsItsFields := by
  refine ⟨rfl, fun e => ⟨?busy, ?prime, fun j hj => ?err, fun j hj => ?zero⟩⟩ <;> rw [statusWord_getLsbD]
  case busy => rfl
  case prime => rfl
  case err =>
    rw [if_neg (by omega), if_neg (by omega), if_neg (by omega), if_pos (by omega), Nat.add_sub_cancel_left]
  case zero =>
    rw [if_neg (by omega), if_neg (by omega)]
    rcases hj with hj | hj
    · rw [if_pos (by omega)]
    · rw [if_neg (by omega), if_neg (by omega)]

end Sys2Proof.Machine

/-! ## The order of steps and the host's accesses (O4, O7, O8, O9, O10) -/

namespace Sys2Proof.Machine

/-! ### The engine's turn (R69) -/

theorem step_of_agenda_nil {s : State} (h : s.agenda = []) : step s = engineStep s := by
  simp only [step, nextStep, h]

theorem step_of_agenda_cons {s : State} {ev : Event} {rest : List Event} (h : s.agenda = ev :: rest) :
    step s = handleEvent ev { s with agenda := rest } := by
  simp only [step, nextStep, h]

theorem engineStep_running {s : State} {l : Latch} (h : s.Running l) : engineStep s = exec l.instr s := by
  obtain ⟨hb, hl⟩ := h
  simp only [engineStep, hb, hl, if_true]

theorem engineStep_idle {s : State} (hb : s.engine.busy = false) : engineStep s = .next s := by
  simp [engineStep, hb]

/-- Settles O4: a step with no event, or with the engine's turn as the event, is the engine's step. -/
theorem engineTurnAdvancesTheLatchedCommand : Obligations.EngineTurnAdvancesTheLatchedCommand := by
  constructor
  · intro s l hrun
    exact ⟨fun h => (step_of_agenda_nil h).trans (engineStep_running hrun),
      fun rest h => (step_of_agenda_cons h).trans (engineStep_running (s := { s with agenda := rest }) hrun)⟩
  · intro s hb
    exact ⟨fun h => (step_of_agenda_nil h).trans (engineStep_idle hb),
      fun rest h => (step_of_agenda_cons h).trans (engineStep_idle (s := { s with agenda := rest }) hb)⟩

/-! ### Each primitive, on a busy and on an idle engine (R60, R62) -/

theorem hostAccess_readStatus (s : State) :
    hostAccess .readStatus s = .next { s with reads := .word (statusWord s.engine) :: s.reads } := rfl

theorem hostAccess_busy {s : State} {a : HostAction} (hb : s.engine.busy = true) (ha : a ≠ .readStatus) :
    hostAccess a s = .refused .engineBusy := by
  cases a
  case readStatus => exact absurd rfl ha
  all_goals exact if_pos hb

section

variable {s : State} (hb : s.engine.busy = false)
include hb

theorem hostAccess_readInt (i : BitVec 8) : hostAccess (.readInt i) s = readOutcome s (hostReadInt i s.engine) := by
  simp [hostAccess, hb]

theorem hostAccess_readBuf (i : BitVec 8) : hostAccess (.readBuf i) s = readOutcome s (hostReadBuf i s.engine) := by
  simp [hostAccess, hb]

theorem hostAccess_writeInt (i : BitVec 8) (v : Int) :
    hostAccess (.writeInt i v) s = writeOutcome s (hostWriteInt s.params i v s.engine) := by
  simp [hostAccess, hb]

theorem hostAccess_writeBuf (i : BitVec 8) (x : Bytes) :
    hostAccess (.writeBuf i x) s = writeOutcome s (hostWriteBuf s.params i x s.engine) := by
  simp [hostAccess, hb]

end

/-- Settles O7: of the six primitives only the `STATUS` read does not look at `BUSY`. -/
theorem busyEngineAnswersOnlyTheStatusRead : Obligations.BusyEngineAnswersOnlyTheStatusRead := by
  intro s a hb
  refine ⟨fun ha => ⟨_, hostAccess_busy hb ha⟩, ?_⟩
  rintro rfl
  exact hostAccess_readStatus s

/-! ### The lists of R60 -/

theorem intReadable_iff {r : Reg} : r.intReadable = true ↔
    r ∈ [Reg.errinfoExp, .errinfoAct, .arg, .rounds, .kn, .ke, .kd, .kp, .kq, .opa, .opb, .opm, .res0, .res1, .res2] := by
  cases r <;> decide

theorem intWritable_iff {r : Reg} :
    r.intWritable = true ↔ r ∈ [Reg.arg, .rounds, .kn, .ke, .kd, .kp, .kq, .opa, .opb, .opm] := by
  cases r <;> decide

theorem bufReadable_iff {r : Reg} : r.bufReadable = true ↔ r ∈ [Reg.msg, .lbl, .out] := by
  cases r <;> decide

theorem bufWritable_iff {r : Reg} : r.bufWritable = true ↔ r ∈ [Reg.msg, .lbl] := by
  cases r <;> decide

/-- No two registers share an index (R21). -/
theorem index_injective : Function.Injective Reg.index := fun q r h =>
  Option.some.inj (by rw [← ofIndex_index q, h, ofIndex_index])

/-! ### When a read or a write of a register is answered, and with what (R60, R61, R22) -/

theorem lookupReg_ok_iff {i : BitVec 8} {r : Reg} : lookupReg i = .ok r ↔ r.index = i := by
  rw [eq_comm (a := r.index), ← ofIndex_eq_some_iff]
  unfold lookupReg
  cases Reg.ofIndex i <;> simp

theorem hostReadInt_ok_iff {i : BitVec 8} {e : Engine} {v : HostValue} :
    hostReadInt i e = .ok v ↔ ∃ r : Reg, r.index = i ∧ r.intReadable = true ∧ e.content r = some v := by
  simp only [hostReadInt, bind_ok_iff, lookupReg_ok_iff, require_ok_iff, need_ok_iff, exists_const, Reg.intReadable,
    Bool.and_eq_true]
  tauto

theorem hostReadBuf_ok_iff {i : BitVec 8} {e : Engine} {v : HostValue} :
    hostReadBuf i e = .ok v ↔ ∃ r : Reg, r.index = i ∧ r.bufReadable = true ∧ e.content r = some v := by
  simp only [hostReadBuf, bind_ok_iff, lookupReg_ok_iff, require_ok_iff, need_ok_iff, exists_const, Reg.bufReadable,
    Bool.and_eq_true]
  tauto

theorem hostWriteInt_ok_iff {p : Params} {i : BitVec 8} {v : Int} {e t : Engine} :
    hostWriteInt p i v e = .ok t ↔
      ∃ r : Reg, r.index = i ∧ r.intWritable = true ∧ 0 ≤ v ∧ fitsInt p v = true ∧ e.setInt r v.toNat = t := by
  simp only [hostWriteInt, bind_ok_iff, lookupReg_ok_iff, require_ok_iff, exists_const, decide_eq_true_eq, pure,
    Except.pure, Except.ok.injEq, Reg.intWritable, Bool.and_eq_true, Bool.or_eq_true]
  tauto

theorem hostWriteBuf_ok_iff {p : Params} {i : BitVec 8} {x : Bytes} {e t : Engine} :
    hostWriteBuf p i x e = .ok t ↔
      ∃ r : Reg, r.index = i ∧ r.bufWritable = true ∧ fitsBuf p x.length = true ∧ e.setBuf r x = t := by
  simp only [hostWriteBuf, bind_ok_iff, lookupReg_ok_iff, require_ok_iff, exists_const, pure,
    Except.pure, Except.ok.injEq, Reg.bufWritable, Bool.and_eq_true]
  tauto

/-! ### Reads that are answered -/

section

variable {s : State} (hb : s.engine.busy = false) {r : Reg} {v : HostValue}
include hb

theorem hostAccess_readInt_of_content (hr : r.intReadable = true) (hv : s.engine.content r = some v) :
    hostAccess (.readInt r.index) s = .next (s.record v) := by
  rw [hostAccess_readInt hb, hostReadInt_ok_iff.2 ⟨r, rfl, hr, hv⟩, readOutcome]

theorem hostAccess_readBuf_of_content (hr : r.bufReadable = true) (hv : s.engine.content r = some v) :
    hostAccess (.readBuf r.index) s = .next (s.record v) := by
  rw [hostAccess_readBuf hb, hostReadBuf_ok_iff.2 ⟨r, rfl, hr, hv⟩, readOutcome]

end

/-- Settles O8: R60's lists are the registers the two reads may name. -/
theorem hostReadsReturnTheContent : Obligations.HostReadsReturnTheContent := by
  intro s hb
  exact ⟨fun r hr v => hostAccess_readInt_of_content hb (intReadable_iff.2 hr),
    fun r hr v => hostAccess_readBuf_of_content hb (bufReadable_iff.2 hr), hostAccess_readStatus s⟩

/-! ### Writes -/

/-- What a register holds after an integer write: R60's list is the registers `setInt` changes. -/
theorem content_setInt_ite (e : Engine) (r q : Reg) (n : Nat) :
    (e.setInt r n).content q = if q = r ∧ r.intWritable = true then some (.int n) else e.content q := by
  cases r <;> cases q <;> rfl

theorem content_setBuf_ite (e : Engine) (r q : Reg) (x : Bytes) :
    (e.setBuf r x).content q = if q = r ∧ r.bufWritable = true then some (.bytes x) else e.content q := by
  cases r <;> cases q <;> rfl

theorem refuses_readOutcome {s : State} {x : Except Refusal HostValue} (h : ∀ v, x ≠ .ok v) :
    Refuses (readOutcome s x) := by
  cases x with
  | ok v => exact absurd rfl (h v)
  | error r => exact ⟨r, rfl⟩

theorem refuses_writeOutcome {s : State} {x : Except Refusal Engine} (h : ∀ e, x ≠ .ok e) :
    Refuses (writeOutcome s x) := by
  cases x with
  | ok e => exact absurd rfl (h e)
  | error r => exact ⟨r, rfl⟩

section

variable {s : State} (hb : s.engine.busy = false) {r : Reg}
include hb

theorem hostAccess_writeInt_of_fits {n : Nat} (hr : r.intWritable = true) (hn : fitsInt s.params n = true) :
    hostAccess (.writeInt r.index n) s = .next { s with engine := s.engine.setInt r n } := by
  rw [hostAccess_writeInt hb, hostWriteInt_ok_iff.2 ⟨r, rfl, hr, Int.natCast_nonneg n, hn, rfl⟩, writeOutcome,
    Int.toNat_natCast]

theorem hostAccess_writeBuf_of_fits {x : Bytes} (hr : r.bufWritable = true) (hx : fitsBuf s.params x.length = true) :
    hostAccess (.writeBuf r.index x) s = .next { s with engine := s.engine.setBuf r x } := by
  rw [hostAccess_writeBuf hb, hostWriteBuf_ok_iff.2 ⟨r, rfl, hr, hx, rfl⟩, writeOutcome]

theorem refuses_writeInt_of_not_fits {i : BitVec 8} {v : Int} (hv : fitsInt s.params v = false) :
    Refuses (hostAccess (.writeInt i v) s) := by
  rw [hostAccess_writeInt hb]
  refine refuses_writeOutcome fun e he => ?_
  obtain ⟨r, -, -, -, hfit, -⟩ := hostWriteInt_ok_iff.1 he
  exact Bool.false_ne_true (hv.symm.trans hfit)

theorem refuses_writeBuf_of_not_fits {i : BitVec 8} {x : Bytes} (hx : fitsBuf s.params x.length = false) :
    Refuses (hostAccess (.writeBuf i x) s) := by
  rw [hostAccess_writeBuf hb]
  refine refuses_writeOutcome fun e he => ?_
  obtain ⟨r, -, -, hfit, -⟩ := hostWriteBuf_ok_iff.1 he
  exact Bool.false_ne_true (hx.symm.trans hfit)

end

/-- Settles O9: R60's lists are the registers the two writes may name, and each writes that register alone. -/
theorem hostWritesSetOneRegister : Obligations.HostWritesSetOneRegister := by
  intro s hb
  constructor
  · intro r hr n
    have hw : r.intWritable = true := intWritable_iff.2 hr
    obtain ⟨-, -, hlatch, -⟩ := setInt_frame s.engine r n
    refine ⟨fun hn => ⟨_, hostAccess_writeInt_of_fits hb hw hn, ?_, hlatch, fun q hq => ?_⟩,
      refuses_writeInt_of_not_fits hb⟩
    · rw [content_setInt_ite, if_pos ⟨rfl, hw⟩]
    · rw [content_setInt_ite, if_neg fun h => hq h.1]
  · intro r hr x
    have hw : r.bufWritable = true := bufWritable_iff.2 hr
    obtain ⟨-, -, hlatch, -⟩ := setBuf_frame s.engine r x
    refine ⟨fun hx => ⟨_, hostAccess_writeBuf_of_fits hb hw hx, ?_, hlatch, fun q hq => ?_⟩,
      refuses_writeBuf_of_not_fits hb⟩
    · rw [content_setBuf_ite, if_pos ⟨rfl, hw⟩]
    · rw [content_setBuf_ite, if_neg fun h => hq h.1]

/-! ### Accesses outside their lists (R61) -/

section

variable (r : Reg)

theorem wf_readInt_index : (HostAction.readInt r.index).wf = r.intReadable := by
  simp [HostAction.wf, ofIndex_index]

theorem wf_readBuf_index : (HostAction.readBuf r.index).wf = r.bufReadable := by
  simp [HostAction.wf, ofIndex_index]

theorem wf_writeInt_index (v : Int) : (HostAction.writeInt r.index v).wf = (r.intWritable && decide (0 ≤ v)) := by
  simp [HostAction.wf, ofIndex_index]

theorem wf_writeBuf_index (x : Bytes) : (HostAction.writeBuf r.index x).wf = r.bufWritable := by
  simp [HostAction.wf, ofIndex_index]

end

section

variable {s : State} (hb : s.engine.busy = false)
include hb

/-- A primitive that is answered names a register of its list, and an integer write a natural. -/
theorem refuses_of_not_wf {a : HostAction} (ha : a.wf = false) : Refuses (hostAccess a s) := by
  cases a with
  | readStatus => cases ha
  | writeCmd w => cases ha
  | readInt i =>
    rw [hostAccess_readInt hb]
    refine refuses_readOutcome fun v hv => ?_
    obtain ⟨r, rfl, hr, -⟩ := hostReadInt_ok_iff.1 hv
    simp [wf_readInt_index, hr] at ha
  | readBuf i =>
    rw [hostAccess_readBuf hb]
    refine refuses_readOutcome fun v hv => ?_
    obtain ⟨r, rfl, hr, -⟩ := hostReadBuf_ok_iff.1 hv
    simp [wf_readBuf_index, hr] at ha
  | writeInt i v =>
    rw [hostAccess_writeInt hb]
    refine refuses_writeOutcome fun e he => ?_
    obtain ⟨r, rfl, hr, hv, -⟩ := hostWriteInt_ok_iff.1 he
    simp [wf_writeInt_index, hr, hv] at ha
  | writeBuf i x =>
    rw [hostAccess_writeBuf hb]
    refine refuses_writeOutcome fun e he => ?_
    obtain ⟨r, rfl, hr, -⟩ := hostWriteBuf_ok_iff.1 he
    simp [wf_writeBuf_index, hr] at ha

theorem refuses_readInt_of_no_value {r : Reg} (h : s.engine.content r = none) :
    Refuses (hostAccess (.readInt r.index) s) := by
  rw [hostAccess_readInt hb]
  refine refuses_readOutcome fun v hv => ?_
  obtain ⟨q, hq, -, hc⟩ := hostReadInt_ok_iff.1 hv
  rw [index_injective hq, h] at hc
  cases hc

theorem refuses_readBuf_of_no_value {r : Reg} (h : s.engine.content r = none) :
    Refuses (hostAccess (.readBuf r.index) s) := by
  rw [hostAccess_readBuf hb]
  refine refuses_readOutcome fun v hv => ?_
  obtain ⟨q, hq, -, hc⟩ := hostReadBuf_ok_iff.1 hv
  rw [index_injective hq, h] at hc
  cases hc

end

/-- Settles O10: each clause names primitives outside their list, but the last, whose register holds ⊥. -/
theorem hostAccessOutsideItsListIsRefused : Obligations.HostAccessOutsideItsListIsRefused := by
  intro s hb v x
  have outside {a : HostAction} (ha : a.wf = false) : Refuses (hostAccess a s) := refuses_of_not_wf hb ha
  refine ⟨fun r hr => ?readOnly, ⟨outside rfl, outside rfl⟩, outside rfl, outside rfl, fun i hi => ?unnamed,
    fun r hr => ?buffer, fun r hr => ?notBuffer, fun hv i => ?negative, fun r hr => ?noValue⟩
  case readOnly =>
    have hw : r.intWritable = false ∧ r.bufWritable = false := by revert r; decide
    exact ⟨outside (by rw [wf_writeInt_index, hw.1, Bool.false_and]), outside (by rw [wf_writeBuf_index, hw.2])⟩
  case unnamed =>
    rcases hi with rfl | hi
    · exact ⟨outside rfl, outside rfl, outside rfl, outside rfl⟩
    · refine ⟨outside ?_, outside ?_, outside ?_, outside ?_⟩ <;> simp [HostAction.wf, hi]
  case buffer =>
    have hint : r.intWritable = false ∧ r.intReadable = false := by revert r; decide
    exact ⟨outside (by rw [wf_writeInt_index, hint.1, Bool.false_and]), outside (by rw [wf_readInt_index, hint.2])⟩
  case notBuffer =>
    have hlist : [Reg.msg, .lbl] ⊆ [Reg.msg, .lbl, .out] := by decide
    have hread : r.bufReadable = false := Bool.eq_false_iff.2 fun h => hr (bufReadable_iff.1 h)
    have hwrite : r.bufWritable = false := Bool.eq_false_iff.2 fun h => hr (hlist (bufWritable_iff.1 h))
    exact ⟨outside (by rw [wf_writeBuf_index, hwrite]), outside (by rw [wf_readBuf_index, hread])⟩
  case negative => exact outside (by simp [HostAction.wf, hv])
  case noValue => exact ⟨refuses_readInt_of_no_value hb hr, refuses_readBuf_of_no_value hb hr⟩

end Sys2Proof.Machine

/-! ## The command words (O1, O2, O5) -/

namespace Sys2Proof.Machine

/-- A word is its two fields (R80). -/
theorem zeroField_append_opcodeField (w : Word) : zeroField w ++ opcodeField w = w :=
  (BitVec.extractLsb'_append_extractLsb'_eq_extractLsb' (start₂ := 8) (start₁ := 0) rfl).trans BitVec.extractLsb'_eq_self

theorem decode_encode (i : Instr) : decode (encode i) = .ok i := by cases i <;> rfl

/-- The word of each row of R82 is its opcode under zeros. -/
theorem encode_of_mem_opcodeMap {row : BitVec 8 × Instr} (h : row ∈ opcodeMap) :
    encode row.2 = (0 : BitVec 24) ++ row.1 := by
  revert row
  decide

/-- The row the decoder finds is a row of R82 with the opcode looked up. -/
theorem mem_opcodeMap_of_find {op : BitVec 8} {row : BitVec 8 × Instr}
    (h : opcodeMap.find? (fun row => row.1 == op) = some row) : row ∈ opcodeMap ∧ row.1 = op :=
  ⟨List.mem_of_find?_eq_some h, beq_iff_eq.1 (List.find?_some (p := fun row : BitVec 8 × Instr => row.1 == op) h)⟩

/-- A command is selected by its match word alone (R81, R82). -/
theorem decode_eq_ok_iff {w : Word} {i : Instr} : decode w = .ok i ↔ w = encode i := by
  constructor
  · intro h
    unfold decode at h
    split at h
    next => cases h
    next hzero =>
      split at h
      next row hrow =>
        cases h
        obtain ⟨hmem, hop⟩ := mem_opcodeMap_of_find hrow
        rw [encode_of_mem_opcodeMap hmem, hop, ← not_not.1 hzero, zeroField_append_opcodeField]
      next => cases h
  · rintro rfl
    exact decode_encode i

theorem decode_eq_error_iff {w : Word} : (∃ r, decode w = .error r) ↔ ¬ ∃ i, w = encode i := by
  simp only [← decode_eq_ok_iff]
  cases decode w <;> simp

/-- As numbers, the match words are the opcodes of R82. -/
theorem exists_eq_encode_iff {w : Word} : (∃ i, w = encode i) ↔ w.toNat ∈ opcodeMap.map (·.1.toNat) := by
  constructor
  · rintro ⟨i, rfl⟩
    cases i <;> decide
  · intro h
    obtain ⟨row, hrow, hw⟩ := List.mem_map.1 h
    refine ⟨row.2, BitVec.eq_of_toNat_eq ?_⟩
    rw [encode_of_mem_opcodeMap hrow, ← hw, BitVec.toNat_append]
    simp

/-- Settles O1: a word decodes to a command exactly when it is the word the encoder writes for it. -/
theorem onlyTheMatchWordSelectsTheCommand : Obligations.OnlyTheMatchWordSelectsTheCommand := by
  refine ⟨fun w i => ?_, fun i _ => decode_encode i⟩
  rw [decode_eq_ok_iff]
  cases i <;> simp [encode]

/-- Settles O2: each of the twelve words is decoded by computation. -/
theorem writtenOutWordsDecode : Obligations.WrittenOutWordsDecode :=
  ⟨rfl, rfl, rfl, rfl, rfl, rfl, rfl, rfl, rfl, ⟨_, rfl⟩, ⟨_, rfl⟩, ⟨_, rfl⟩⟩

theorem hostAccess_writeCmd {s : State} (hb : s.engine.busy = false) (w : Word) :
    hostAccess (.writeCmd w) s = writeCommand w s := by
  simp [hostAccess, hb]

theorem writeCommand_of_ok {w : Word} {i : Instr} {s : State} (h : decode w = .ok i) :
    writeCommand w s = exec i s.takeAnswers := by
  simp only [writeCommand, h]

theorem writeCommand_of_error {w : Word} {r : IllegalWord} {s : State} (h : decode w = .error r) :
    writeCommand w s = .next (illegalCommand s) := by
  simp only [writeCommand, h]

/-- Settles O5: R86's ranges are the gaps between the opcodes of R82. -/
theorem illegalWordsOnlyReportIllegalCommand : Obligations.IllegalWordsOnlyReportIllegalCommand := by
  intro w listed
  have hlisted : (∃ r, decode w = .error r) ↔ listed := by
    have hlt : w.toNat < 2 ^ 32 := w.isLt
    rw [decode_eq_error_iff, exists_eq_encode_iff]
    simp only [listed, opcodeMap, List.cons_append, List.nil_append, List.map_cons, List.map_nil, List.mem_cons,
      List.not_mem_nil, or_false, BitVec.reduceToNat]
    omega
  refine ⟨hlisted, fun s hb hw => ?_⟩
  obtain ⟨r, hr⟩ := hlisted.2 hw
  rw [hostAccess_writeCmd hb, writeCommand_of_error hr]
  rfl

end Sys2Proof.Machine

/-! ## The issue (O3, O13, O14) -/

namespace Sys2Proof.Machine

/-- The host's write of a command's word is the meaning of the command, with the answers fixed for it (R85, R89). -/
theorem hostAccess_writeCmd_of_ok {s : State} {w : Word} {i : Instr} (hb : s.engine.busy = false)
    (h : decode w = .ok i) : hostAccess (.writeCmd w) s = exec i s.takeAnswers :=
  (hostAccess_writeCmd hb w).trans (writeCommand_of_ok h)

theorem step_writeCmd {s : State} {w : Word} {i : Instr} {rest : List Event} (hb : s.engine.busy = false)
    (hag : s.agenda = .host (.writeCmd w) :: rest) (h : decode w = .ok i) :
    step s = exec i ({ s with agenda := rest } : State).takeAnswers :=
  (step_of_agenda_cons hag).trans (hostAccess_writeCmd_of_ok (s := { s with agenda := rest }) hb h)

theorem decode_of_decodeTableWord {nbits w : Nat} {i : Instr} (h : decodeTableWord nbits w = some i) :
    decode (tableWord nbits w) = .ok i := by
  unfold decodeTableWord at h
  split at h
  · cases hd : decode (tableWord nbits w) with
    | ok j => simpa [hd, Except.toOption] using h
    | error r => simp [hd, Except.toOption] at h
  · cases h

/-- Settles O3: `withFetchWord` places the word's write at the head of the agenda, where the step takes it off again. -/
theorem commandWriteRunsTheDecodedCommand : Obligations.CommandWriteRunsTheDecodedCommand := by
  refine ⟨fun s w i rest hb hag hw => step_writeCmd hb hag hw, fun s nbits w i hb hw => ?_,
    fun s xs rest hag => step_of_agenda_cons hag⟩
  exact step_writeCmd (s := s.withFetchWord nbits w) hb rfl (decode_of_decodeTableWord hw)

/-- An accepted issue latches the command (R85). -/
theorem exec_idle_next {i : Instr} {s t : State} (hb : s.engine.busy = false) (h : exec i s = .next t) :
    ∃ l, latchOf s.params s.engine i = .ok l ∧ t = s.accept l := by
  rwa [exec_idle hb, issue_next_iff] at h

/-- Settles O13: an accepted issue is `State.accept` of the latch. -/
theorem issueChangesOnlyLatchAndBusy : Obligations.IssueChangesOnlyLatchAndBusy := by
  intro i s t hb h
  obtain ⟨l, hl, rfl⟩ := exec_idle_next hb h
  obtain ⟨hi, -, -⟩ := latchOf_spec hl
  exact ⟨l, hi, rfl⟩

/-- A latch holds the content of every source register of its command (R83). -/
theorem content_ne_none_of_sourcesHeld {l : Latch} {e : Engine} (hheld : l.sourcesHeld e) :
    ∀ r ∈ sources l.instr, e.content r ≠ none := by
  cases l <;> simp_all [Latch.instr, sources, Latch.sourcesHeld, Engine.content]

/-- Settles O14: an accepted command would have latched a value of the register. -/
theorem sourceWithoutValueIsRefused : Obligations.SourceWithoutValueIsRefused := by
  intro i s r hb hr hnone
  refine refuses_issue hb fun l hl => ?_
  obtain ⟨rfl, hheld, -⟩ := latchOf_spec hl
  exact content_ne_none_of_sourcesHeld hheld r hr hnone

end Sys2Proof.Machine

/-! ## The frame of every command (O51) -/

namespace Sys2Proof.Machine

/-- What is outside the engine is the same in both states, but for the randomness source. -/
structure SameOutside (s t : State) : Prop where
  params : t.params = s.params
  agenda : t.agenda = s.agenda
  reads : t.reads = s.reads
  nextAnswers : t.nextAnswers = s.nextAnswers

theorem Advances.sameOutside {s t : State} {l : Latch} (h : Advances s l t) : SameOutside s t := by
  cases h <;> exact ⟨rfl, rfl, rfl, rfl⟩

theorem exec_sameOutside {i : Instr} {s t : State} (h : exec i s = .next t) : SameOutside s t := by
  rcases exec_next h with ⟨-, l, -, rfl⟩ | ⟨l, -, -, ha⟩
  · exact ⟨rfl, rfl, rfl, rfl⟩
  · exact ha.sameOutside

/-- The draws of R83 are made by the commands that have them. -/
theorem Advances.rng_eq {s t : State} {l : Latch} (h : Advances s l t) (hl : l.instr ∉ draws) : t.rng = s.rng := by
  cases h with
  | success r g _ _ hg => exact hg hl
  | failure x exp act g _ _ hg => exact hg hl
  | progress l' g _ hi _ _ => exact absurd (by rcases hi with hi | hi <;> simp [hi, draws]) hl

theorem exec_rng_eq {i : Instr} {s t : State} (h : exec i s = .next t) (hi : i ∉ draws) : t.rng = s.rng := by
  rcases exec_next h with ⟨-, l, -, rfl⟩ | ⟨l, -, rfl, ha⟩
  · rfl
  · exact ha.rng_eq hi

theorem content_accept {s : State} {l : Latch} {q : Reg} (hs : q ≠ .status) :
    (s.accept l).engine.content q = s.engine.content q := content_relatch hs

theorem content_progress {s : State} {l : Latch} {q : Reg} (hs : q ≠ .status) :
    (s.progress l).engine.content q = s.engine.content q := content_relatch hs

/-- A step of the operation writes the destinations, the status and the context registers only (R87, R255). -/
theorem Advances.content_eq {s t : State} {l : Latch} {q : Reg} (h : Advances s l t) (hd : q ∉ destinations l.instr)
    (hs : q ≠ .status) (h1 : q ≠ .errinfoExp) (h2 : q ≠ .errinfoAct) :
    t.engine.content q = s.engine.content q := by
  cases h with
  | success r g hr _ _ => exact (content_finish hs h1 h2).trans (content_write (hr ▸ hd) hs)
  | failure x exp act g _ _ _ => exact (content_finish hs h1 h2).trans (content_clear_foldl hd hs)
  | progress l' g _ _ _ _ => exact content_progress (s := s.withRng g) hs

theorem exec_content_eq {i : Instr} {s t : State} {q : Reg} (h : exec i s = .next t) (hd : q ∉ destinations i)
    (hs : q ≠ .status) (h1 : q ≠ .errinfoExp) (h2 : q ≠ .errinfoAct) :
    t.engine.content q = s.engine.content q := by
  rcases exec_next h with ⟨-, l, -, rfl⟩ | ⟨l, -, rfl, ha⟩
  · exact content_accept hs
  · exact ha.content_eq hd hs h1 h2

theorem exec_prime_eq {i : Instr} {s t : State} (h : exec i s = .next t) (hi : i ≠ .isprime) :
    t.engine.prime = s.engine.prime := by
  rcases exec_next h with ⟨-, l, -, rfl⟩ | ⟨l, -, rfl, ha⟩
  · rfl
  · by_contra hne
    obtain ⟨n, rounds, rfl⟩ := destinations_eq_status ((advances_prime_hacc ha).1 hne)
    exact hi rfl

/-- Settles O51: field by field, from what an issue and a step of the operation can do. -/
theorem commandsWriteOnlyTheirDestinations : Obligations.CommandsWriteOnlyTheirDestinations := by
  intro i s t h
  obtain ⟨hp, ha, hr, hn⟩ := exec_sameOutside h
  exact ⟨fun r hd hs h1 h2 => exec_content_eq h hd hs h1 h2, exec_prime_eq h, hp, ha, hr, hn, exec_rng_eq h⟩

end Sys2Proof.Machine

/-! ## RUN of a terminating command (O57) -/

namespace Sys2Proof.Machine

/-! ### Completion, with no bounds set -/

section

variable {s : State} (hi : s.params.maxIntBits = none) (hb : s.params.maxBufBytes = none)
include hi

theorem fail_of_unbounded (i : Instr) (x : Err) (exp act : Nat) : ∃ t, fail i x exp act s = .next t :=
  ⟨_, fail_of_fits (by simp [fitsInt, hi]) (by simp [fitsInt, hi])⟩

include hb

theorem complete_of_unbounded (r : Result) : ∃ t, complete r s = .next t :=
  ⟨_, complete_of_fits (by cases r <;> simp [Result.fits, fitsInt, fitsBuf, hi, hb])⟩

theorem conclude_of_unbounded (i : Instr) (v : Except Stop Result) : ∃ t, conclude i v s = .next t := by
  match v with
  | .ok r => exact complete_of_unbounded hi hb r
  | .error (.raise x exp act) => exact fail_of_unbounded hi i x exp act

/-- With no bound and a modulus within R109, no step of an operation is refused. -/
theorem advance_of_unbounded {l : Latch}
    (hk : ∀ m lbl n x, l = .oaepEnc m lbl n x ∨ l = .oaepDec m lbl n x → byteLen n < 2 ^ 61 + 29) :
    ∃ t, advance s l = .next t := by
  cases l with
  | mgf1 seed n => exact conclude_of_unbounded hi hb _ _
  | modinv x phi =>
    simp only [advance]
    split
    · exact complete_of_unbounded hi hb _
    · exact fail_of_unbounded hi ..
  | isprime n rounds => exact complete_of_unbounded (by exact hi) (by exact hb) _
  | genprime bits c =>
    cases c with
    | none => exact ⟨_, rfl⟩
    | some c =>
      simp only [advance]
      split
      · exact complete_of_unbounded (by exact hi) (by exact hb) _
      · exact ⟨_, rfl⟩
  | genkey bits p c =>
    cases c with
    | none => cases p <;> exact ⟨_, rfl⟩
    | some c =>
      cases p with
      | none =>
        simp only [advance]
        split <;> exact ⟨_, rfl⟩
      | some p =>
        simp only [advance]
        split
        · exact conclude_of_unbounded (by exact hi) (by exact hb) _ _
        · exact ⟨_, rfl⟩
  | oaepEnc m lbl n x =>
    simp only [advance, maskedBlockTooLong_false (hk m lbl n x (.inl rfl))]
    split
    · exact fail_of_unbounded hi ..
    · exact conclude_of_unbounded (by exact hi) (by exact hb) _ _
  | oaepDec c lbl n d =>
    simp only [advance, maskedBlockTooLong_false (hk c lbl n d (.inr rfl)), Bool.and_false]
    exact conclude_of_unbounded hi hb _ _
  | _ => exact complete_of_unbounded hi hb _

end

/-- A step of a command that always terminates is its completion (R88). -/
theorem Advances.ends {s t : State} {l : Latch} (h : Advances s l t) (hp : l.instr ≠ .genprime)
    (hk : l.instr ≠ .genkey) : t.engine.busy = false ∧ t.engine.latch = none := by
  cases h with
  | success r g _ _ _ => exact ⟨rfl, rfl⟩
  | failure x exp act g _ _ _ => exact ⟨rfl, rfl⟩
  | progress l' g _ hi _ _ => exact (hi.elim hp hk).elim

/-- A terminating command completes in one step of the engine, when no result can be refused (R289). -/
theorem exec_completes {s : State} {l : Latch} (hrun : s.Running l) (hi : s.params.maxIntBits = none)
    (hb : s.params.maxBufBytes = none) (hp : l.instr ≠ .genprime) (hg : l.instr ≠ .genkey)
    (hk : ∀ m lbl n x, l = .oaepEnc m lbl n x ∨ l = .oaepDec m lbl n x → byteLen n < 2 ^ 61 + 29) :
    ∃ t, exec l.instr s = .next t ∧ t.engine.busy = false ∧ t.engine.latch = none := by
  obtain ⟨t, ht⟩ := advance_of_unbounded hi hb hk
  exact ⟨t, (exec_running hrun).trans ht, (advances_of_next ht).ends hp hg⟩

/-- The modulus of a latched codec command is that of `KN`. -/
theorem kn_of_sourcesHeld {l : Latch} {e : Engine} {m lbl : Bytes} {n x : Nat} (hheld : l.sourcesHeld e)
    (hl : l = .oaepEnc m lbl n x ∨ l = .oaepDec m lbl n x) : e.kn = some n := by
  rcases hl with rfl | rfl
  · obtain ⟨-, -, hn, -⟩ := hheld
    exact hn
  · obtain ⟨-, -, hn, -⟩ := hheld
    exact hn

/-! ### The steps of `RUN` (R90) -/

theorem steps_succ_of_next {k : Nat} {s t : State} (h : step s = .next t) : steps (k + 1) s = steps k t := by
  simp only [steps, h]

@[simp] theorem statusBusy_statusWord (e : Engine) : statusBusy (statusWord e) = e.busy := statusWord_getLsbD e 0

/-- The accepted write of the word: the command is latched, and what is next is the rest of the agenda. -/
theorem step_cmd_of_accepted {s : State} {i : Instr} {l : Latch} {rest : List Event} (hb : s.engine.busy = false)
    (hag : s.agenda = Script.cmd i :: rest) (hl : latchOf s.params s.engine i = .ok l) :
    ∃ v : State, step s = .next v ∧ v.Running l ∧ v.agenda = rest ∧ v.params = s.params ∧ v.reads = s.reads := by
  refine ⟨({ s with agenda := rest } : State).takeAnswers.accept l, ?_, ⟨rfl, rfl⟩, rfl, rfl, rfl⟩
  rw [step_writeCmd hb hag (decode_encode i), exec_idle (by exact hb), takeAnswers_params, takeAnswers_engine, hl, issue]

/-- A poll that shows `BUSY` = 1: the engine takes a step before the next one (log entry 16). -/
theorem step_wait_busy {s : State} {rest : List Event} (hb : s.engine.busy = true) (hag : s.agenda = .wait :: rest) :
    step s = .next { s with
      agenda := .engine :: .wait :: rest, reads := .word (statusWord s.engine) :: s.reads } := by
  rw [step_of_agenda_cons hag, handleEvent, hostWait, statusBusy_statusWord, if_pos hb]
  rfl

/-- A poll that shows `BUSY` = 0 is the last. -/
theorem step_wait_idle {s : State} {rest : List Event} (hb : s.engine.busy = false) (hag : s.agenda = .wait :: rest) :
    step s = .next { s with agenda := rest, reads := .word (statusWord s.engine) :: s.reads } := by
  rw [step_of_agenda_cons hag, handleEvent, hostWait, statusBusy_statusWord, if_neg (by simp [hb])]
  rfl

theorem step_engine_running {s : State} {l : Latch} {rest : List Event} (h : s.Running l)
    (hag : s.agenda = .engine :: rest) : step s = exec l.instr { s with agenda := rest } :=
  (step_of_agenda_cons hag).trans (engineStep_running (s := { s with agenda := rest }) h)

/-- A `WAIT` on a command whose next step completes it: a poll, the step, and a poll. -/
theorem wait_completes {s : State} {l : Latch} {rest : List Event} (hrun : s.Running l)
    (hag : s.agenda = .wait :: rest)
    (hend : ∀ u : State, u.engine = s.engine → u.params = s.params →
      ∃ t, exec l.instr u = .next t ∧ t.engine.busy = false ∧ t.engine.latch = none) :
    ∃ t : State, steps 3 s = .next t ∧ t.agenda = rest ∧ t.engine.busy = false ∧ t.engine.latch = none ∧
      t.reads = .word (statusWord t.engine) :: .word (statusWord s.engine) :: s.reads := by
  obtain ⟨t, hexec, hbusy, hlatch⟩ :=
    hend { s with agenda := .wait :: rest, reads := .word (statusWord s.engine) :: s.reads } rfl rfl
  have hout := exec_sameOutside hexec
  have ⟨hbusys, _⟩ := hrun
  refine ⟨{ t with agenda := rest, reads := .word (statusWord t.engine) :: t.reads }, ?_, rfl, hbusy, hlatch, ?_⟩
  · rw [steps_succ_of_next (step_wait_busy hbusys hag),
      steps_succ_of_next ((step_engine_running (by exact hrun) rfl).trans hexec),
      steps_succ_of_next (step_wait_idle hbusy hout.agenda), steps]
  · rw [hout.reads]

/-- Settles O57: the issue latches the command, and the `WAIT` gives the engine the one step it needs. -/
theorem runOfATerminatingCommandEndsIdle : Obligations.RunOfATerminatingCommandEndsIdle := by
  intro i s u rest _ hb hp hg hint hbuf hkn hag hu
  obtain ⟨l, hl, -⟩ := exec_idle_next hb hu
  obtain ⟨rfl, hheld, -⟩ := latchOf_spec hl
  have hlen m lbl n x (h : l = .oaepEnc m lbl n x ∨ l = .oaepDec m lbl n x) : byteLen n < 2 ^ 61 + 29 :=
    hkn n (kn_of_sourcesHeld hheld h)
  obtain ⟨v, hstep, hrun, hagv, hpar, hreadsv⟩ := step_cmd_of_accepted hb hag hl
  have hend (x : State) (hengine : x.engine = v.engine) (hparams : x.params = v.params) :
      ∃ t, exec l.instr x = .next t ∧ t.engine.busy = false ∧ t.engine.latch = none :=
    exec_completes (by rwa [State.Running, hengine]) (by rwa [hparams, hpar]) (by rwa [hparams, hpar]) hp hg hlen
  obtain ⟨t, hsteps, hagenda, hbusy, hlatch, hreads⟩ := wait_completes hrun hagv hend
  obtain ⟨hbusyv, -⟩ := hrun
  exact ⟨t, statusWord v.engine, (steps_succ_of_next hstep).trans hsteps, hagenda, hbusy, hlatch, hreadsv ▸ hreads,
    (statusBusy_statusWord _).trans hbusyv, (statusBusy_statusWord _).trans hbusy⟩

end Sys2Proof.Machine

/-! ## The commands of the hash engine (O15 to O19) -/

namespace Sys2Proof.Machine

/-! ### Issue and completion of a command with one check -/

/-- An issue that latches when its check holds and refuses when it fails. -/
theorem exec_idle_of_check {s : State} {i : Instr} {l : Latch} {r : Refusal} {c : Prop} [Decidable c]
    (hb : s.engine.busy = false) (hl : latchOf s.params s.engine i = if c then .ok l else .error r) :
    (¬ c → Refuses (exec i s)) ∧ (c → exec i s = .next (s.accept l)) := by
  rw [exec_idle hb, hl]
  exact ⟨fun h => ⟨r, by rw [if_neg h, issue]⟩, fun h => by rw [if_pos h, issue]⟩

/-- The engine's step of an operation that completes with a result that fits. -/
theorem exec_running_of_fits {s : State} {l : Latch} {r : Result} (hrun : s.Running l)
    (ha : advance s l = complete r s) (hfit : r.fits s.params = true) : exec l.instr s = .next (s.succeed r) := by
  rw [exec_running hrun, ha, complete_of_fits hfit]

theorem fits_out_sha256 {p : Params} (h : fitsBuf p 32 = true) (m : Bytes) :
    (Result.out (sha256 m)).fits p = true := by
  rwa [Result.fits, sha256_length]

/-! ### The check of each issue -/

theorem require_bind {α : Type} (c : Prop) [Decidable c] (r : Refusal) (x : Except Refusal α) :
    (require (decide c) r >>= fun _ => x) = if c then x else .error r := by
  by_cases h : c <;> simp [h, bind, Except.bind]

theorem latchHash_of_msg {e : Engine} {m : Bytes} (h : e.msg = some m) :
    latchHash e = if m.length < 2 ^ 61 then .ok (.hash m) else .error .hashInputTooLong := by
  rw [latchHash, h]
  exact require_bind ..

theorem latchHUpdate_of_msg {p : Params} {e : Engine} {m : Bytes} (h : e.msg = some m) :
    latchHUpdate p e = if fitsBuf p (e.hacc.length + m.length) = true then .ok (.hUpdate m e.hacc)
      else .error .resultTooLarge := by
  rw [latchHUpdate, h, ← require_bind, Bool.decide_eq_true]
  rfl

theorem latchHDigest_eq (e : Engine) :
    latchHDigest e = if e.hacc.length < 2 ^ 61 then .ok (.hDigest e.hacc) else .error .hashInputTooLong :=
  require_bind ..

theorem latchHHexdigest_eq (e : Engine) :
    latchHHexdigest e = if e.hacc.length < 2 ^ 61 then .ok (.hHexdigest e.hacc) else .error .hashInputTooLong :=
  require_bind ..

/-- A command that reads `MSG` is refused while `MSG` is ⊥ (R84). -/
theorem refuses_of_msg_none {s : State} {i : Instr} (hb : s.engine.busy = false) (hi : Reg.msg ∈ sources i)
    (hm : s.engine.msg = none) : Refuses (exec i s) :=
  sourceWithoutValueIsRefused i s .msg hb hi (by rw [Engine.content, hm, Option.map_none])

/-! ### The commands -/

/-- Settles O15: the one check of R110, and a digest of 32 bytes as the result. -/
theorem hashWritesTheDigestOfMsg : Obligations.HashWritesTheDigestOfMsg := by
  refine ⟨rfl, fun s => ⟨fun hb => ⟨refuses_of_msg_none hb (by decide), fun m hm => ?issue⟩,
    fun m hrun => ?completion⟩⟩
  case issue =>
    obtain ⟨hrefuses, haccepts⟩ := exec_idle_of_check (i := .hash) hb (latchHash_of_msg hm)
    exact ⟨fun hlen => hrefuses hlen.not_gt, haccepts⟩
  case completion =>
    exact ⟨sha256_length m, fun hfit => exec_running_of_fits hrun rfl (fits_out_sha256 hfit m)⟩

/-- Settles O16: no check at the issue, and an empty result, which fits every bound. -/
theorem hInitEmptiesTheAccumulator : Obligations.HInitEmptiesTheAccumulator :=
  ⟨rfl, fun _ => ⟨fun hb => exec_idle hb, fun hrun => exec_running_of_fits hrun rfl (fitsBuf_zero _)⟩⟩

/-- Settles O17: the check of R112 at the issue is that the result fits. -/
theorem hUpdateAppendsMsg : Obligations.HUpdateAppendsMsg := by
  refine ⟨rfl, fun s => ⟨fun hb => ⟨refuses_of_msg_none hb (by decide), fun m hm => ?issue⟩,
    fun m h hrun hfit => ?completion⟩⟩
  case issue =>
    obtain ⟨hrefuses, haccepts⟩ := exec_idle_of_check (i := .hUpdate) hb (latchHUpdate_of_msg hm)
    exact ⟨fun hfit => hrefuses (Bool.eq_false_iff.1 hfit), haccepts⟩
  case completion =>
    exact exec_running_of_fits hrun rfl (by rwa [Result.fits, List.length_append])

/-- Settles O18: as `HASH`, on the accumulator, which no result `OUT` writes. -/
theorem hDigestWritesTheDigestOfTheAccumulator : Obligations.HDigestWritesTheDigestOfTheAccumulator := by
  refine ⟨rfl, fun s => ⟨fun hb => ?issue, fun h hrun hfit => ?completion⟩⟩
  case issue =>
    obtain ⟨hrefuses, haccepts⟩ := exec_idle_of_check (i := .hDigest) hb (latchHDigest_eq s.engine)
    exact ⟨fun hlen => hrefuses hlen.not_gt, haccepts⟩
  case completion => exact exec_running_of_fits hrun rfl (fits_out_sha256 hfit h)

/-! ### The hexadecimal text (R114) -/

theorem hexDigit_toNat {d : Nat} (h : d < 16) :
    (hexDigit d).toNat = if d < 10 then 0x30 + d else 0x61 + (d - 10) := by
  unfold hexDigit
  split <;> rw [BitVec.toNat_ofNat, Nat.mod_eq_of_lt (by omega)]

/-- The two digits of byte `i`, the high nibble first. -/
theorem hexText_getD (s : Bytes) {i : Nat} (h : i < s.length) :
    (hexText s).getD (2 * i) 0 = hexDigit ((s.getD i 0).toNat / 16) ∧
      (hexText s).getD (2 * i + 1) 0 = hexDigit ((s.getD i 0).toNat % 16) := by
  induction s generalizing i with
  | nil => cases h
  | cons b s ih =>
    cases i with
    | zero => exact ⟨rfl, rfl⟩
    | succ i => exact ih (Nat.lt_of_succ_lt_succ h)

/-- Settles O19: the text of a digest has two digits for each of its 32 bytes. -/
theorem hHexdigestWritesTheHexText : Obligations.HHexdigestWritesTheHexText := by
  refine ⟨rfl, fun s => ⟨fun hb => ?issue, fun h hrun hfit => ?completion⟩⟩
  case issue =>
    obtain ⟨hrefuses, haccepts⟩ := exec_idle_of_check (i := .hHexdigest) hb (latchHHexdigest_eq s.engine)
    exact ⟨fun hlen => hrefuses hlen.not_gt, haccepts⟩
  case completion =>
    have hlen : (hexText (sha256 h)).length = 64 := by rw [hexText_length, sha256_length]
    refine ⟨hexText (sha256 h), hlen, fun i hi => ?_, exec_running_of_fits hrun rfl (by rwa [Result.fits, hlen])⟩
    obtain ⟨hhigh, hlow⟩ := hexText_getD (sha256 h) (hi.trans_eq (sha256_length h).symm)
    have hbyte : ((sha256 h).getD i 0).toNat < 256 := BitVec.isLt _
    rw [hhigh, hlow, hexDigit_toNat (by omega), hexDigit_toNat (by omega)]
    exact ⟨rfl, rfl⟩

end Sys2Proof.Machine

/-! ## SHA-256 (O20 to O25) -/

namespace Sys2Proof.Machine

/-! ### Padding and blocks (R100, R101) -/

theorem padMessage_length (m : Bytes) : (padMessage m).length = 64 * ((m.length + 8) / 64 + 1) := by
  obtain ⟨hlt, hmod⟩ := padZeros_spec m.length
  simp only [padMessage, List.length_append, List.length_cons, List.length_nil, List.length_replicate, be_length]
  omega

/-- Settles O20: the model's number of zeros is the one of R100. -/
theorem paddingFillsWholeBlocks : Obligations.PaddingFillsWholeBlocks := by
  intro m
  obtain ⟨hlt, hmod⟩ := padZeros_spec m.length
  exact ⟨padZeros m.length, hlt, hmod, rfl, padMessage_length m⟩

/-- Piece `i` is the `size` bytes that stand at `size · i`. -/
theorem pieces_eq_map (size n : Nat) (s : Bytes) :
    pieces size n s = (List.range n).map fun i => (s.drop (size * i)).take size := by
  induction n generalizing s with
  | zero => rfl
  | succ n ih =>
    rw [pieces, ih, List.range_succ_eq_map]
    simp [Nat.mul_succ, Nat.add_comm]

/-! ### The message schedule (R105) -/

theorem rotr_eq_rotateRight (x : Word) {n : Nat} (h : n < 32) : rotr x n = x.rotateRight n := by
  rw [BitVec.rotateRight_def, Nat.mod_eq_of_lt h, rotr]

theorem blockWords_length (block : Bytes) : (blockWords block).length = 16 := by
  simp [blockWords, pieces_eq_map]

theorem blockWords_getD (block : Bytes) {t : Nat} (h : t < 16) :
    (blockWords block).getD t 0 = BitVec.ofNat 32 (intOf ((block.drop (4 * t)).take 4)) := by
  simp [blockWords, pieces_eq_map, h]

/-- The recurrence of R105 at every place of a list of words but its first sixteen. -/
def FollowsRecurrence (w : List Word) : Prop :=
  ∀ t, 16 ≤ t → t < w.length →
    w.getD t 0 = ssig1 (w.getD (t - 2) 0) + w.getD (t - 7) 0 + ssig0 (w.getD (t - 15) 0) + w.getD (t - 16) 0

/-- The word that `extendSchedule` puts before the words `ws`, newest first. -/
def nextWord (ws : List Word) : Word :=
  ssig1 (ws.getD 1 0) + ws.getD 6 0 + ssig0 (ws.getD 14 0) + ws.getD 15 0

theorem extendSchedule_succ (n : Nat) (ws : List Word) :
    extendSchedule (n + 1) ws = extendSchedule n (nextWord ws :: ws) := rfl

/-- The word `k` places before the end of the schedule stands at place `k - 1` of the reversed list. -/
theorem getD_reverse_sub (ws : List Word) {k : Nat} (hk : 0 < k) (hle : k ≤ ws.length) :
    ws.reverse.getD (ws.length - k) 0 = ws.getD (k - 1) 0 := by
  rw [List.getD_reverse _ (by omega), show ws.length - 1 - (ws.length - k) = k - 1 by omega]

theorem followsRecurrence_nextWord {ws : List Word} (h16 : 16 ≤ ws.length) (hws : FollowsRecurrence ws.reverse) :
    FollowsRecurrence (nextWord ws :: ws).reverse := by
  intro t ht hlt
  have hle : t ≤ ws.length := by simpa [Nat.lt_succ_iff] using hlt
  have hold {j : Nat} (hj : j < ws.length) : (ws.reverse ++ [nextWord ws]).getD j 0 = ws.reverse.getD j 0 :=
    List.getD_append _ _ _ _ (by simpa using hj)
  rcases hle.lt_or_eq with h | rfl
  · simp (disch := omega) only [List.reverse_cons, hold]
    exact hws t ht (by simpa using h)
  · have hlast : (ws.reverse ++ [nextWord ws]).getD ws.length 0 = nextWord ws := by simp
    simp (disch := omega) only [List.reverse_cons, hold, getD_reverse_sub, hlast]
    rfl

/-- Extending keeps the words there are, adds `n` of them, and keeps the recurrence. -/
theorem extendSchedule_spec (n : Nat) {ws : List Word} (h16 : 16 ≤ ws.length) (hws : FollowsRecurrence ws.reverse) :
    FollowsRecurrence (extendSchedule n ws).reverse ∧
      ∃ new : List Word, new.length = n ∧ (extendSchedule n ws).reverse = ws.reverse ++ new := by
  induction n generalizing ws with
  | zero => exact ⟨hws, [], rfl, (List.append_nil _).symm⟩
  | succ n ih =>
    obtain ⟨hrec, new, hlen, heq⟩ :=
      ih (ws := nextWord ws :: ws) (Nat.le_succ_of_le h16) (followsRecurrence_nextWord h16 hws)
    rw [← extendSchedule_succ] at hrec heq
    refine ⟨hrec, nextWord ws :: new, by rw [List.length_cons, hlen], ?_⟩
    rw [heq, List.reverse_cons, List.append_assoc, List.singleton_append]

/-- The schedule begins with the words of the block, has 48 more, and follows the recurrence. -/
theorem schedule_spec (block : Bytes) : FollowsRecurrence (schedule block) ∧
    ∃ new : List Word, new.length = 48 ∧ schedule block = blockWords block ++ new := by
  have hlen : (blockWords block).reverse.length = 16 := by rw [List.length_reverse, blockWords_length]
  have hrec : FollowsRecurrence (blockWords block).reverse.reverse := by
    intro t ht hlt
    rw [List.length_reverse, hlen] at hlt
    omega
  have h := extendSchedule_spec 48 hlen.ge hrec
  rwa [List.reverse_reverse] at h

theorem schedule_length (block : Bytes) : (schedule block).length = 64 := by
  obtain ⟨-, new, hnew, heq⟩ := schedule_spec block
  rw [heq, List.length_append, blockWords_length, hnew]

theorem ssig0_eq (x : Word) : ssig0 x = x.rotateRight 7 ^^^ x.rotateRight 18 ^^^ (x >>> 3) := by
  rw [ssig0, rotr_eq_rotateRight x (by decide), rotr_eq_rotateRight x (by decide)]

theorem ssig1_eq (x : Word) : ssig1 x = x.rotateRight 17 ^^^ x.rotateRight 19 ^^^ (x >>> 10) := by
  rw [ssig1, rotr_eq_rotateRight x (by decide), rotr_eq_rotateRight x (by decide)]

/-- Settles O22: the schedule is the block's words and an extension by the recurrence. -/
theorem scheduleFollowsTheRecurrence : Obligations.ScheduleFollowsTheRecurrence := by
  intro block _
  obtain ⟨hrec, new, -, heq⟩ := schedule_spec block
  refine ⟨schedule_length block, fun t ht => ?_, fun t h16 h64 => ?_⟩
  · rw [heq, List.getD_append _ _ _ _ (by rwa [blockWords_length]), blockWords_getD block ht]
  · rw [hrec t h16 (by rwa [schedule_length]), ssig0_eq, ssig1_eq]

/-! ### The compression of a block (R106) -/

theorem bsig0_eq (x : Word) : bsig0 x = x.rotateRight 2 ^^^ x.rotateRight 13 ^^^ x.rotateRight 22 := by
  rw [bsig0, rotr_eq_rotateRight x (by decide), rotr_eq_rotateRight x (by decide), rotr_eq_rotateRight x (by decide)]

theorem bsig1_eq (x : Word) : bsig1 x = x.rotateRight 6 ^^^ x.rotateRight 11 ^^^ x.rotateRight 25 := by
  rw [bsig1, rotr_eq_rotateRight x (by decide), rotr_eq_rotateRight x (by decide), rotr_eq_rotateRight x (by decide)]

/-- One round with the functions of R104 written out. -/
theorem hashRound_eq (s : Chain) (k w : Word) : hashRound s (k, w) =
    let t1 := s.h + (s.e.rotateRight 6 ^^^ s.e.rotateRight 11 ^^^ s.e.rotateRight 25) +
      ((s.e &&& s.f) ^^^ (~~~s.e &&& s.g)) + k + w
    let t2 := (s.a.rotateRight 2 ^^^ s.a.rotateRight 13 ^^^ s.a.rotateRight 22) +
      ((s.a &&& s.b) ^^^ (s.a &&& s.c) ^^^ (s.b &&& s.c))
    ⟨t1 + t2, s.a, s.b, s.c, s.d + t1, s.e, s.f, s.g⟩ := by
  rw [← bsig0_eq, ← bsig1_eq]
  rfl

/-- A fold over the first `i + 1` elements is one more step than over the first `i`. -/
theorem foldl_take_succ {α β : Type} (f : β → α → β) (b : β) {l : List α} {i : Nat} (h : i < l.length) :
    (l.take (i + 1)).foldl f b = f ((l.take i).foldl f b) l[i] := by
  rw [← List.take_append_getElem h, List.foldl_append, List.foldl_cons, List.foldl_nil]

/-- The working variables after `t` rounds. -/
def workingVars (h : Chain) (block : Bytes) (t : Nat) : Chain :=
  ((kTable.zip (schedule block)).take t).foldl hashRound h

theorem rounds_length (block : Bytes) : (kTable.zip (schedule block)).length = 64 := by
  rw [List.length_zip, schedule_length]
  rfl

theorem workingVars_succ (h : Chain) (block : Bytes) {t : Nat} (ht : t < 64) :
    workingVars h block (t + 1) =
      hashRound (workingVars h block t) (kTable.getD t 0, (schedule block).getD t 0) := by
  have hk : t < kTable.length := ht
  have hw : t < (schedule block).length := ht.trans_eq (schedule_length block).symm
  rw [workingVars, foldl_take_succ _ _ (ht.trans_eq (rounds_length block).symm), List.getElem_zip,
    List.getD_eq_getElem _ _ hk, List.getD_eq_getElem _ _ hw, workingVars]

theorem compress_eq_add (h : Chain) (block : Bytes) : compress h block = h.add (workingVars h block 64) := by
  rw [compress, workingVars, List.take_of_length_le (rounds_length block).le]

/-- Settles O23: each round is `hashRound` on the working variables so far. -/
theorem compressionRunsSixtyFourRounds : Obligations.CompressionRunsSixtyFourRounds := fun h block _ =>
  ⟨workingVars h block, rfl, fun _ ht => (workingVars_succ h block ht).trans (hashRound_eq ..),
    compress_eq_add h block⟩

/-! ### Chaining the blocks (R107, R108) -/

theorem blocks_length (padded : Bytes) : (blocks padded).length = padded.length / 64 := by
  simp [blocks, pieces_eq_map]

theorem blocks_getElem (padded : Bytes) {i : Nat} (h : i < (blocks padded).length) :
    (blocks padded)[i] = (padded.drop (64 * i)).take 64 := by
  simp [blocks, pieces_eq_map]

/-- The chaining value after the first `i` blocks of the padded message. -/
def chainValue (m : Bytes) (i : Nat) : Chain := ((blocks (padMessage m)).take i).foldl compress initialHash

theorem chainValue_succ (m : Bytes) {i : Nat} (hi : i < (padMessage m).length / 64) :
    chainValue m (i + 1) = compress (chainValue m i) (((padMessage m).drop (64 * i)).take 64) := by
  have hlt : i < (blocks (padMessage m)).length := by rwa [blocks_length]
  rw [chainValue, foldl_take_succ _ _ hlt, blocks_getElem, chainValue]

theorem sha256_eq_digest (m : Bytes) : sha256 m = (chainValue m ((padMessage m).length / 64)).digest := by
  rw [sha256, chainValue, List.take_of_length_le (blocks_length _).le]

theorem Chain.digest_eq (w : Chain) :
    w.digest = be w.a.toNat 4 ++ be w.b.toNat 4 ++ be w.c.toNat 4 ++ be w.d.toNat 4 ++ be w.e.toNat 4 ++
      be w.f.toNat 4 ++ be w.g.toNat 4 ++ be w.h.toNat 4 := by
  simp [Chain.digest, List.flatMap_cons]

/-- Settles O24: each chaining value is the compression of the one before, and the digest is that of the last. -/
theorem digestChainsTheBlocksInOrder : Obligations.DigestChainsTheBlocksInOrder := fun m =>
  ⟨chainValue m, rfl, fun _ hi => chainValue_succ m hi, (sha256_eq_digest m).trans (Chain.digest_eq _)⟩

/-! ### The constants (R102, R103) and the worked trace (R118) -/

/-- An integer part `q` below 8 in front of the word is a root whose fraction is the word. -/
theorem exists_root_of_fraction {n p : Nat} {w : Word}
    (h : ∃ q < 8, (q * 2 ^ 32 + w.toNat) ^ n ≤ p ∧ p < (q * 2 ^ 32 + w.toNat + 1) ^ n) :
    ∃ c, c ^ n ≤ p ∧ p < (c + 1) ^ n ∧ c % 2 ^ 32 = w.toNat := by
  obtain ⟨q, -, hle, hlt⟩ := h
  exact ⟨_, hle, hlt, by rw [Nat.mul_add_mod_self_right, Nat.mod_eq_of_lt w.isLt]⟩

/-- Trial division by 2 to 17, which is enough below 18². -/
def trialPrime (p : Nat) : Bool := decide (2 ≤ p ∧ ∀ d ∈ List.range 18, 2 ≤ d → d < p → p % d ≠ 0)

theorem trialPrime_eq_decide {p : Nat} (hp : p < 18 * 18) : trialPrime p = decide p.Prime := by
  refine decide_eq_decide.2 ⟨?prime, ?divisors⟩
  case prime =>
    rintro ⟨h2, hdiv⟩
    refine Nat.prime_def_le_sqrt.2 ⟨h2, fun d hd hle hdvd => ?_⟩
    exact hdiv d (List.mem_range.2 (hle.trans_lt (Nat.sqrt_lt.2 hp))) hd (hle.trans_lt (Nat.sqrt_lt_self h2))
      (Nat.mod_eq_zero_of_dvd hdvd)
  case divisors =>
    exact fun hprime => ⟨hprime.two_le, fun d _ h2 hlt hmod =>
      Nat.not_prime_of_dvd_of_lt (Nat.dvd_of_mod_eq_zero hmod) h2 hlt hprime⟩

/-- The first 64 primes (R103). -/
def firstPrimes : List Nat :=
  [2, 3, 5, 7, 11, 13, 17, 19, 23, 29, 31, 37, 41, 43, 47, 53, 59, 61, 67, 71, 73, 79, 83, 89, 97, 101, 103, 107, 109,
    113, 127, 131, 137, 139, 149, 151, 157, 163, 167, 173, 179, 181, 191, 193, 197, 199, 211, 223, 227, 229, 233, 239,
    241, 251, 257, 263, 269, 271, 277, 281, 283, 293, 307, 311]

theorem filter_prime_range : (List.range 312).filter (fun p => decide p.Prime) = firstPrimes := by
  rw [← List.filter_congr fun p hp => trialPrime_eq_decide ((List.mem_range.1 hp).trans (by decide))]
  decide +kernel

/-- Settles O21: the primes by trial division, and for each word the integer part of its root by search. -/
theorem hashConstantsAreRootsOfPrimes : Obligations.HashConstantsAreRootsOfPrimes := by
  unfold Obligations.HashConstantsAreRootsOfPrimes
  rw [filter_prime_range]
  refine ⟨rfl, rfl, fun pk hpk => exists_root_of_fraction ?cube, fun pk hpk => exists_root_of_fraction ?square⟩
  case cube => revert pk; decide
  case square => revert pk; decide

/-- Settles O25: the trace is computed. -/
theorem workedTraceOfAbc : Obligations.WorkedTraceOfAbc :=
  ⟨by decide, by decide +kernel, by decide +kernel⟩

end Sys2Proof.Machine

/-! ## The incremental hash (O26) -/

namespace Sys2Proof.Machine

theorem steps_add_of_next {j : Nat} (k : Nat) {s t : State} (h : steps j s = .next t) :
    steps (j + k) s = steps k t := by
  induction j generalizing s with
  | zero => cases h; rw [Nat.zero_add]
  | succ j ih =>
    rw [Nat.succ_add]
    cases hstep : step s with
    | next u =>
      rw [steps_succ_of_next hstep] at h ⊢
      exact ih h
    | fault f => rw [steps, hstep] at h; cases h
    | refused r => rw [steps, hstep] at h; cases h

/-- The word of a command and the engine's turn, from an idle engine to an idle one: the issue is accepted, and the
operation ends in one step with a result that fits. -/
theorem steps_command {s : State} {w : Word} {l : Latch} {r : Result} {rest : List Event} (hb : s.engine.busy = false)
    (hag : s.agenda = .host (.writeCmd w) :: .engine :: rest) (hw : decode w = .ok l.instr)
    (hl : latchOf s.params s.engine l.instr = .ok l) (ha : ∀ u, advance u l = complete r u)
    (hfit : r.fits s.params = true) :
    steps 2 s = .next ((({ s with agenda := rest } : State).takeAnswers.accept l).succeed r) := by
  have hissue : step s = .next (({ s with agenda := .engine :: rest } : State).takeAnswers.accept l) := by
    rw [step_writeCmd hb hag hw, exec_idle (by exact hb), takeAnswers_params, takeAnswers_engine, hl, issue]
  have hrun : (({ s with agenda := .engine :: rest } : State).takeAnswers.accept l).Running l := ⟨rfl, rfl⟩
  rw [steps_succ_of_next hissue, steps_succ_of_next ((step_engine_running hrun rfl).trans
    (exec_running_of_fits (by exact hrun) (ha _) (by exact hfit))), steps]
  rfl

/-- An idle engine with the bytes `h` in the accumulator, under the parameters `p`, that is to handle `rest`. -/
structure Accumulates (s : State) (p : Params) (h : Bytes) (rest : List Event) : Prop where
  busy : s.engine.busy = false
  params : s.params = p
  hacc : s.engine.hacc = h
  agenda : s.agenda = rest

theorem step_writeMsg {s : State} {x : Bytes} {rest : List Event} (hb : s.engine.busy = false)
    (hag : s.agenda = .host (.writeBuf 0x20 x) :: rest) (hx : fitsBuf s.params x.length = true) :
    step s = .next { s with agenda := rest, engine := { s.engine with msg := some x } } :=
  (step_of_agenda_cons hag).trans (hostAccess_writeBuf_of_fits (r := .msg) (by exact hb) rfl hx)

/-- A byte string written to `MSG` and fed to the accumulator. -/
theorem steps_feed {s : State} {p : Params} {h x : Bytes} {rest : List Event}
    (hs : Accumulates s p h (feedEvents x ++ rest)) (hfit : fitsBuf p (h.length + x.length) = true) :
    ∃ t, steps 3 s = .next t ∧ Accumulates t p (h ++ x) rest := by
  obtain ⟨hb, rfl, rfl, hag⟩ := hs
  have hwrite := step_writeMsg hb hag (fitsBuf_mono (Nat.le_add_left _ _) hfit)
  have hresult : (Result.hacc (s.engine.hacc ++ x)).fits s.params = true := by rwa [Result.fits, List.length_append]
  refine ⟨_, (steps_succ_of_next hwrite).trans (steps_command (l := .hUpdate x s.engine.hacc) (by exact hb) rfl rfl
    ?latch (fun _ => rfl) hresult), rfl, rfl, rfl, rfl⟩
  exact (latchHUpdate_of_msg rfl).trans (if_pos hfit)

/-- All the strings, one after the other. -/
theorem steps_feed_all {s : State} {p : Params} {h : Bytes} {parts : List Bytes} {rest : List Event}
    (hs : Accumulates s p h (parts.flatMap feedEvents ++ rest))
    (hfit : fitsBuf p (h.length + parts.flatten.length) = true) :
    ∃ t, steps (3 * parts.length) s = .next t ∧ Accumulates t p (h ++ parts.flatten) rest := by
  induction parts generalizing s h with
  | nil => exact ⟨s, rfl, by simpa using hs⟩
  | cons x parts ih =>
    rw [List.flatMap_cons, List.append_assoc] at hs
    rw [List.flatten_cons, List.length_append, ← Nat.add_assoc] at hfit
    obtain ⟨u, hu, hacc⟩ := steps_feed hs (fitsBuf_mono (Nat.le_add_right _ _) hfit)
    obtain ⟨t, ht, hend⟩ := ih hacc (by rwa [List.length_append])
    refine ⟨t, ?_, by rwa [List.flatten_cons, ← List.append_assoc]⟩
    rw [List.length_cons, Nat.mul_succ, Nat.add_comm, steps_add_of_next _ hu, ht]

/-- Settles O26: the strings are fed one by one, and the last command digests their concatenation. -/
theorem incrementalHashEqualsOneShot : Obligations.IncrementalHashEqualsOneShot := by
  intro s parts hb hacc hlen hfit h32 hag
  obtain ⟨u, hu, hbusy, hparams, hfed, hrest⟩ := steps_feed_all ⟨hb, rfl, hacc, hag⟩ (by simpa using hfit)
  rw [List.nil_append] at hfed
  have hlatch : latchOf u.params u.engine .hDigest = .ok (.hDigest parts.flatten) := by
    rw [latchOf, latchHDigest_eq, hfed, if_pos hlen]
  have hcommand := steps_command (l := .hDigest parts.flatten) hbusy hrest rfl hlatch (fun _ => rfl)
    (fits_out_sha256 (hparams ▸ h32) _)
  exact ⟨_, (steps_add_of_next 2 hu).trans hcommand, rfl, rfl, rfl, rfl, hfed⟩

end Sys2Proof.Machine

/-! ## The mask generator (O27, O28, O44) -/

namespace Sys2Proof.Machine

/-! ### The masks (R130, R133) -/

/-- Settles O28: up to 2^37 bytes MGF1 answers `maskBytes`, whose digests do not depend on the length. -/
theorem shorterMaskIsAPrefix : Obligations.ShorterMaskIsAPrefix := by
  intro seed n j hle
  have hlen := maskBytes_length seed n
  exact ⟨maskBytes seed n, maskBytes seed (n + j), mgf1_of_le ((Nat.le_add_right n j).trans hle), mgf1_of_le hle,
    (maskBytes_take seed n j).symm, hlen, fun h0 => List.length_eq_zero_iff.1 (hlen.trans h0)⟩

/-- Settles O44: up to 2^37 bytes the codec's mask is `maskBytes`, and so is MGF1's. -/
theorem codecMasksAreThoseOfMgf1 : Obligations.CodecMasksAreThoseOfMgf1 := by
  refine fun seed n => ⟨innerMask_length seed n, fun hle => ?_⟩
  rw [innerMask_of_le hle]
  exact ⟨mgf1_of_le hle, rfl⟩

/-! ### The issue and the completion of `MGF1` (R131, R132) -/

/-- An issue that latches when all its checks hold, and refuses when one fails. -/
theorem exec_idle_of_ok_iff {s : State} {i : Instr} {l : Latch} {c : Prop} (hb : s.engine.busy = false)
    (hl : ∀ x, latchOf s.params s.engine i = .ok x ↔ c ∧ x = l) :
    (¬ c → Refuses (exec i s)) ∧ (c → exec i s = .next (s.accept l)) :=
  ⟨fun hc => refuses_issue hb fun x hx => hc ((hl x).1 hx).left,
    fun hc => by rw [exec_idle hb, (hl l).2 ⟨hc, rfl⟩, issue]⟩

/-- A command that reads `ARG` is refused while `ARG` is ⊥ (R84). -/
theorem refuses_of_arg_none {s : State} {i : Instr} (hb : s.engine.busy = false) (hi : Reg.arg ∈ sources i)
    (hn : s.engine.arg = none) : Refuses (exec i s) :=
  sourceWithoutValueIsRefused i s .arg hb hi (by rw [Engine.content, hn]; rfl)

/-- The two checks of R132: a mask that is written fits `OUT`, and the seed can be hashed with its counter. -/
theorem latchMgf1_ok_iff {p : Params} {e : Engine} {seed : Bytes} {n : Nat} (hm : e.msg = some seed)
    (hn : e.arg = some n) (x : Latch) :
    latchMgf1 p e = .ok x ↔
      ((2 ^ 37 < n ∨ fitsBuf p n = true) ∧ seed.length + 4 < 2 ^ 61) ∧ x = .mgf1 seed n := by
  simp only [latchMgf1, hm, hn, bind_ok_iff, need_some, require_ok_iff, Bool.or_eq_true, decide_eq_true_eq]
  constructor
  · rintro ⟨_, ⟨⟩, _, ⟨⟩, _, hfit, _, hlen, ⟨⟩⟩
    exact ⟨⟨hfit, hlen⟩, rfl⟩
  · rintro ⟨⟨hfit, hlen⟩, rfl⟩
    exact ⟨seed, rfl, n, rfl, (), hfit, (), hlen, rfl⟩

theorem advance_mgf1_of_le {s : State} {seed : Bytes} {n : Nat} (h : n ≤ Config.mgf1Max) :
    advance s (.mgf1 seed n) = complete (.out (maskBytes seed n)) s := by
  rw [advance, mgf1_of_le h]
  rfl

theorem advance_mgf1_of_gt {s : State} {seed : Bytes} {n : Nat} (h : Config.mgf1Max < n) :
    advance s (.mgf1 seed n) = fail .mgf1 .maskTooLong Config.mgf1Max n s := by
  rw [advance, mgf1_of_gt h]
  rfl

/-- Settles O27: the two checks at the issue, then a mask that fits or the error entry, whose context fits as `ARG`
does. -/
theorem mgf1WritesTheMaskOrReportsItsLength : Obligations.Mgf1WritesTheMaskOrReportsItsLength := by
  refine ⟨rfl, fun s => ⟨fun hb => ⟨?noValue, fun seed n hm hn => ?issue⟩, fun seed n hrun hle hfit => ?mask,
    fun seed n hrun hgt hfit => ?tooLong⟩⟩
  case noValue =>
    exact fun h => h.elim (refuses_of_msg_none hb (by decide)) (refuses_of_arg_none hb (by decide))
  case issue =>
    obtain ⟨hrefuses, haccepts⟩ := exec_idle_of_ok_iff (i := .mgf1) hb (latchMgf1_ok_iff hm hn)
    refine ⟨fun h => hrefuses ?_, fun hfit hlen => haccepts ⟨hfit, hlen⟩⟩
    rintro ⟨hfit, hlen⟩
    rcases h with ⟨hle, hnot⟩ | hlong
    · exact hfit.elim hle.not_gt (Bool.eq_false_iff.1 hnot)
    · exact hlong.not_gt hlen
  case mask =>
    have hlen := maskBytes_length seed n
    exact ⟨maskBytes seed n, hlen, rfl,
      exec_running_of_fits hrun (advance_mgf1_of_le hle) (by rwa [Result.fits, hlen])⟩
  case tooLong =>
    exact (exec_running hrun).trans ((advance_mgf1_of_gt hgt).trans (fail_of_fits (fitsInt_mono hgt.le hfit) hfit))

end Sys2Proof.Machine

/-! ## The arithmetic unit (O29 to O34) -/

namespace Sys2Proof.Machine

/-! ### REDC (R143) -/

/-- The negative of an inverse of m modulo R, as REDC reduces it, is an inverse of -m. -/
theorem dvd_mul_neg_inverse_add_one {R m x : Nat} (hx : x ≤ R) (h : m * x ≡ 1 [MOD R]) :
    R ∣ m * ((R - x) % R) + 1 := by
  refine (Nat.modEq_zero_iff_dvd).1 ?_
  calc m * ((R - x) % R) + 1
      ≡ m * (R - x) + m * x [MOD R] := ((Nat.mod_modEq _ _).mul_left m).add h.symm
    _ = R * m := by rw [← Nat.mul_add, Nat.sub_add_cancel hx, Nat.mul_comm]
    _ ≡ 0 [MOD R] := (Nat.modEq_zero_iff_dvd).2 (Nat.dvd_mul_right R m)

/-- The division by R in REDC is exact. -/
theorem dvd_redc_numerator {R m m' : Nat} (h : R ∣ m * m' + 1) (t : Nat) : R ∣ t + t % R * m' % R * m := by
  refine (Nat.modEq_zero_iff_dvd).1 ?_
  have hu : t % R * m' % R ≡ t * m' [MOD R] := (Nat.mod_modEq _ _).trans ((Nat.mod_modEq t R).mul_right m')
  calc t + t % R * m' % R * m
      ≡ t + t * m' * m [MOD R] := (hu.mul_right m).add_left t
    _ = (m * m' + 1) * t := by ring
    _ ≡ 0 [MOD R] := (Nat.modEq_zero_iff_dvd).2 (h.mul_right t)

/-- One conditional subtraction reduces what is below 2m. -/
theorem ite_sub_eq_mod {t m : Nat} (h : t < 2 * m) : (if m ≤ t then t - m else t) = t % m := by
  split
  next hle => rw [Nat.mod_eq_sub_mod hle, Nat.mod_eq_of_lt (by omega)]
  next hlt => rw [Nat.mod_eq_of_lt (Nat.lt_of_not_le hlt)]

/-- REDC's quotient, before the conditional subtraction, is below 2m. -/
theorem redc_quotient_lt {R m u t : Nat} (hR : 0 < R) (ht : t < m * R) (hu : u < R) : (t + u * m) / R < 2 * m := by
  rw [Nat.div_lt_iff_lt_mul hR]
  nlinarith

/-- Settles O31: REDC's result times R is the product, modulo m, and that determines the residue. -/
theorem redcYieldsTheMontgomeryProduct : Obligations.RedcYieldsTheMontgomeryProduct := by
  intro r a b m hm hr ha hb
  have hR : 0 < 2 ^ r := Nat.two_pow_pos r
  obtain ⟨hlt, hinv⟩ := egcd_inverse hR.ne' ((Nat.gcd_comm m (2 ^ r)).trans (coprime_two_pow hm))
  have hdvd := dvd_redc_numerator (dvd_mul_neg_inverse_add_one hlt.le hinv) (a * b)
  have hprod : a * b < m * 2 ^ r := Nat.mul_lt_mul'' ha (hb.trans hr)
  simp only [redc]
  rw [ite_sub_eq_mod (redc_quotient_lt hR hprod (Nat.mod_lt _ hR))]
  refine montMul_unique hm (Nat.mod_lt _ (by omega)) ?_
  rw [Nat.mod_mul_mod, Nat.div_mul_cancel hdvd, Nat.add_mul_mod_self_right]

/-! ### Exponentiation through the multiplier (R144) -/

/-- The Montgomery form y · R mod m of y, R = 2^r. -/
def montForm (r m y : Nat) : Nat := y * 2 ^ r % m

theorem montForm_lt {r m y : Nat} (hm : m % 2 = 1) : montForm r m y < m := Nat.mod_lt _ (by omega)

/-- The multiplier multiplies Montgomery forms. -/
theorem montMul_montForm {r m y z : Nat} (hm : m % 2 = 1) :
    montMul r (montForm r m y) (montForm r m z) m = montForm r m (y * z) := by
  refine (montMul_unique hm (montForm_lt hm) ?_).symm
  rw [montForm, montForm, montForm, Nat.mod_mul_mod, ← Nat.mul_mod]
  congr 1
  ring

/-- Multiplied by R² mod m, a base is brought into Montgomery form. -/
theorem montMul_R_squared {r m b : Nat} (hm : m % 2 = 1) :
    montMul r (b % m) (2 ^ r * 2 ^ r % m) m = montForm r m b := by
  refine (montMul_unique hm (montForm_lt hm) ?_).symm
  rw [montForm, Nat.mod_mul_mod, ← Nat.mul_mod, Nat.mul_assoc]

/-- Multiplied by 1, a Montgomery form gives its residue back. -/
theorem montMul_montForm_one {r m y : Nat} (hm : m % 2 = 1) : montMul r (montForm r m y) 1 m = y % m := by
  refine (montMul_unique hm (Nat.mod_lt _ (by omega)) ?_).symm
  rw [montForm, Nat.mod_mul_mod, Nat.mul_one, Nat.mod_mod]

/-- One iteration appends a bit to the exponent. -/
theorem montStep_montForm {r m b k : Nat} (hm : m % 2 = 1) (bit : Bool) :
    montStep r (montForm r m b) m (montForm r m (b ^ k)) bit = montForm r m (b ^ (2 * k + bit.toNat)) := by
  cases bit <;> simp [montStep, montMul_montForm hm, two_mul, pow_add]

/-- With the upper bits of e done, the loop over the lower n bits reaches b^e. -/
theorem foldl_montStep_lowBits {r m b : Nat} (hm : m % 2 = 1) (e n : Nat) :
    ((List.range n).reverse.map e.testBit).foldl (montStep r (montForm r m b) m) (montForm r m (b ^ (e / 2 ^ n))) =
      montForm r m (b ^ e) := by
  induction n with
  | zero => simp
  | succ n ih =>
    have hbit : 2 * (e / 2 ^ (n + 1)) + (e.testBit n).toNat = e / 2 ^ n := by
      rw [Nat.toNat_testBit, pow_succ, ← Nat.div_div_eq_div_mul]
      omega
    rw [List.range_succ, List.reverse_append, List.reverse_singleton, List.singleton_append, List.map_cons,
      List.foldl_cons, montStep_montForm hm, hbit, ih]

/-- Settles O32: the loop of R144 runs in Montgomery form, over all bits of the exponent. -/
theorem montgomeryExponentiationIsModExp : Obligations.MontgomeryExponentiationIsModExp := by
  intro r b x m hm _
  refine ⟨?_, modExp_eq b x m⟩
  have hstart : 2 ^ r % m = montForm r m (b ^ (x / 2 ^ bitlen x)) := by
    rw [Nat.div_eq_of_lt (lt_two_pow_bitlen x), pow_zero, montForm, Nat.one_mul]
  simp only [montExp]
  rw [montMul_R_squared hm, hstart, bitsMsb, foldl_montStep_lowBits hm, montMul_montForm_one hm, modExp_eq]

/-! ### The issue of the four commands (R145, R146, R148, R150) -/

theorem latchModexp_ok_iff {e : Engine} {l : Latch} : latchModexp e = .ok l ↔
    ∃ b x m, e.opa = some b ∧ e.opb = some x ∧ e.opm = some m ∧ m ≠ 0 ∧ .modexp b x m = l := by
  simp [latchModexp, bind_ok_iff, need_ok_iff, require_ok_iff, pure, Except.pure]

theorem latchMontmul_ok_iff {e : Engine} {l : Latch} : latchMontmul e = .ok l ↔
    ∃ a b m, e.opa = some a ∧ e.opb = some b ∧ e.opm = some m ∧ (m % 2 = 1 ∧ a < m ∧ b < m) ∧ .montmul a b m = l := by
  simp [latchMontmul, bind_ok_iff, need_ok_iff, require_ok_iff, pure, Except.pure, and_assoc]

theorem latchEgcd_ok_iff {e : Engine} {l : Latch} : latchEgcd e = .ok l ↔
    ∃ a b, e.opa = some a ∧ e.opb = some b ∧ .egcd a b = l := by
  simp [latchEgcd, bind_ok_iff, need_ok_iff, pure, Except.pure]

theorem latchModinv_ok_iff {e : Engine} {l : Latch} : latchModinv e = .ok l ↔
    ∃ x phi, e.opa = some x ∧ e.opm = some phi ∧ phi ≠ 0 ∧ .modinv x phi = l := by
  simp [latchModinv, bind_ok_iff, need_ok_iff, require_ok_iff, pure, Except.pure]

/-- On an idle engine, operands that can be latched are. -/
theorem exec_idle_of_latch {s : State} {i : Instr} {l : Latch} (hb : s.engine.busy = false)
    (hl : latchOf s.params s.engine i = .ok l) : exec i s = .next (s.accept l) := by
  rw [exec_idle hb, hl, issue]

/-! ### The commands -/

/-- Settles O29: the modular exponentiation is the power, whichever way it is computed. -/
theorem modexpWritesThePower : Obligations.ModexpWritesThePower := by
  refine ⟨rfl, fun s => ⟨fun hidle => ⟨fun h => refuses_issue hidle fun l hl => ?refusal,
    fun b x m hb hx hm h0 => ?accepted⟩, fun b x m hrun _ hfit => ?completion⟩⟩
  case refusal =>
    obtain ⟨b, x, m, hb, hx, hm, h0, -⟩ := latchModexp_ok_iff.1 hl
    simp [hb, hx, hm, h0] at h
  case accepted =>
    exact exec_idle_of_latch (i := .modexp) hidle (latchModexp_ok_iff.2 ⟨b, x, m, hb, hx, hm, h0, rfl⟩)
  case completion =>
    exact exec_running_of_fits (r := .res0 (b ^ x % m)) hrun (by rw [advance, modExp_eq]) hfit

/-- Settles O30: the residue is the Montgomery product, with the radix exponent in use. -/
theorem montmulWritesTheMontgomeryProduct : Obligations.MontmulWritesTheMontgomeryProduct := by
  refine ⟨rfl, fun s => ⟨fun hidle => ⟨fun h => refuses_issue hidle fun l hl => ?noValue,
    fun a b m ha hb hm => ⟨fun h => refuses_issue hidle fun l hl => ?refusal, fun hodd ham hbm => ?accepted⟩⟩,
    fun a b m hrun hodd ham hbm hfit => ?completion⟩⟩
  case noValue =>
    obtain ⟨a, b, m, ha, hb, hm, -⟩ := latchMontmul_ok_iff.1 hl
    simp [ha, hb, hm] at h
  case refusal =>
    obtain ⟨a', b', m', ha', hb', hm', hlegal, -⟩ := latchMontmul_ok_iff.1 hl
    obtain rfl : a = a' := Option.some.inj (ha.symm.trans ha')
    obtain rfl : b = b' := Option.some.inj (hb.symm.trans hb')
    obtain rfl : m = m' := Option.some.inj (hm.symm.trans hm')
    omega
  case accepted =>
    exact exec_idle_of_latch (i := .montmul) hidle
      (latchMontmul_ok_iff.2 ⟨a, b, m, ha, hb, hm, ⟨hodd, ham, hbm⟩, rfl⟩)
  case completion =>
    have hlt : montMul (montRBits s.params m) a b m < m := montMul_lt hodd
    exact ⟨montRBits_of_none, fun _ => montRBits_of_some, lt_two_pow_montRBits s.params m, _, hlt, montMul_mul_R hodd,
      exec_running_of_fits hrun rfl (fitsInt_mono hlt.le hfit)⟩

/-- Settles O33: the contract of R147 on the values the operation computes. -/
theorem egcdWritesAGcdAndItsCoefficients : Obligations.EgcdWritesAGcdAndItsCoefficients := by
  refine ⟨rfl, fun s => ⟨fun hidle => ⟨fun h => refuses_issue hidle fun l hl => ?refusal,
    fun a b ha hb => ?accepted⟩, fun a b hrun => ⟨(egcd a b).2.1, (egcd a b).2.2, Prod.ext (egcd_gcd a b) rfl,
    egcd_bezout a b, fun hg hx hy => ?completion⟩⟩⟩
  case refusal =>
    obtain ⟨a, b, ha, hb, -⟩ := latchEgcd_ok_iff.1 hl
    simp [ha, hb] at h
  case accepted => exact exec_idle_of_latch (i := .egcd) hidle (latchEgcd_ok_iff.2 ⟨a, b, ha, hb, rfl⟩)
  case completion =>
    exact exec_running_of_fits (r := .bezout (Nat.gcd a b) (egcd a b).2.1 (egcd a b).2.2) hrun
      (by rw [advance, egcd_gcd]) (by simp only [Result.fits, hg, hx, hy, Bool.and_self])

theorem advance_modinv_of_some {s : State} {x phi d : Nat} (h : modInverse x phi = some d) :
    advance s (.modinv x phi) = complete (.res0 d) s := by
  simp only [advance, h]

theorem advance_modinv_of_none {s : State} {x phi : Nat} (h : modInverse x phi = none) :
    advance s (.modinv x phi) = .next (errorEntry .modinv .noInverse 0 0 s) := by
  simp only [advance, h, fail_zero]

/-- Settles O34: with the gcd 1 there is a reduced inverse, which fits as the modulus does; with any other there is
none, and the error entry has no context that could fail to fit. -/
theorem modinvWritesTheInverseOrReportsNone : Obligations.ModinvWritesTheInverseOrReportsNone := by
  refine ⟨rfl, fun s => ⟨fun hidle => ⟨fun h => refuses_issue hidle fun l hl => ?refusal,
    fun x phi hx hphi h0 => ?accepted⟩, fun x phi hrun h0 hg hfit => ?inverse, fun x phi hrun _ hg => ?noInverse⟩⟩
  case refusal =>
    obtain ⟨x, phi, hx, hphi, h0, -⟩ := latchModinv_ok_iff.1 hl
    simp [hx, hphi, h0] at h
  case accepted =>
    exact exec_idle_of_latch (i := .modinv) hidle (latchModinv_ok_iff.2 ⟨x, phi, hx, hphi, h0, rfl⟩)
  case inverse =>
    obtain ⟨d, hd, hlt, hinv⟩ := modInverse_some h0 hg
    exact ⟨d, hlt, hinv, exec_running_of_fits hrun (advance_modinv_of_some hd) (fitsInt_mono hlt.le hfit)⟩
  case noInverse =>
    exact (exec_running hrun).trans (advance_modinv_of_none (modInverse_none hg))

end Sys2Proof.Machine

/-! ## Primes (O35, O36, O38 to O40) -/

namespace Sys2Proof.Machine

/-! ### The rounds of the test (R170) -/

theorem mrRounds_of_passes {n k : Nat} {g : Rng} (h : roundPasses n (drawBase n g).1 = true) :
    mrRounds n (k + 1) g = mrRounds n k (drawBase n g).2 := by
  rw [mrRounds, if_pos h]

theorem mrRounds_of_fails {n k : Nat} {g : Rng} (h : ¬ roundPasses n (drawBase n g).1 = true) :
    mrRounds n (k + 1) g = (false, (drawBase n g).2) := by
  rw [mrRounds, if_neg h]

theorem afterBases_succ (n j : Nat) (g : Rng) : afterBases n (j + 1) g = afterBases n j (drawBase n g).2 := rfl

theorem mrRounds_of_all_pass {n rounds : Nat} {g : Rng}
    (h : ∀ j, j < rounds → roundPasses n (drawBase n (afterBases n j g)).1 = true) :
    mrRounds n rounds g = (true, afterBases n rounds g) := by
  induction rounds generalizing g with
  | zero => rfl
  | succ k ih =>
    rw [mrRounds_of_passes (g := g) (h 0 k.succ_pos), ih fun j hj => h (j + 1) (Nat.succ_lt_succ hj), afterBases_succ]

theorem mrRounds_of_first_failure {n rounds j : Nat} {g : Rng} (hj : j < rounds)
    (hfail : ¬ roundPasses n (drawBase n (afterBases n j g)).1 = true)
    (hpass : ∀ k, k < j → roundPasses n (drawBase n (afterBases n k g)).1 = true) :
    mrRounds n rounds g = (false, afterBases n (j + 1) g) := by
  induction rounds generalizing j g with
  | zero => exact absurd hj j.not_lt_zero
  | succ k ih =>
    cases j with
    | zero => exact mrRounds_of_fails hfail
    | succ j =>
      rw [mrRounds_of_passes (g := g) (hpass 0 j.succ_pos), afterBases_succ]
      exact ih (Nat.lt_of_succ_lt_succ hj) hfail fun i hi => hpass (i + 1) (Nat.succ_lt_succ hi)

/-- Settles O35: the rounds are followed one by one up to their end or the first that fails. -/
theorem isPrimeRunsMillerRabinRounds : Obligations.IsPrimeRunsMillerRabinRounds := by
  refine fun n rounds g => ⟨isPrime_of_le_one, isPrime_two_three, isPrime_of_even, fun h3 hodd => ?_⟩
  simp only [passesRound_iff h3 hodd, isPrime_of_odd h3 hodd]
  exact ⟨mrRounds_of_all_pass, fun j => mrRounds_of_first_failure⟩

/-! ### Primes are accepted (R171) -/

/-- In a domain the square roots of 1 are 1 and −1, so repeated squaring first reaches 1 from 1 itself or from −1. -/
theorem eq_one_or_exists_eq_neg_one {R : Type} [Ring R] [NoZeroDivisors R] {x : R} {r : Nat} (h : x ^ 2 ^ r = 1) :
    x = 1 ∨ ∃ j, j < r ∧ x ^ 2 ^ j = -1 := by
  induction r with
  | zero => exact .inl (by simpa using h)
  | succ r ih =>
    rw [pow_succ, pow_mul, sq, mul_self_eq_one_iff] at h
    rcases h with hone | hneg
    · exact (ih hone).imp_right fun ⟨j, hj, hroot⟩ => ⟨j, hj.trans r.lt_succ_self, hroot⟩
    · exact .inr ⟨r, r.lt_succ_self, hneg⟩

theorem natCast_eq_one_iff {n x : Nat} (hn : 1 < n) : (x : ZMod n) = 1 ↔ x % n = 1 := by
  rw [← Nat.cast_one, ZMod.natCast_eq_natCast_iff', Nat.mod_eq_of_lt hn]

theorem natCast_eq_neg_one_iff {n x : Nat} (hn : 1 < n) : (x : ZMod n) = -1 ↔ x % n = n - 1 := by
  have hcast : (-1 : ZMod n) = (n - 1 : Nat) := by
    rw [Nat.cast_sub hn.le, ZMod.natCast_self, zero_sub, Nat.cast_one]
  rw [hcast, ZMod.natCast_eq_natCast_iff', Nat.mod_eq_of_lt (by omega : n - 1 < n)]

/-- By Fermat a^(n − 1) is 1 in the field ZMod n, and n − 1 is an odd number doubled `r` times. -/
theorem passesRound_of_prime {n a : Nat} (hp : n.Prime) (ha : 0 < a) (han : a < n) : PassesRound n a := by
  obtain ⟨hsplit, hodd⟩ := decompose_spec hp.one_lt
  refine ⟨_, _, hsplit, hodd, ?_⟩
  have : Fact n.Prime := ⟨hp⟩
  have hne : (a : ZMod n) ≠ 0 := by
    rw [Ne, ZMod.natCast_eq_zero_iff]
    exact Nat.not_dvd_of_pos_of_lt ha han
  have hfermat : ((a : ZMod n) ^ (decompose n).2) ^ 2 ^ (decompose n).1 = 1 := by
    rw [← pow_mul, Nat.mul_comm, ← hsplit, ZMod.pow_card_sub_one_eq_one hne]
  simp only [← natCast_eq_one_iff hp.one_lt, ← natCast_eq_neg_one_iff hp.one_lt, Nat.cast_pow,
    Nat.mul_comm _ (decompose n).2, pow_mul]
  exact eq_one_or_exists_eq_neg_one hfermat

/-- Settles O36: every base drawn for an odd prime above 3 passes its round. -/
theorem everyPrimeIsAccepted : Obligations.EveryPrimeIsAccepted := by
  intro n rounds g hp
  obtain ⟨-, hsmall, -, hrounds⟩ := isPrimeRunsMillerRabinRounds n rounds g
  rcases Nat.lt_or_ge 3 n with h3 | h3
  · have hodd : n % 2 = 1 := hp.eq_two_or_odd.resolve_left (by omega)
    obtain ⟨hall, -⟩ := hrounds h3 hodd
    refine congrArg Prod.fst (hall fun j _ => ?_)
    obtain ⟨hlow, hhigh⟩ := baseInRange_spec (afterBases n j g).next.1 (by omega : 5 ≤ n)
    exact passesRound_of_prime hp (Nat.zero_lt_of_lt hlow) (show baseInRange n _ < n by omega)
  · have h2 := hp.two_le
    exact congrArg Prod.fst (hsmall (by omega))

/-! ### `ISPRIME` (R172) -/

theorem latchIsprime_ok_iff {e : Engine} {l : Latch} : latchIsprime e = .ok l ↔
    ∃ n, e.opa = some n ∧ .isprime n e.rounds = l := by
  simp [latchIsprime, bind_ok_iff, need_ok_iff, pure, Except.pure]

/-- Settles O38: the flag fits every bound, so the operation always completes. -/
theorem isprimeWritesThePrimeFlag : Obligations.IsprimeWritesThePrimeFlag := by
  refine ⟨rfl, fun s => ⟨fun hidle => ⟨fun h => refuses_issue hidle fun l hl => ?refusal, fun n hn => ?accepted⟩,
    fun n rounds hrun => ?completion⟩⟩
  case refusal =>
    obtain ⟨n, hn, -⟩ := latchIsprime_ok_iff.1 hl
    simp [hn] at h
  case accepted => exact exec_idle_of_latch (i := .isprime) hidle (latchIsprime_ok_iff.2 ⟨n, hn, rfl⟩)
  case completion => exact (exec_running hrun).trans (complete_of_fits rfl)

/-! ### `GENPRIME` (R173, R174) -/

theorem latchGenprime_ok_iff {e : Engine} {l : Latch} : latchGenprime e = .ok l ↔
    ∃ bits, e.arg = some bits ∧ bits ≠ 0 ∧ .genprime bits none = l := by
  simp [latchGenprime, bind_ok_iff, need_ok_iff, require_ok_iff, pure, Except.pure]

theorem drawCandidate_spec {bits : Nat} (h : bits ≠ 0) (g : Rng) :
    (drawCandidate bits g).1 % 2 = 1 ∧
      2 ^ (bits - 1) ≤ (drawCandidate bits g).1 ∧ (drawCandidate bits g).1 < 2 ^ bits := by
  obtain ⟨hodd, hlen⟩ := candidateInRange_spec g.next.1 (Nat.one_le_iff_ne_zero.2 h)
  exact ⟨hodd, (bitlen_eq_iff h).1 hlen⟩

theorem advance_genprime_of_accepted {s : State} {bits c : Nat} (h : (isPrime c Config.mrRounds s.rng).1 = true) :
    advance s (.genprime bits (some c)) = complete (.res0 c) (s.withRng (isPrime c Config.mrRounds s.rng).2) := by
  rw [advance, if_pos h]

theorem advance_genprime_of_rejected {s : State} {bits c : Nat} (h : (isPrime c Config.mrRounds s.rng).1 = false) :
    advance s (.genprime bits (some c)) =
      .next ((s.withRng (isPrime c Config.mrRounds s.rng).2).progress (.genprime bits none)) := by
  rw [advance, if_neg (Bool.eq_false_iff.1 h)]

/-- Settles O39: the phases of the search are those of `advance`. -/
theorem genprimeDrawsUntilACandidateIsAccepted : Obligations.GenprimeDrawsUntilACandidateIsAccepted := by
  refine ⟨rfl, fun s => ⟨fun hidle => ⟨fun h => refuses_issue hidle fun l hl => ?refusal,
    fun bits hbits h0 => ?issue⟩, fun bits hrun h0 => ?draw,
    fun bits c hrun => ⟨fun hc hfit => ?accepted, fun hc => ?rejected⟩⟩⟩
  case refusal =>
    obtain ⟨bits, hbits, h0, -⟩ := latchGenprime_ok_iff.1 hl
    simp [hbits, h0] at h
  case issue => exact exec_idle_of_latch (i := .genprime) hidle (latchGenprime_ok_iff.2 ⟨bits, hbits, h0, rfl⟩)
  case draw =>
    obtain ⟨hodd, hlow, hhigh⟩ := drawCandidate_spec h0 s.rng
    exact ⟨_, rfl, hodd, hlow, hhigh, exec_running hrun⟩
  case accepted =>
    exact (exec_running hrun).trans ((advance_genprime_of_accepted hc).trans (complete_of_fits hfit))
  case rejected => exact (exec_running hrun).trans (advance_genprime_of_rejected hc)

/-! ### The search for a prime of one bit (R177) -/

/-- `GENPRIME` is running with `ARG` = 1, and a candidate it holds is 1, the only odd number of one bit. -/
def SearchesOneBit (s : State) : Prop := ∃ c, s.Running (.genprime 1 c) ∧ ∀ x, c = some x → x = 1

/-- The engine's turn draws the candidate 1 or discards it. -/
theorem exec_searchesOneBit {s : State} (h : SearchesOneBit s) :
    ∃ t, exec .genprime s = .next t ∧ SearchesOneBit t := by
  obtain ⟨c, hrun, hone⟩ := h
  have ⟨hbusy, _⟩ := hrun
  cases c with
  | none =>
    obtain ⟨-, hlow, hhigh⟩ := drawCandidate_spec one_ne_zero s.rng
    have hdrawn : (drawCandidate 1 s.rng).1 = 1 := by omega
    exact ⟨_, exec_running hrun, _, ⟨hbusy, rfl⟩, fun x hx => (Option.some.inj hx).symm.trans hdrawn⟩
  | some c =>
    obtain rfl := hone c rfl
    have hrejected := advance_genprime_of_rejected (bits := 1)
      (congrArg Prod.fst (isPrime_of_le_one (rounds := Config.mrRounds) (g := s.rng) le_rfl))
    exact ⟨_, (exec_running hrun).trans hrejected, none, ⟨hbusy, rfl⟩, nofun⟩

theorem steps_searchesOneBit {s : State} {k : Nat} (h : SearchesOneBit s) (hag : s.agenda = List.replicate k .engine) :
    ∃ t, steps k s = .next t ∧ t.agenda = [] ∧ SearchesOneBit t := by
  induction k generalizing s with
  | zero => exact ⟨s, rfl, hag, h⟩
  | succ k ih =>
    have ⟨c, hrun, _⟩ := h
    obtain ⟨u, hexec, hu⟩ := exec_searchesOneBit (s := { s with agenda := List.replicate k .engine }) h
    rw [steps_succ_of_next ((step_engine_running hrun hag).trans hexec)]
    exact ih hu (exec_sameOutside hexec).agenda

/-- Settles O40: the issue starts the search for a prime of one bit, and every turn of the engine keeps it up. -/
theorem genprimeOfOneBitNeverCompletes : Obligations.GenprimeOfOneBitNeverCompletes := by
  intro s k hidle harg hag
  have hlatch := latchGenprime_ok_iff.2 ⟨1, harg, one_ne_zero, rfl⟩
  obtain ⟨u, hstep, hrun, hagu, -⟩ := step_cmd_of_accepted (i := .genprime) hidle hag hlatch
  obtain ⟨t, hsteps, hagt, c, ⟨hbusy, -⟩, -⟩ := steps_searchesOneBit ⟨none, hrun, nofun⟩ hagu
  exact ⟨t, (steps_succ_of_next hstep).trans hsteps, hagt, hbusy⟩

end Sys2Proof.Machine

/-! ## Key generation (O41 to O43) -/

namespace Sys2Proof.Machine

/-! ### The issue of `GENKEY` (R191, R197) -/

theorem supportsBits_iff {p : Params} {bits : Nat} :
    supportsBits p bits = true ↔ bits ∈ p.supportedBits ∧ bits % 2 = 0 ∧ 4 ≤ bits := by
  simp [supportsBits, and_assoc]

theorem latchGenkey_ok_iff {p : Params} {e : Engine} {l : Latch} : latchGenkey p e = .ok l ↔
    ∃ bits, e.arg = some bits ∧ supportsBits p bits = true ∧ .genkey bits none none = l := by
  simp [latchGenkey, bind_ok_iff, need_ok_iff, require_ok_iff, pure, Except.pure]

/-! ### The phases of the search (R190) -/

section

variable {s : State} {bits c : Nat} {p : Option Nat}

theorem advance_genkey_draw : advance s (.genkey bits p none) =
    .next ((s.withRng (drawCandidate (bits / 2) s.rng).2).progress
      (.genkey bits p (some (drawCandidate (bits / 2) s.rng).1))) := by
  cases p <;> rfl

theorem advance_genkey_of_rejected (h : (isPrime c Config.mrRounds s.rng).1 = false) :
    advance s (.genkey bits p (some c)) =
      .next ((s.withRng (isPrime c Config.mrRounds s.rng).2).progress (.genkey bits p none)) := by
  cases p <;> rw [advance, if_neg (Bool.eq_false_iff.1 h)]

theorem advance_genkey_of_first_accepted (h : (isPrime c Config.mrRounds s.rng).1 = true) :
    advance s (.genkey bits none (some c)) =
      .next ((s.withRng (isPrime c Config.mrRounds s.rng).2).progress (.genkey bits (some c) none)) := by
  rw [advance, if_pos h]

theorem advance_genkey_of_second_accepted {p : Nat} (h : (isPrime c Config.mrRounds s.rng).1 = true) :
    advance s (.genkey bits (some p) (some c)) =
      conclude .genkey (deriveKey p c) (s.withRng (isPrime c Config.mrRounds s.rng).2) := by
  rw [advance, if_pos h]

end

/-! ### The derivation of the key from p and q (R190) -/

theorem modInverse_eq_none_iff {e phi : Nat} : modInverse e phi = none ↔ Nat.gcd e phi ≠ 1 := by
  simp [modInverse, egcd_gcd]

theorem deriveKey_of_some {p q d : Nat} (h : modInverse Config.eFixed ((p - 1) * (q - 1)) = some d) :
    deriveKey p q = .ok (.key (p * q) Config.eFixed d p q) := by
  simp only [deriveKey, h]

theorem deriveKey_of_none {p q : Nat} (h : modInverse Config.eFixed ((p - 1) * (q - 1)) = none) :
    deriveKey p q = .error (.raise .noInverse 0 0) := by
  simp only [deriveKey, h]

theorem pred_mul_pred_ne_zero {p q : Nat} (hp : 1 < p) (hq : 1 < q) : (p - 1) * (q - 1) ≠ 0 :=
  Nat.mul_ne_zero (by omega) (by omega)

/-- The parts of a key pair are no larger than its modulus, but for the exponent, which is fixed. -/
theorem fits_key {params : Params} {p q d : Nat} (hp : 1 < p) (hq : 1 < q) (hd : d < (p - 1) * (q - 1))
    (hn : fitsInt params (p * q : Nat) = true) (he : fitsInt params (Config.eFixed : Nat) = true) :
    (Result.key (p * q) Config.eFixed d p q).fits params = true := by
  have hdn : d ≤ p * q := hd.le.trans (Nat.mul_le_mul (Nat.sub_le p 1) (Nat.sub_le q 1))
  have hpn : p ≤ p * q := Nat.le_mul_of_pos_right p (by omega)
  have hqn : q ≤ p * q := Nat.le_mul_of_pos_left q (by omega)
  simp only [Result.fits, hn, he, fitsInt_mono hdn hn, fitsInt_mono hpn hn, fitsInt_mono hqn hn, Bool.and_self]

/-! ### The last step of `GENKEY` (R190, R255) -/

section

variable {s t : State} {bits p q : Nat}

/-- When 65537 has an inverse, the accepted q ends the command with the key pair. -/
theorem exec_genkey_of_coprime (hrun : s.Running (.genkey bits (some p) (some q)))
    (hacc : (isPrime q Config.mrRounds s.rng).1 = true) (hp : 1 < p) (hq : 1 < q)
    (hg : Nat.gcd Config.eFixed ((p - 1) * (q - 1)) = 1) (hn : fitsInt s.params (p * q : Nat) = true)
    (he : fitsInt s.params (Config.eFixed : Nat) = true) :
    ∃ d, d < (p - 1) * (q - 1) ∧ Config.eFixed * d % ((p - 1) * (q - 1)) = 1 % ((p - 1) * (q - 1)) ∧
      exec .genkey s = .next
        ((s.withRng (isPrime q Config.mrRounds s.rng).2).succeed (.key (p * q) Config.eFixed d p q)) := by
  obtain ⟨d, hd, hlt, hinv⟩ := modInverse_some (pred_mul_pred_ne_zero hp hq) hg
  refine ⟨d, hlt, hinv, (exec_running hrun).trans ?_⟩
  rw [advance_genkey_of_second_accepted hacc, deriveKey_of_some hd]
  exact complete_of_fits (fits_key hp hq hlt hn he)

/-- A last step that ends the command without an error has written the key pair. -/
theorem key_of_exec_genkey (hrun : s.Running (.genkey bits (some p) (some q))) (hexec : exec .genkey s = .next t)
    (hidle : t.engine.busy = false) (herr : t.engine.err = 0) :
    (isPrime q Config.mrRounds s.rng).1 = true ∧ ∃ d, modInverse Config.eFixed ((p - 1) * (q - 1)) = some d ∧
      t = (s.withRng (isPrime q Config.mrRounds s.rng).2).succeed (.key (p * q) Config.eFixed d p q) := by
  have hadv : advance s (.genkey bits (some p) (some q)) = .next t := (exec_running hrun).symm.trans hexec
  cases hacc : (isPrime q Config.mrRounds s.rng).1 with
  | false =>
    rw [advance_genkey_of_rejected hacc] at hadv
    cases hadv
    exact absurd (hrun.left.symm.trans hidle) (by decide)
  | true =>
    rw [advance_genkey_of_second_accepted hacc] at hadv
    cases hd : modInverse Config.eFixed ((p - 1) * (q - 1)) with
    | some d =>
      rw [deriveKey_of_some hd] at hadv
      exact ⟨rfl, d, rfl, (complete_next_iff.1 hadv).right⟩
    | none =>
      rw [deriveKey_of_none hd, conclude, fail_zero] at hadv
      cases hadv
      exact absurd (show Err.noInverse.code = 0 from herr) (by decide)

end

/-- Settles O41: the phases are those of `advance`, and the last step ends as the gcd decides. -/
theorem genkeyWritesTheKeyPairOrReportsNone : Obligations.GenkeyWritesTheKeyPairOrReportsNone := by
  refine ⟨rfl, fun s => ⟨fun hidle => ⟨refuses_of_arg_none hidle (by decide),
    fun bits hbits => ⟨fun hnot => refuses_issue hidle fun l hl => ?unsupported, fun hmem heven h4 => ?issue⟩⟩,
    fun bits p hrun => ?draw, fun bits p c hrun hc => ?rejected, fun bits c hrun hc => ?first,
    fun bits p q hrun hc hp hq => ⟨fun hg hn he => ?keyPair, fun hg => ?noInverse⟩⟩⟩
  case unsupported =>
    obtain ⟨b, hb, hsupported, -⟩ := latchGenkey_ok_iff.1 hl
    obtain rfl : bits = b := Option.some.inj (hbits.symm.trans hb)
    exact hnot (supportsBits_iff.1 hsupported).left
  case issue =>
    exact exec_idle_of_latch (i := .genkey) hidle
      (latchGenkey_ok_iff.2 ⟨bits, hbits, supportsBits_iff.2 ⟨hmem, heven, h4⟩, rfl⟩)
  case draw => exact (exec_running hrun).trans advance_genkey_draw
  case rejected => exact (exec_running hrun).trans (advance_genkey_of_rejected hc)
  case first => exact (exec_running hrun).trans (advance_genkey_of_first_accepted hc)
  case keyPair => exact exec_genkey_of_coprime hrun hc hp hq hg hn he
  case noInverse =>
    refine (exec_running hrun).trans ?_
    rw [advance_genkey_of_second_accepted hc, deriveKey_of_none (modInverse_none hg)]
    exact fail_zero

/-! ### When 65537 has no inverse (R192) -/

theorem prime_eFixed : Nat.Prime Config.eFixed := by norm_num [Config.eFixed]

theorem gcd_eFixed_eq_one_iff {p q : Nat} : Nat.gcd Config.eFixed ((p - 1) * (q - 1)) = 1 ↔
    ¬ (Config.eFixed ∣ p - 1 ∨ Config.eFixed ∣ q - 1) := by
  rw [← prime_eFixed.dvd_mul]
  exact prime_eFixed.coprime_iff_not_dvd

theorem modInverse_eFixed_eq_none_iff {p q : Nat} :
    modInverse Config.eFixed ((p - 1) * (q - 1)) = none ↔ Config.eFixed ∣ p - 1 ∨ Config.eFixed ∣ q - 1 :=
  modInverse_eq_none_iff.trans (not_iff_comm.1 gcd_eFixed_eq_one_iff.symm)

/-- The divisors of a prime are its powers 1 and itself. -/
theorem egcd_eFixed_eq_pow (n : Nat) : ∃ j, (egcd Config.eFixed n).1 = Config.eFixed ^ j := by
  rw [egcd_gcd]
  rcases (Nat.dvd_prime prime_eFixed).1 (Nat.gcd_dvd_left _ n) with hone | hself
  · exact ⟨0, by rw [hone, pow_zero]⟩
  · exact ⟨1, by rw [hself, pow_one]⟩

/-- An odd p = 65537 · k + 1 has k even, and the six such numbers with 0 < k < 14 are composite. -/
theorem le_of_prime_of_eFixed_dvd {p : Nat} (hp : p.Prime) (hodd : p % 2 = 1) (hdvd : Config.eFixed ∣ p - 1) :
    917519 ≤ p := by
  obtain ⟨k, hk⟩ := hdvd
  have hpk : p = 65537 * (2 * (k / 2)) + 1 := by
    have h2 := hp.two_le
    rw [Config.eFixed] at hk
    omega
  by_contra hlt
  have hj : k / 2 < 7 := by omega
  generalize k / 2 = j at hpk hj
  subst hpk
  interval_cases j <;> norm_num at hp

/-- A candidate of fewer than 20 bits is below the smallest prime of that form. -/
theorem not_eFixed_dvd_of_candidate {b p : Nat} (hb : b < 20) (hc : IsCandidate b p) (hp : p.Prime) :
    ¬ Config.eFixed ∣ p - 1 := fun hdvd => by
  obtain ⟨hodd, hlen⟩ := hc
  have hlt : p < 2 ^ 19 := bitlen_le_iff.1 (by omega)
  exact absurd (le_of_prime_of_eFixed_dvd hp hodd hdvd) (by omega)

/-- What the invariant says of the last step of `GENKEY`. -/
theorem State.Inv.genkey_legal {s : State} {bits p q : Nat} (h : s.Inv)
    (hrun : s.Running (.genkey bits (some p) (some q))) :
    s.engine.arg = some bits ∧ supportsBits s.params bits = true ∧ IsCandidate (bits / 2) p ∧ Accepted p ∧
      IsCandidate (bits / 2) q := by
  have ⟨_, hlatch⟩ := hrun
  obtain ⟨hbits, hp, hq⟩ := h.legal _ hlatch
  exact ⟨h.held _ hlatch, hbits, (hp p rfl).left, (hp p rfl).right, hq q rfl⟩

/-- Settles O42: 65537 is prime, so what it has in common with (p − 1)(q − 1) it has with a factor. -/
theorem noInverseNeedsAPrimeOfItsForm : Obligations.NoInverseNeedsAPrimeOfItsForm := by
  refine ⟨fun p q _ _ => modInverse_eFixed_eq_none_iff, fun p q => egcd_eFixed_eq_pow _,
    fun p => le_of_prime_of_eFixed_dvd, by norm_num, rfl,
    modInverse_eFixed_eq_none_iff.2 (.inl ⟨14, rfl⟩), fun s bits p q hinv hrun hp hq h40 hn he => ?small⟩
  obtain ⟨-, -, hcp, -, hcq⟩ := hinv.genkey_legal hrun
  have hsize : bits / 2 < 20 := by omega
  have hg : Nat.gcd Config.eFixed ((p - 1) * (q - 1)) = 1 := gcd_eFixed_eq_one_iff.2
    (not_or.2 ⟨not_eFixed_dvd_of_candidate hsize hcp hp, not_eFixed_dvd_of_candidate hsize hcq hq⟩)
  obtain ⟨d, -, -, hexec⟩ := exec_genkey_of_coprime hrun (everyPrimeIsAccepted q _ s.rng hq) hp.one_lt hq.one_lt
    hg hn he
  exact ⟨_, hexec, rfl, rfl, rfl⟩

/-! ### The invariants of a key pair (R193, R195) -/

/-- The product of two numbers of half the bits. -/
theorem mul_size {bits p q : Nat} (heven : bits % 2 = 0) (h2 : 2 ≤ bits) (hp : bitlen p = bits / 2)
    (hq : bitlen q = bits / 2) : 2 ^ (bits - 2) ≤ p * q ∧ p * q < 2 ^ bits := by
  obtain ⟨hplow, hphigh⟩ := (bitlen_eq_iff (by omega)).1 hp
  obtain ⟨hqlow, hqhigh⟩ := (bitlen_eq_iff (by omega)).1 hq
  have hhalves : bits = bits / 2 + bits / 2 := by omega
  constructor
  · calc 2 ^ (bits - 2) = 2 ^ (bits / 2 - 1) * 2 ^ (bits / 2 - 1) := by rw [← pow_add]; congr 1; omega
      _ ≤ p * q := Nat.mul_le_mul hplow hqlow
  · calc p * q < 2 ^ (bits / 2) * 2 ^ (bits / 2) := Nat.mul_lt_mul'' hphigh hqhigh
      _ = 2 ^ bits := by rw [← pow_add, ← hhalves]

theorem bitlen_of_size {bits n : Nat} (hlow : 2 ^ (bits - 2) ≤ n) (hhigh : n < 2 ^ bits) :
    bitlen n = bits ∨ bitlen n = bits - 1 := by
  have hge : ¬ bitlen n ≤ bits - 2 := by rwa [bitlen_le_iff, Nat.not_lt]
  have hle : bitlen n ≤ bits := bitlen_le_iff.2 hhigh
  omega

theorem byteLen_of_bitlen {bits n : Nat} (h : bitlen n = bits ∨ bitlen n = bits - 1) (h8 : bits % 8 = 0) :
    byteLen n = bits / 8 := by
  unfold byteLen
  omega

theorem three_le_of_accepted {c : Nat} (hodd : c % 2 = 1) (h : Accepted c) : 3 ≤ c := by
  obtain ⟨g, hg⟩ := h
  have := two_le_of_isPrime hg
  omega

/-- Settles O43: a success is a key pair whose primes the invariant and the last test describe. -/
theorem generatedKeyPairMeetsItsInvariants : Obligations.GeneratedKeyPairMeetsItsInvariants := by
  intro s t bits p q hinv hrun hexec hidle herr
  obtain ⟨harg, hsupported, ⟨hoddp, hlenp⟩, haccp, hoddq, hlenq⟩ := hinv.genkey_legal hrun
  obtain ⟨-, heven, h4⟩ := supportsBits_iff.1 hsupported
  obtain ⟨hq, d, hd, rfl⟩ := key_of_exec_genkey hrun hexec hidle herr
  have haccq : Accepted q := ⟨s.rng, hq⟩
  have hp3 := three_le_of_accepted hoddp haccp
  have hq3 := three_le_of_accepted hoddq haccq
  have hphi : 1 < (p - 1) * (q - 1) := Nat.one_lt_mul_iff.2 (by omega)
  have hg : Nat.gcd Config.eFixed ((p - 1) * (q - 1)) = 1 :=
    not_not.1 (mt modInverse_eq_none_iff.2 (by simp [hd]))
  obtain ⟨d', hd', hlt, hmod⟩ := modInverse_some (by omega) hg
  obtain rfl : d = d' := Option.some.inj (hd.symm.trans hd')
  rw [Nat.mod_eq_of_lt hphi] at hmod
  have hpos : 0 < d := Nat.pos_of_ne_zero fun h0 => by simp [h0] at hmod
  obtain ⟨hlow, hhigh⟩ := mul_size heven (by omega) hlenp hlenq
  have hlen := bitlen_of_size hlow hhigh
  exact ⟨d, rfl, rfl, rfl, rfl, rfl, harg, hmod, Nat.Coprime.symm hg, hpos, hlt, hlenp, hlenq, hoddp, hoddq, haccp,
    haccq, hlow, hhigh, hlen, byteLen_of_bitlen hlen⟩

end Sys2Proof.Machine

/-! ## The OAEP codec (O45 to O50) -/

namespace Sys2Proof.Machine

/-! ### The encoded message and the blocks (R203, U20) -/

theorem modExp_lt_pow_byteLen (b x : Nat) {n : Nat} (h : byteLen n ≠ 0) : modExp b x n < 256 ^ byteLen n :=
  (modExp_lt b x fun hn => h (by rw [hn]; rfl)).trans (lt_pow_byteLen n)

/-- Settles O46: EM begins with a zero byte, so it is below 256^(k − 1), and the power is below the modulus. -/
theorem encodedMessageIsBelowTheModulus : Obligations.EncodedMessageIsBelowTheModulus := fun _ x _ _ _ hm hs =>
  ⟨encodedMessage_length hm hs, encodedMessage_lt hm hs, modExp_lt_pow_byteLen _ x (by omega)⟩

/-- The residue of a block's value fits the block, even modulo 0. -/
theorem intOf_be_residue {c : Bytes} {n : Nat} (h : c.length = byteLen n) :
    intOf (be (intOf c % n) (byteLen n)) = intOf c % n :=
  intOf_be_of_lt ((Nat.mod_le _ n).trans_lt (h ▸ intOf_lt c))

/-- Settles O48: the exponentiation reduces its base. -/
theorem blocksDecodeLikeTheirResidues : Obligations.BlocksDecodeLikeTheirResidues := by
  intro c lbl n d hc
  rw [oaepDecode_of_length hc, oaepDecode_of_length (be_length _ _), intOf_be_residue hc, ← Nat.pow_mod]

/-! ### Decoding undoes encoding (R207, R208) -/

/-- Fermat's little theorem, for the multiples of the prime too. -/
theorem pow_modEq_self {p k : Nat} (hp : p.Prime) (hk : 1 ≤ k) (hdvd : p - 1 ∣ k - 1) (y : Nat) : y ^ k ≡ y [MOD p] := by
  simpa [← Int.natCast_modEq_iff] using Int.ModEq.pow_eq_pow hp hdvd hk one_pos y

theorem length_le_of_oaepEncode {m lbl seed c : Bytes} {n x : Nat} (h : oaepEncode m n x lbl seed = .ok c) :
    m.length + 66 ≤ byteLen n := by
  by_contra hlt
  rw [oaepEncode, if_pos (messageTooLong_iff.2 (Nat.not_le.1 hlt))] at h
  cases h

theorem be_intOf_encodedMessage {k : Nat} {m lbl seed : Bytes} (hm : m.length + 66 ≤ k) (hs : seed.length = 32) :
    be (intOf (encodedMessage k m lbl seed)) k = encodedMessage k m lbl seed := by
  have h := be_intOf (encodedMessage k m lbl seed)
  rwa [encodedMessage_length hm hs] at h

section

variable {p q x d : Nat} (hp : p.Prime) (hq : q.Prime) (hpq : p ≠ q) (hxd : x * d % ((p - 1) * (q - 1)) = 1)
include hp hq hpq hxd

/-- The theorem RSA rests on: x · d is 1 more than a multiple of p − 1 and of q − 1, and p and q are coprime. -/
theorem pow_pow_mod_mul_primes {y : Nat} (hy : y < p * q) : (y ^ x % (p * q)) ^ d % (p * q) = y := by
  have hdvd : (p - 1) * (q - 1) ∣ x * d - 1 := by
    simpa only [hxd] using Nat.dvd_sub_mod (n := (p - 1) * (q - 1)) (x * d)
  have hpos : 1 ≤ x * d := hxd.symm.trans_le (Nat.mod_le _ _)
  have hmod : y ^ (x * d) ≡ y [MOD p * q] :=
    (Nat.modEq_and_modEq_iff_modEq_mul ((Nat.coprime_primes hp hq).2 hpq)).1
      ⟨pow_modEq_self hp hpos (dvd_of_mul_right_dvd hdvd) y, pow_modEq_self hq hpos (dvd_of_mul_left_dvd hdvd) y⟩
  rw [← Nat.pow_mod, ← pow_mul, hmod, Nat.mod_eq_of_lt hy]

/-- Exponentiation by d undoes that by x, so the decoder makes its checks on EM itself. -/
theorem oaepDecode_of_oaepEncode {m lbl seed c : Bytes} (lbl' : Bytes) (hs : seed.length = 32)
    (hc : oaepEncode m (p * q) x lbl seed = .ok c) :
    oaepDecode c (p * q) d lbl' = if sha256 lbl' = sha256 lbl then .ok m else .error (.raise .invalidLabelHash 0 0) := by
  have hm := length_le_of_oaepEncode hc
  rw [oaepEncode_of_fits hm, Except.ok.injEq] at hc
  subst hc
  rw [oaepDecode_of_length (be_length _ _), intOf_be_of_lt (modExp_lt_pow_byteLen _ x (by omega)), modExp_eq,
    pow_pow_mod_mul_primes hp hq hpq hxd (encodedMessage_lt hm hs), be_intOf_encodedMessage hm hs]
  exact unpadMessage_encodedMessage hm hs

end

/-- Settles O49: a message that fits is encoded, and the label's digest is its own. -/
theorem oaepDecodeUndoesEncode : Obligations.OaepDecodeUndoesEncode := by
  intro p q x d m lbl seed hp hq hpq hxd hk hm hs
  have hc := oaepEncode_of_fits (label := lbl) (seed := seed) (e := x) (show m.length + 66 ≤ byteLen (p * q) by omega)
  exact ⟨_, hc, be_length _ _, (oaepDecode_of_oaepEncode hp hq hpq hxd lbl hs hc).trans (if_pos rfl)⟩

/-- Settles O50: of the decoder's checks on an encoded message only the one of the digest can fail. -/
theorem wrongLabelFailsOnTheLabelHash : Obligations.WrongLabelFailsOnTheLabelHash := by
  intro p q x d m lbl lbl' seed c hp hq hpq hxd hs hc
  rw [oaepDecode_of_oaepEncode hp hq hpq hxd lbl' hs hc]
  split
  · exact iff_of_false nofun (not_not.2 ‹_›)
  · exact iff_of_true rfl ‹_›

/-! ### `OAEP_ENC` (R202) -/

theorem latchOaepEnc_ok_iff {e : Engine} {l : Latch} : latchOaepEnc e = .ok l ↔
    ∃ m n x, e.msg = some m ∧ e.kn = some n ∧ e.ke = some x ∧ e.lbl.length < 2 ^ 61 ∧ .oaepEnc m e.lbl n x = l := by
  rw [show (2 : Nat) ^ 61 = Config.hashLimit from rfl]
  simp [latchOaepEnc, bind_ok_iff, need_ok_iff, require_ok_iff, pure, Except.pure]

section

variable {s : State} {m lbl : Bytes} {n x : Nat}

theorem advance_oaepEnc_of_tooLong (h : byteLen n < m.length + 66) :
    advance s (.oaepEnc m lbl n x) = fail .oaepEnc .messageTooLong (byteLen n - 66) m.length s := by
  rw [advance, if_pos (messageTooLong_iff.2 h)]
  rfl

/-- The masked data block is hashed with a counter of 4 bytes (R109). -/
theorem refuses_oaepEnc_of_maskedBlock (hm : m.length + 66 ≤ byteLen n) (hn : 2 ^ 61 + 29 ≤ byteLen n) :
    Refuses (advance s (.oaepEnc m lbl n x)) := by
  rw [advance, messageTooLong_false hm, maskedBlockTooLong_iff.2 hn]
  exact ⟨_, rfl⟩

theorem advance_oaepEnc_of_fits (hm : m.length + 66 ≤ byteLen n) (hn : byteLen n < 2 ^ 61 + 29) :
    advance s (.oaepEnc m lbl n x) =
      complete (.out (be (intOf (encodedMessage (byteLen n) m lbl (drawSeed s.rng).1) ^ x % n) (byteLen n)))
        (s.withRng (drawSeed s.rng).2) := by
  rw [advance, messageTooLong_false hm, maskedBlockTooLong_false hn, oaepEncode_of_fits hm, modExp_eq]
  rfl

end

/-- Settles O45: the three ends of the operation are told apart by k, and the issue by the checks of R202. -/
theorem oaepEncWritesTheBlockOrReportsTheLength : Obligations.OaepEncWritesTheBlockOrReportsTheLength := by
  refine ⟨rfl, fun s => ⟨fun hidle => ⟨fun h => refuses_issue hidle fun l hl => ?refusal,
    fun m n x hm hn hx hlbl => ?accepted⟩, fun m lbl n x hrun hm hn hfit => ⟨?length, ?block⟩,
    fun m lbl n x hrun hm hn => ?hashLimit, fun m lbl n x hrun hm hfit => ?tooLong⟩⟩
  case refusal =>
    obtain ⟨m, n, x, hm, hn, hx, hlbl, -⟩ := latchOaepEnc_ok_iff.1 hl
    simp only [hm, hn, hx, reduceCtorEq, false_or] at h
    exact h.not_gt hlbl
  case accepted =>
    exact exec_idle_of_latch (i := .oaepEnc) hidle (latchOaepEnc_ok_iff.2 ⟨m, n, x, hm, hn, hx, hlbl, rfl⟩)
  case length => exact encodedMessage_length hm (drawSeed_length s.rng)
  case block =>
    exact (exec_running hrun).trans ((advance_oaepEnc_of_fits hm hn).trans
      (complete_of_fits (by rwa [Result.fits, be_length])))
  case hashLimit => exact refuses_exec hrun (refuses_oaepEnc_of_maskedBlock hm hn)
  case tooLong =>
    rw [show (max ((byteLen n : Int) - 66) 0).toNat = byteLen n - 66 by omega]
    exact (exec_running hrun).trans ((advance_oaepEnc_of_tooLong hm).trans
      (fail_of_fits (fitsInt_mono (by omega) hfit) hfit))

/-! ### `OAEP_DEC`: the issue and the scan (R205, R210, R204) -/

theorem latchOaepDec_ok_iff {e : Engine} {l : Latch} : latchOaepDec e = .ok l ↔
    ∃ c n d, e.msg = some c ∧ e.kn = some n ∧ e.kd = some d ∧ 66 ≤ byteLen n ∧ e.lbl.length < 2 ^ 61 ∧
      .oaepDec c e.lbl n d = l := by
  rw [show (2 : Nat) ^ 61 = Config.hashLimit from rfl, show 66 = Config.oaepOverhead from rfl]
  simp [latchOaepDec, bind_ok_iff, need_ok_iff, require_ok_iff, pure, Except.pure]

/-- The scan finds no message. -/
theorem paddingScan_eq_none_iff {x : Bytes} :
    paddingScan x = none ↔ ¬ ∃ z m, x = List.replicate z 0x00 ++ [0x01] ++ m := by
  simp only [Option.eq_none_iff_forall_ne_some, ne_eq, paddingScan_eq_some_iff]
  exact ⟨fun h ⟨z, m, hx⟩ => h m ⟨z, hx⟩, fun h m ⟨z, hx⟩ => h ⟨z, m, hx⟩⟩

/-! ### The checks on EM, in their order (R204) -/

section

variable {k : Nat} {em lbl : Bytes}

theorem unpadMessage_of_head_ne (h : em.head? ≠ some 0x00) :
    unpadMessage k em lbl = .error (.raise .invalidPadding 0 0) := if_pos h

variable (h0 : em.head? = some 0x00)
include h0

theorem unpadMessage_of_digest_ne (h : (recoveredDB k em).take Config.hLen ≠ sha256 lbl) :
    unpadMessage k em lbl = .error (.raise .invalidLabelHash 0 0) :=
  (if_neg (not_not.2 h0)).trans (if_pos h)

variable (hdb : (recoveredDB k em).take Config.hLen = sha256 lbl)
include hdb

theorem unpadMessage_of_not_padded
    (h : ¬ ∃ z m, (recoveredDB k em).drop Config.hLen = List.replicate z 0x00 ++ [0x01] ++ m) :
    unpadMessage k em lbl = .error (.raise .invalidPadding 0 0) := by
  simp [unpadMessage, h0, hdb, paddingScan_eq_none_iff.2 h]

theorem unpadMessage_of_padded {z : Nat} {m : Bytes}
    (h : (recoveredDB k em).drop Config.hLen = List.replicate z 0x00 ++ [0x01] ++ m) :
    unpadMessage k em lbl = .ok m := by
  simp [unpadMessage, h0, hdb, paddingScan_eq_some_iff.2 ⟨z, h⟩]

end

/-! ### The ends of `OAEP_DEC` (R205, R109) -/

section

variable {s : State} {c lbl : Bytes} {n d : Nat}

theorem advance_oaepDec_of_masks (h : reachesMasks c n d = true → byteLen n < 2 ^ 61 + 29) :
    advance s (.oaepDec c lbl n d) = conclude .oaepDec ((oaepDecode c n d lbl).map .out) s := by
  refine if_neg ?_
  rw [Bool.and_eq_true, maskedBlockTooLong_iff]
  exact fun ⟨hreach, hlong⟩ => hlong.not_gt (h hreach)

theorem refuses_oaepDec_of_maskedBlock (h : reachesMasks c n d = true) (hn : 2 ^ 61 + 29 ≤ byteLen n) :
    Refuses (advance s (.oaepDec c lbl n d)) := by
  rw [advance, h, maskedBlockTooLong_iff.2 hn]
  exact ⟨_, rfl⟩

variable (hrun : s.Running (.oaepDec c lbl n d)) (hmasks : reachesMasks c n d = true → byteLen n < 2 ^ 61 + 29)
include hrun hmasks

theorem exec_oaepDec_of_ok {m : Bytes} (hok : oaepDecode c n d lbl = .ok m) (hfit : fitsBuf s.params m.length = true) :
    exec .oaepDec s = .next (s.succeed (.out m)) := by
  refine (exec_running hrun).trans ((advance_oaepDec_of_masks hmasks).trans ?_)
  rw [hok]
  exact complete_of_fits hfit

theorem exec_oaepDec_of_error {x : Err} {exp act : Nat} (herr : oaepDecode c n d lbl = .error (.raise x exp act))
    (hexp : fitsInt s.params exp = true) (hact : fitsInt s.params act = true) :
    exec .oaepDec s = .next (errorEntry .oaepDec x exp act s) := by
  refine (exec_running hrun).trans ((advance_oaepDec_of_masks hmasks).trans ?_)
  rw [herr]
  exact fail_of_fits hexp hact

end

/-- Settles O47: the premises of each clause are the outcomes of the checks before it. -/
theorem oaepDecMakesItsChecksInOrder : Obligations.OaepDecMakesItsChecksInOrder := by
  refine ⟨rfl, fun s => ⟨fun hidle => ⟨fun h => refuses_issue hidle fun l hl => ?noValue,
    fun c n d hc hn hd => ⟨fun hk => refuses_issue hidle fun l hl => ?smallModulus, fun hk hlbl => ?accepted⟩⟩,
    fun c lbl n d hrun _ => ⟨fun hc hexp hact => ?length, fun hc h0 => ?leadingByte, fun hc h0 hlong => ?hashLimit,
      fun hc h0 hn hdb => ?labelHash, fun hc h0 hn hdb hrest => ?padding,
      fun z msg hc h0 hn hdb hrest hfit => ?message⟩⟩⟩
  case noValue =>
    obtain ⟨c, n, d, hc, hn, hd, -, hlbl, -⟩ := latchOaepDec_ok_iff.1 hl
    simp only [hc, hn, hd, reduceCtorEq, false_or] at h
    exact h.not_gt hlbl
  case smallModulus =>
    obtain ⟨-, n', -, -, hn', -, hk', -⟩ := latchOaepDec_ok_iff.1 hl
    obtain rfl : n = n' := Option.some.inj (hn.symm.trans hn')
    exact hk.not_ge hk'
  case accepted =>
    exact exec_idle_of_latch (i := .oaepDec) hidle (latchOaepDec_ok_iff.2 ⟨c, n, d, hc, hn, hd, hk, hlbl, rfl⟩)
  case length =>
    exact exec_oaepDec_of_error hrun (fun h => absurd (reachesMasks_iff.1 h).left hc) (oaepDecode_of_length_ne hc) hexp
      hact
  case leadingByte =>
    exact exec_oaepDec_of_error hrun (fun h => absurd (reachesMasks_iff.1 h).right h0)
      ((oaepDecode_of_length hc).trans (unpadMessage_of_head_ne h0)) (fitsInt_zero _) (fitsInt_zero _)
  case hashLimit => exact refuses_exec hrun (refuses_oaepDec_of_maskedBlock (reachesMasks_iff.2 ⟨hc, h0⟩) hlong)
  case labelHash =>
    exact exec_oaepDec_of_error hrun (fun _ => hn)
      ((oaepDecode_of_length hc).trans (unpadMessage_of_digest_ne h0 hdb)) (fitsInt_zero _) (fitsInt_zero _)
  case padding =>
    exact exec_oaepDec_of_error hrun (fun _ => hn)
      ((oaepDecode_of_length hc).trans (unpadMessage_of_not_padded h0 hdb hrest)) (fitsInt_zero _) (fitsInt_zero _)
  case message =>
    exact exec_oaepDec_of_ok hrun (fun _ => hn)
      ((oaepDecode_of_length hc).trans (unpadMessage_of_padded h0 hdb hrest)) hfit

end Sys2Proof.Machine

/-! ## The host's codec sequences (O58) -/

namespace Sys2Proof.Machine

/-! ### The events of the sequences (R89, R90, R240) -/

theorem statusErr_statusWord (e : Engine) : statusErr (statusWord e) = e.err := by
  refine BitVec.eq_of_getLsbD_eq fun j hj => ?_
  rw [statusErr, BitVec.getLsbD_extractLsb', decide_eq_true hj, Bool.true_and, statusWord_getLsbD, if_neg (by omega),
    if_neg (by omega), if_neg (by omega), if_pos (by omega), Nat.add_sub_cancel_left]

/-- `ERR?` is a `STATUS` read; after an error the host leaves out its next events. -/
theorem step_errCheck {s : State} {skip : Nat} {rest : List Event} (hag : s.agenda = .errCheck skip :: rest) :
    step s = .next { s with
      agenda := if s.engine.err = 0 then rest else rest.drop skip
      reads := .word (statusWord s.engine) :: s.reads } := by
  rw [step_of_agenda_cons hag, handleEvent, hostErrCheck, statusErr_statusWord, successCode_eq]
  split <;> rfl

theorem step_rbuf_of_content {s : State} {r : Reg} {v : HostValue} {rest : List Event} (hb : s.engine.busy = false)
    (hag : s.agenda = Script.rbuf r :: rest) (hr : r.bufReadable = true) (hv : s.engine.content r = some v) :
    step s = .next { s with agenda := rest, reads := v :: s.reads } :=
  (step_of_agenda_cons hag).trans (hostAccess_readBuf_of_content (s := { s with agenda := rest }) hb hr hv)

theorem forEach_cons_append (i : Instr) (x : Bytes) (more : List Bytes) (later : List Event) :
    Script.forEach i (x :: more) ++ later =
      Script.wbuf .msg x :: (Script.run i ++ .errCheck (1 + (Script.forEach i more).length) ::
        Script.rbuf .out :: (Script.forEach i more ++ later)) := by
  simp [Script.forEach]

/-- What `ERR?` leaves out after an error is the read of `OUT` and the sequence over the other strings. -/
theorem drop_forEach (i : Instr) (more : List Bytes) (later : List Event) :
    (Script.rbuf .out :: (Script.forEach i more ++ later)).drop (1 + (Script.forEach i more).length) = later := by
  rw [Nat.add_comm, List.drop_succ_cons, List.drop_left]

/-! ### `RUN` of a command that completes in one step (R90) -/

section

variable {s : State} {l : Latch} {rest : List Event} (hint : s.params.maxIntBits = none)
  (hbuf : s.params.maxBufBytes = none) (hp : l.instr ≠ .genprime) (hg : l.instr ≠ .genkey)
  (hk : ∀ m lbl n x, l = .oaepEnc m lbl n x ∨ l = .oaepDec m lbl n x → byteLen n < 2 ^ 61 + 29)
include hint hbuf hp hg hk

/-- A `WAIT` leaves the engine that the one step of the operation makes of it: the polls change the reads only. -/
theorem steps_wait_advances (hrun : s.Running l) (hag : s.agenda = .wait :: rest) :
    ∃ u v t : State, steps 3 s = .next t ∧ Advances u l v ∧ u.engine = s.engine ∧ t.engine = v.engine ∧
      t.agenda = rest := by
  have ⟨hb, _⟩ := hrun
  have hpolled : State.Running { s with
    agenda := .wait :: rest, reads := .word (statusWord s.engine) :: s.reads } l := hrun
  obtain ⟨v, hexec, hbv, -⟩ := exec_completes hpolled hint hbuf hp hg hk
  refine ⟨_, v, { v with agenda := rest, reads := .word (statusWord v.engine) :: v.reads }, ?_,
    advances_of_next ((exec_running hpolled).symm.trans hexec), rfl, rfl, rfl⟩
  rw [steps_succ_of_next (step_wait_busy hb hag),
    steps_succ_of_next ((step_engine_running (by exact hrun) rfl).trans hexec),
    steps_succ_of_next (step_wait_idle hbv (exec_sameOutside hexec).agenda), steps]

theorem steps_run_advances (hb : s.engine.busy = false) (hag : s.agenda = Script.run l.instr ++ rest)
    (hl : latchOf s.params s.engine l.instr = .ok l) :
    ∃ u v t : State, steps 4 s = .next t ∧ Advances u l v ∧ u.engine = (s.accept l).engine ∧ t.engine = v.engine ∧
      t.agenda = rest := by
  have hissue : step s = .next (({ s with agenda := .wait :: rest } : State).takeAnswers.accept l) :=
    (step_writeCmd hb hag (decode_encode l.instr)).trans (exec_idle_of_latch hb hl)
  rw [steps_succ_of_next hissue]
  exact steps_wait_advances hint hbuf hp hg hk ⟨rfl, rfl⟩ rfl

end

/-! ### The report of a command whose destination is `OUT` (R87, R255) -/

theorem Err.code_ne_zero (x : Err) : x.code ≠ 0 := by cases x <;> decide

theorem Advances.msg_eq {s t : State} {l : Latch} (h : Advances s l t) : t.engine.msg = s.engine.msg := by
  cases h <;> simp

/-- `OUT` is written by a success and invalidated by an error, and `ERR` tells which it was. -/
theorem Advances.out_agrees_err {s t : State} {l : Latch} (h : Advances s l t) (hd : destinations l.instr = [.out]) :
    (t.engine.err = 0 → ∃ y, t.engine.out = some y) ∧ (t.engine.err ≠ 0 → t.engine.out = none) := by
  cases h with
  | success r g hr _ _ =>
    rw [hd] at hr
    cases r with
    | out y => exact ⟨fun _ => ⟨y, rfl⟩, fun h => absurd rfl h⟩
    | _ => cases hr
  | failure x exp act g _ _ _ =>
    refine ⟨fun h => absurd h x.code_ne_zero, fun _ => ?_⟩
    rw [errorEntry_engine, hd]
    rfl
  | progress l' g _ hi _ _ => rcases hi with hi | hi <;> rw [hi] at hd <;> cases hd

/-! ### A codec command over one string (R240) -/

/-- The issue is accepted: the sources hold values, and the modulus and the label are in range (R202, R205, R210). -/
theorem latchOf_codec {p : Params} {e : Engine} {i : Instr} {x : Bytes} {n : Nat} (hmsg : e.msg = some x)
    (hkn : e.kn = some n) (hn : 66 ≤ byteLen n) (hlbl : e.lbl.length < 2 ^ 61)
    (hkey : i = .oaepEnc ∧ e.ke ≠ none ∨ i = .oaepDec ∧ e.kd ≠ none) : ∃ l, latchOf p e i = .ok l := by
  rcases hkey with ⟨rfl, hke⟩ | ⟨rfl, hkd⟩
  · obtain ⟨k, hk⟩ := Option.ne_none_iff_exists'.1 hke
    exact ⟨_, latchOaepEnc_ok_iff.2 ⟨x, n, k, hmsg, hkn, hk, hlbl, rfl⟩⟩
  · obtain ⟨k, hk⟩ := Option.ne_none_iff_exists'.1 hkd
    exact ⟨_, latchOaepDec_ok_iff.2 ⟨x, n, k, hmsg, hkn, hk, hn, hlbl, rfl⟩⟩

/-- The write of `MSG` and `RUN` of a codec command: `MSG` stays, and `OUT` and `ERR` agree. -/
theorem steps_writeMsg_run_codec {s : State} {i : Instr} {x : Bytes} {n : Nat} {rest : List Event}
    (hb : s.engine.busy = false) (hint : s.params.maxIntBits = none) (hbuf : s.params.maxBufBytes = none)
    (hkn : s.engine.kn = some n) (hn : 66 ≤ byteLen n) (hn' : byteLen n < 2 ^ 61 + 29)
    (hlbl : s.engine.lbl.length < 2 ^ 61)
    (hkey : i = .oaepEnc ∧ s.engine.ke ≠ none ∨ i = .oaepDec ∧ s.engine.kd ≠ none)
    (hag : s.agenda = Script.wbuf .msg x :: (Script.run i ++ rest)) :
    ∃ t : State, steps 5 s = .next t ∧ t.agenda = rest ∧ t.engine.busy = false ∧ t.engine.msg = some x ∧
      (t.engine.err = 0 → ∃ y, t.engine.out = some y) ∧ (t.engine.err ≠ 0 → t.engine.out = none) := by
  obtain ⟨l, hl⟩ := latchOf_codec (p := s.params) (e := { s.engine with msg := some x }) rfl hkn hn hlbl hkey
  obtain ⟨rfl, hheld, -⟩ := latchOf_spec hl
  have hcodec : l.instr = .oaepEnc ∨ l.instr = .oaepDec := hkey.imp And.left And.left
  obtain ⟨hp, hg, hd⟩ : l.instr ≠ .genprime ∧ l.instr ≠ .genkey ∧ destinations l.instr = [.out] := by
    rcases hcodec with h | h <;> rw [h] <;> decide
  have hk m lbl n' k (h : l = .oaepEnc m lbl n' k ∨ l = .oaepDec m lbl n' k) : byteLen n' < 2 ^ 61 + 29 := by
    rwa [Option.some.inj ((kn_of_sourcesHeld hheld h).symm.trans hkn)]
  obtain ⟨u, v, t, hsteps, hadv, hu, ht, hagt⟩ := steps_run_advances
    (s := { s with agenda := Script.run l.instr ++ rest, engine := { s.engine with msg := some x } })
    hint hbuf hp hg hk hb rfl hl
  obtain ⟨hbusy, -⟩ := hadv.ends hp hg
  have hwrite := step_writeMsg hb hag (by simp [fitsBuf, hbuf])
  have hmsg : t.engine.msg = some x := by rw [ht, hadv.msg_eq, hu, accept_engine_msg]
  exact ⟨t, (steps_succ_of_next hwrite).trans hsteps, hagt, ht ▸ hbusy, hmsg, ht ▸ hadv.out_agrees_err hd⟩

/-- Settles O58: the write of `MSG` and `RUN` take five steps, and the sixth, `ERR?`, leaves out the rest of the
sequence exactly after an error. -/
theorem codecSequencesStopAtTheFirstError : Obligations.CodecSequencesStopAtTheFirstError := by
  intro s i n x more later _ hb hint hbuf hkn hn hn' hlbl hkey hag
  rw [forEach_cons_append] at hag
  obtain ⟨t, hfive, hagt, hbusy, hmsg, hout, hnone⟩ :=
    steps_writeMsg_run_codec hb hint hbuf hkn hn hn' hlbl hkey hag
  have hsix := (steps_add_of_next 1 hfive).trans (steps_succ_of_next (step_errCheck hagt))
  refine ⟨_, hsix, hbusy, hmsg, fun herr => ⟨(if_neg herr).trans (drop_forEach i more later), hnone herr⟩,
    fun herr => ?_⟩
  obtain ⟨y, hy⟩ := hout herr
  refine ⟨y, hy, (steps_add_of_next 1 hsix).trans (steps_succ_of_next ?_)⟩
  exact step_rbuf_of_content hbusy (if_pos herr) rfl (congrArg (Option.map HostValue.bytes) hy)

end Sys2Proof.Machine

/-! ## The draws (O37) -/

namespace Sys2Proof.Machine

/-- An answer fixed for the source is the next one it gives. -/
@[simp] theorem Rng.next_cons (x : Nat) (rest : List Nat) (count : Nat) :
    Rng.next ⟨x :: rest, count⟩ = (x, ⟨rest, count⟩) := rfl

/-- A string of 32 bytes is the seed drawn from its value (R261). -/
theorem drawSeed_intOf {z : Bytes} (h : z.length = 32) (rest : List Nat) (count : Nat) :
    drawSeed ⟨intOf z :: rest, count⟩ = (z, ⟨rest, count⟩) := by
  have hlen : z.length = Config.seedLen := h
  rw [drawSeed, Rng.next_cons, ← hlen, Nat.mod_eq_of_lt (intOf_lt z), be_intOf]

/-- A base in range is drawn as it is (R261). -/
theorem drawBase_of_mem {n x : Nat} (hlow : 2 ≤ x) (hhigh : x ≤ n - 2) (rest : List Nat) (count : Nat) :
    drawBase n ⟨x :: rest, count⟩ = (x, ⟨rest, count⟩) := by
  rw [drawBase, Rng.next_cons, baseInRange_of_mem hlow hhigh]

/-- An odd number is drawn as it is, as a candidate of its own bit length (R173, R261). -/
theorem drawCandidate_of_odd {x : Nat} (h : x % 2 = 1) (rest : List Nat) (count : Nat) :
    drawCandidate (bitlen x) ⟨x :: rest, count⟩ = (x, ⟨rest, count⟩) := by
  rw [drawCandidate, Rng.next_cons, candidateInRange_self h]

/-- Settles O37: the range of each of the three requests, and then the answers in range, taken as they are. -/
theorem drawsCoverExactlyTheirRanges : Obligations.DrawsCoverExactlyTheirRanges :=
  ⟨drawSeed_length, fun _ g hn => baseInRange_spec g.next.1 hn, fun _ g hbits => candidateInRange_spec g.next.1 hbits,
    fun _ rest count hz => drawSeed_intOf hz rest count,
    fun _ rest count => ⟨fun _ hlow hhigh => drawBase_of_mem hlow hhigh rest count,
      fun hodd => drawCandidate_of_odd hodd rest count⟩⟩

end Sys2Proof.Machine

/-! ## The errors of each command, and what they invalidate (O52) -/

namespace Sys2Proof.Machine

/-- The registers that error entry can invalidate (R255): the destinations of R83 that can hold ⊥. -/
def clearable : List Reg := [.kn, .ke, .kd, .kp, .kq, .res0, .res1, .res2, .out]

theorem content_clear_self {e : Engine} {q : Reg} (h : q ∈ clearable) : (e.clear q).content q = none := by
  cases q
  case kn | ke | kd | kp | kq | res0 | res1 | res2 | out => rfl
  all_goals exact absurd h (by decide)

/-- Once invalidated, a register stays so while the rest of the list is. -/
theorem content_clearAll_of_mem {e : Engine} {q : Reg} {rs : List Reg} (hq : q ∈ clearable)
    (h : q ∈ rs) : (rs.foldl Engine.clear e).content q = none := by
  induction rs generalizing e with
  | nil => cases h
  | cons r rs ih =>
    rw [List.foldl_cons]
    rcases List.mem_cons.1 h with rfl | hrs
    · have hs : q ≠ .status := ne_of_mem_of_not_mem hq (by decide)
      exact (content_clear_foldl_or hs).elim (fun heq => heq.trans (content_clear_self hq)) id
    · exact ih hrs

/-- The commands that can fail have no destination outside the registers that can be ⊥ (R83, R252). -/
theorem destinations_subset_clearable {i : Instr} {x : Err} {exp act : Nat} (h : Raises i x exp act) :
    destinations i ⊆ clearable := by
  rcases h with ⟨rfl, -⟩ | ⟨rfl | rfl, -⟩ | ⟨rfl, -⟩ | ⟨rfl, -⟩ | ⟨rfl, -⟩ <;> decide

/-- Error entry leaves no destination of the failed command with a value (R255). -/
theorem content_errorEntry_of_mem {i : Instr} {x : Err} {exp act : Nat} {s : State} {q : Reg}
    (h : Raises i x exp act) (hq : q ∈ destinations i) : (errorEntry i x exp act s).engine.content q = none := by
  have hclear : q ∈ clearable := destinations_subset_clearable h hq
  have hne {r : Reg} (hr : r ∉ clearable) : q ≠ r := ne_of_mem_of_not_mem hclear hr
  rw [errorEntry_engine, content_finish (hne (by decide)) (hne (by decide)) (hne (by decide))]
  exact content_clearAll_of_mem hclear hq

/-- The codes of the errors that each command can raise (R251, R252). -/
theorem code_of_raises {i : Instr} {x : Err} {exp act : Nat} (h : Raises i x exp act) :
    (i = .mgf1 ∧ x.code = 0x01) ∨ ((i = .modinv ∨ i = .genkey) ∧ x.code = 0x02) ∨ (i = .oaepEnc ∧ x.code = 0x04) ∨
    (i = .oaepDec ∧ (x.code = 0x05 ∨ x.code = 0x06 ∨ x.code = 0x07)) := by
  rcases h with ⟨hi, rfl, -⟩ | ⟨hi, rfl, -⟩ | ⟨hi, rfl, -⟩ | ⟨hi, rfl, -⟩ | ⟨hi, rfl | rfl, -⟩
  · exact .inl ⟨hi, rfl⟩
  · exact .inr (.inl ⟨hi, rfl⟩)
  · exact .inr (.inr (.inl ⟨hi, rfl⟩))
  · exact .inr (.inr (.inr ⟨hi, .inl rfl⟩))
  · exact .inr (.inr (.inr ⟨hi, .inr (.inl rfl)⟩))
  · exact .inr (.inr (.inr ⟨hi, .inr (.inr rfl)⟩))

/-- Settles O52: a step that leaves the engine idle is a success, with the code 0, or an error entry. -/
theorem failedCommandsRaiseTheirErrorAndInvalidate : Obligations.FailedCommandsRaiseTheirErrorAndInvalidate := by
  intro i s t hbusy h hidle
  rcases exec_next h with ⟨hnot, -⟩ | ⟨l, -, rfl, ha⟩
  · exact absurd hbusy (Bool.eq_false_iff.1 hnot)
  cases ha with
  | success r g _ _ _ => exact ⟨fun herr => absurd rfl herr, .inl rfl⟩
  | failure x exp act g hraises _ _ =>
    exact ⟨fun _ r hr => content_errorEntry_of_mem hraises hr, .inr (code_of_raises hraises)⟩
  | progress l' g _ _ _ _ => exact absurd hbusy (Bool.eq_false_iff.1 hidle)

end Sys2Proof.Machine

/-! ## The commands that always complete (O56) -/

namespace Sys2Proof.Machine

/-- Settles O56: with no bounds and no hash input of 2^61 bytes the step of the operation answers a next state, and
only `GENPRIME` and `GENKEY` have a step that is not a completion (`exec_completes`). -/
theorem otherCommandsAlwaysComplete : Obligations.OtherCommandsAlwaysComplete :=
  fun _ _ _ hrun hint hbuf hp hg hk => exec_completes hrun hint hbuf hp hg hk

end Sys2Proof.Machine
